-- ==== Sys2Proof/Word.lean ====
section
/-!
DEFINITION. The word types of B64DEC and nothing else (00_scope.md R10 to R12). The field
extractions live in Sys2Proof/Machine/Operands.lean.
-/

namespace Sys2Proof

/-- One input character or one output element (R10). -/
abbrev Byte := BitVec 8

/-- One host-visible register, one bus data word (R11). -/
abbrev Word32 := BitVec 32

/-- A transaction descriptor TD (R118): W in bit 20, SZ in bits 19 and 18, OFF in bits 17 to 0. -/
abbrev TD := BitVec 21

/-- An engine step selector SEL (R125): PHASE in bits 4 to 2, CLASS in bits 1 and 0. -/
abbrev Sel := BitVec 5

/-- A length, index or cursor register of the engine (R11). -/
abbrev Index := BitVec 17

end Sys2Proof
end

