-- ==== Sys2Proof/Config.lean ====
section
/-!
DEFINITION. What one instance of B64DEC fixes (00_scope.md R9): the parameters, the identification
value, and the free values that stand for the buffers' contents at power-on.
-/

namespace Sys2Proof.Config

/-- The legal values of IN_CAP (R9): a multiple of 4 from 4 to 65536. -/
def legalCap (cap : Nat) : Bool := cap % 4 == 0 && 4 ≤ cap && cap ≤ 65536

/-- IN_CAP of the machine right after power-on. R9 gives 4096 for the spec's own examples; every
other legal capacity is a state with another `inCap`. DESIGN CHOICE, log entry 1. -/
def inCap : Nat := 4096

/-- OUT_CAP = (IN_CAP * 3) / 4 (R9, D20). -/
def outCapOf (cap : Nat) : Nat := cap * 3 / 4

/-- The ID register's fixed value (R33). -/
def idValue : Word32 := 0xB64D0001#32

/-- The value of each IN_MEM byte at power-on (R100): a draw nothing is known of. Free value, log
entry 2: no body, so a statement holds for every draw. -/
opaque inDraw : Nat → Byte

/-- The value of each OUT_MEM byte at power-on (R100). Free value, log entry 2. -/
opaque outDraw : Nat → Byte

/-- The legal values of BASE (R9): a multiple of 0x40000. -/
def legalBase (base : Nat) : Bool := base % 0x40000 == 0

/-- The offset of a bus address in the region the platform routes to the block (R81): the addresses
BASE to BASE + 0x3FFFF, with OFF = address - BASE; any other address does not reach the block. -/
def routeOffset (base addr : Nat) : Option (BitVec 18) :=
  if base ≤ addr ∧ addr < base + 0x40000 then some (BitVec.ofNat 18 (addr - base)) else none

end Sys2Proof.Config
end

