-- ==== Sys2Proof/Syntax.lean ====
section
/-!
DEFINITION. The operations of B64DEC: one constructor for every row of spec/opcode_table.json, in the
table's order, and the small sets of names the spec fixes (PHASE, CLASS, ERR_CODE).
-/

namespace Sys2Proof

/-- PHASE (30_encoding.md R123, 10_state.md R53): the engine's sequencing state. A 3-bit register
also has the codes 110 and 111, which no rule writes (R129). -/
inductive Phase where
  | idle
  | len
  | val
  | prep
  | dec
  | tail
  | unused110
  | unused111
deriving DecidableEq, Repr

/-- CLASS (R110, R112, R124): bits 7 and 6 of a LUT word; `never` is the code 11 that no ROM word
holds. -/
inductive SymClass where
  | sym
  | pad
  | inv
  | never
deriving DecidableEq, Repr

/-- ERR_CODE (R126): the DecodeError kind of a failed run. -/
inductive ErrCode where
  | none
  | invalidLength
  | invalidPaddingPosition
  | invalidCharacter
deriving DecidableEq, Repr

/-- The operations of B64DEC. The rows of format TD carry the word index w of a window (R119) and the
write data; the rows of format CTRL carry the ignored bits 31 to 2 of the command word (R122, R196);
the rows of format SEL that match any CLASS carry it (R125), so that no bit of a code is dropped. -/
inductive Instr where
  -- register reads (R214 to R222)
  | rdId
  | rdCap
  | rdCtrl
  | rdStatus
  | rdIrqEn
  | rdInLen
  | rdOutLen
  | rdPadCnt
  | rdErrPos
  -- window reads (R223, R224)
  | rdIn (w : BitVec 14)
  | rdOut (w : BitVec 14)
  -- register writes (R225 to R227, R229 to R234)
  | wrId (wdata : Word32)
  | wrCap (wdata : Word32)
  | wrCtrl (wdata : Word32)
  | wrStatus (wdata : Word32)
  | wrIrqEn (wdata : Word32)
  | wrInLen (wdata : Word32)
  | wrOutLen (wdata : Word32)
  | wrPadCnt (wdata : Word32)
  | wrErrPos (wdata : Word32)
  -- window writes (R228, R235)
  | wrIn (w : BitVec 14) (wdata : Word32)
  | wrOut (w : BitVec 14) (wdata : Word32)
  -- every illegal transaction (R236)
  | bad (td : TD)
  -- the command words of WR_CTRL (R191 to R195)
  | nop (reserved : BitVec 30)
  | start (reserved : BitVec 30)
  | clr (reserved : BitVec 30)
  | clrStart (reserved : BitVec 30)
  -- the engine's steps (R148 to R157)
  | idle (cls : BitVec 2)
  | len (cls : BitVec 2)
  | valSym
  | valPad
  | valInv
  | prep (cls : BitVec 2)
  | decSym
  | decPad
  | decInv
  | tail (cls : BitVec 2)
  -- the selectors that have no step rule (R158)
  | unreachablePhase (low : BitVec 3)
  | unreachableValClass3
  | unreachableDecClass3
deriving DecidableEq, Repr

/-- The three formats of a code (opcode_table.json "format"): a transaction descriptor with its write
data, a CTRL command word, an engine step selector. -/
inductive Format where
  | td
  | ctrl
  | sel
deriving DecidableEq, Repr

end Sys2Proof
end

