-- ==== Sys2Proof/Machine/Operands.lean ====
section
/-!
DEFINITION. Every operand form of the spec: the fields of a transaction descriptor (R118, R119), the
lanes of a window word (R86), the fields of a LUT word (R112), the codes of PHASE, CLASS and ERR_CODE
(R123, R124, R126), and the bit layout of the accumulator (R115 to R117).
-/

namespace Sys2Proof.Machine

/-! ### The transaction descriptor (R118, R119) -/

/-- W, TD[20]: 1 is a write. -/
def tdW (td : TD) : Bool := td.getLsbD 20

/-- SZ, TD[19:18]. -/
def tdSz (td : TD) : BitVec 2 := td.extractLsb' 18 2

/-- OFF, TD[17:0]. -/
def tdOff (td : TD) : BitVec 18 := td.extractLsb' 0 18

/-- OFF[1:0], the alignment bits. -/
def tdAlign (td : TD) : BitVec 2 := td.extractLsb' 0 2

/-- OFF[17:16], the quarter of the region (R81). -/
def tdQuarter (td : TD) : BitVec 2 := td.extractLsb' 16 2

/-- w = OFF[15:2], the word index of a window (R119). -/
def tdWord (td : TD) : BitVec 14 := td.extractLsb' 2 14

/-- The size code of a 4-byte access (R118). -/
def szWord : BitVec 2 := 0b10#2

/-- The descriptor of a word access: W, SZ = 10, OFF. -/
def wordTD (write : Bool) (off : BitVec 18) : TD := BitVec.ofBool write ++ szWord ++ off

/-- The buffer index of lane 0 of window word w (R119): 4w. -/
def laneBase (w : BitVec 14) : Nat := 4 * w.toNat

/-! ### The lanes of a window word (R86): lane k is bits 8k+7 to 8k -/

/-- Lane k of a data word. -/
def lane (d : Word32) (k : Nat) : Byte := d.extractLsb' (8 * k) 8

/-- The data word whose lanes 0 to 3 are the four bytes. -/
def wordOfLanes (b0 b1 b2 b3 : Byte) : Word32 := b3 ++ b2 ++ b1 ++ b0

/-! ### The fields of a LUT word (R112) -/

/-- CLASS, bits 7 and 6. -/
def lutClassBits (w : BitVec 8) : BitVec 2 := w.extractLsb' 6 2

/-- VALUE, bits 5 to 0. -/
def lutValue (w : BitVec 8) : BitVec 6 := w.extractLsb' 0 6

/-! ### Codes (R123, R124, R126) -/

/-- The 3-bit code of a phase (R123). -/
def phaseCode : Phase → BitVec 3
  | .idle => 0b000#3
  | .len => 0b001#3
  | .val => 0b010#3
  | .prep => 0b011#3
  | .dec => 0b100#3
  | .tail => 0b101#3
  | .unused110 => 0b110#3
  | .unused111 => 0b111#3

/-- The phase of a 3-bit code (R123, R129). -/
def phaseOfCode (c : BitVec 3) : Phase :=
  match c.toNat with
  | 0 => .idle
  | 1 => .len
  | 2 => .val
  | 3 => .prep
  | 4 => .dec
  | 5 => .tail
  | 6 => .unused110
  | _ => .unused111

/-- The class of a 2-bit code (R124). -/
def classOfCode (c : BitVec 2) : SymClass :=
  match c.toNat with
  | 0 => .sym
  | 1 => .pad
  | 2 => .inv
  | _ => .never

/-- The 2-bit code of an error kind in STATUS[5:4] (R126). -/
def errCodeBits : ErrCode → BitVec 2
  | .none => 0#2
  | .invalidLength => 1#2
  | .invalidPaddingPosition => 2#2
  | .invalidCharacter => 3#2

/-! ### The accumulator (R115 to R117) -/

/-- Symbol assembly (R115): `((ACC << 6) | v) mod 2^24`. -/
def shiftIn (acc : BitVec 24) (v : BitVec 6) : BitVec 24 := (acc <<< 6) ||| v.setWidth 24

/-- ACC[23:16], the first byte of a group (R116). -/
def accHi (a : BitVec 24) : Byte := a.extractLsb' 16 8

/-- ACC[15:8], the second byte of a group (R116). -/
def accMid (a : BitVec 24) : Byte := a.extractLsb' 8 8

/-- ACC[7:0], the third byte of a group (R116). -/
def accLo (a : BitVec 24) : Byte := a.extractLsb' 0 8

/-- Tail alignment (R117): `(ACC << 6 * PAD) mod 2^24`. -/
def tailAlign (acc : BitVec 24) (pad : BitVec 2) : BitVec 24 := acc <<< (6 * pad.toNat)

/-- The bytes a TAIL step emits (R156): `3 - PAD` of them, the most significant first. -/
def tailBytes (a : BitVec 24) (pad : BitVec 2) : List Byte :=
  [accHi a, accMid a, accLo a].take (3 - pad.toNat)

end Sys2Proof.Machine
end

