-- ==== Sys2Proof/WellFormed.lean ====
section
/-!
DEFINITION. Which operations exist on an instance with input capacity `cap`: the window words that
are mapped (30_encoding.md R121) and the descriptors that are illegal (R128).
-/

namespace Sys2Proof

open Sys2Proof.Machine

/-- A descriptor is illegal (R128) when its size is not 4 bytes, its offset is not a multiple of 4, or
its offset is unmapped: above 0x20 in the register page, at or beyond the capacity in a window, or in
the reserved quarter. -/
def tdIllegal (cap : Nat) (td : TD) : Bool :=
  let off := (tdOff td).toNat
  tdSz td != szWord
    || off % 4 != 0
    || (0x24 ≤ off && off ≤ 0x0FFFF)
    || (0x10000 ≤ off && off ≤ 0x1FFFF && cap ≤ off - 0x10000)
    || (0x20000 ≤ off && off ≤ 0x2FFFF && Config.outCapOf cap ≤ off - 0x20000)
    || 0x30000 ≤ off

/-- The operation exists on an instance with input capacity `cap`: a window word lies below its
buffer's capacity, and BAD carries an illegal descriptor; every other operand value is admitted. -/
def Instr.wf (cap : Nat) : Instr → Bool
  | .rdIn w => laneBase w < cap
  | .wrIn w _ => laneBase w < cap
  | .rdOut w => laneBase w < Config.outCapOf cap
  | .wrOut w _ => laneBase w < Config.outCapOf cap
  | .bad td => tdIllegal cap td
  | .rdId | .rdCap | .rdCtrl | .rdStatus | .rdIrqEn | .rdInLen | .rdOutLen | .rdPadCnt | .rdErrPos => true
  | .wrId _ | .wrCap _ | .wrCtrl _ | .wrStatus _ | .wrIrqEn _ | .wrInLen _ | .wrOutLen _ | .wrPadCnt _
  | .wrErrPos _ => true
  | .nop _ | .start _ | .clr _ | .clrStart _ => true
  | .idle _ | .len _ | .valSym | .valPad | .valInv | .prep _ | .decSym | .decPad | .decInv | .tail _ => true
  | .unreachablePhase _ | .unreachableValClass3 | .unreachableDecClass3 => true

/-- The format of an operation's code (opcode_table.json "format"). -/
def Instr.format : Instr → Format
  | .rdId | .rdCap | .rdCtrl | .rdStatus | .rdIrqEn | .rdInLen | .rdOutLen | .rdPadCnt | .rdErrPos => .td
  | .rdIn _ | .rdOut _ => .td
  | .wrId _ | .wrCap _ | .wrCtrl _ | .wrStatus _ | .wrIrqEn _ | .wrInLen _ | .wrOutLen _ | .wrPadCnt _
  | .wrErrPos _ => .td
  | .wrIn _ _ | .wrOut _ _ | .bad _ => .td
  | .nop _ | .start _ | .clr _ | .clrStart _ => .ctrl
  | .idle _ | .len _ | .valSym | .valPad | .valInv | .prep _ | .decSym | .decPad | .decInv | .tail _ => .sel
  | .unreachablePhase _ | .unreachableValClass3 | .unreachableDecClass3 => .sel

end Sys2Proof
end

