-- ==== Sys2Proof/Decode.lean ====
section
/-!
DEFINITION. The three decoders of B64DEC (42_bus_access.md R213, 41_commands.md R190, 30_encoding.md
R125), the decoder over bytes that wraps them, and after them the encoder. A descriptor is decoded
for an instance with input capacity `cap`, because a window word beyond the capacity is BAD (R121).
-/

namespace Sys2Proof

open Sys2Proof.Machine

/-! ### Transaction descriptors (R120, R121, R213) -/

/-- The register operation of a legal register offset, by its word number OFF / 4 (R120). -/
def decodeRegister (td : TD) (wdata : Word32) : Instr :=
  match tdW td, (tdOff td).toNat / 4 with
  | false, 0 => .rdId
  | false, 1 => .rdCap
  | false, 2 => .rdCtrl
  | false, 3 => .rdStatus
  | false, 4 => .rdIrqEn
  | false, 5 => .rdInLen
  | false, 6 => .rdOutLen
  | false, 7 => .rdPadCnt
  | false, 8 => .rdErrPos
  | true, 0 => .wrId wdata
  | true, 1 => .wrCap wdata
  | true, 2 => .wrCtrl wdata
  | true, 3 => .wrStatus wdata
  | true, 4 => .wrIrqEn wdata
  | true, 5 => .wrInLen wdata
  | true, 6 => .wrOutLen wdata
  | true, 7 => .wrPadCnt wdata
  | true, 8 => .wrErrPos wdata
  | _, _ => .bad td

/-- DecodeTD (R213): the conditions in the spec's order, the first that holds decides. The data word
of a read is not part of the transaction. -/
def decodeTD (cap : Nat) (td : TD) (wdata : Word32) : Instr :=
  if tdSz td ≠ szWord then .bad td
  else if tdAlign td ≠ 0#2 then .bad td
  else
    match (tdQuarter td).toNat with
    | 0 => if (tdOff td).toNat ≤ 0x20 then decodeRegister td wdata else .bad td
    | 1 =>
      if laneBase (tdWord td) < cap then
        (if tdW td then .wrIn (tdWord td) wdata else .rdIn (tdWord td))
      else .bad td
    | 2 =>
      if laneBase (tdWord td) < Config.outCapOf cap then
        (if tdW td then .wrOut (tdWord td) wdata else .rdOut (tdWord td))
      else .bad td
    | _ => .bad td

/-! ### CTRL command words (R122, R190) -/

/-- The ignored bits 31 to 2 of a command word (R196). -/
def ctrlReserved (wdata : Word32) : BitVec 30 := wdata.extractLsb' 2 30

/-- The command that WDATA[1:0] selects (R190). -/
def decodeCtrl (wdata : Word32) : Instr :=
  match (wdata.extractLsb' 0 2).toNat with
  | 0 => .nop (ctrlReserved wdata)
  | 1 => .start (ctrlReserved wdata)
  | 2 => .clr (ctrlReserved wdata)
  | _ => .clrStart (ctrlReserved wdata)

/-! ### Engine step selectors (R125) -/

/-- PHASE, SEL[4:2]. -/
def selPhase (sel : Sel) : BitVec 3 := sel.extractLsb' 2 3

/-- CLASS, SEL[1:0]. -/
def selClass (sel : Sel) : BitVec 2 := sel.extractLsb' 0 2

/-- The step that a selector picks (R125), the unreachable selectors of R129 among them. -/
def decodeSel (sel : Sel) : Instr :=
  match phaseOfCode (selPhase sel), classOfCode (selClass sel) with
  | .idle, _ => .idle (selClass sel)
  | .len, _ => .len (selClass sel)
  | .val, .sym => .valSym
  | .val, .pad => .valPad
  | .val, .inv => .valInv
  | .val, .never => .unreachableValClass3
  | .prep, _ => .prep (selClass sel)
  | .dec, .sym => .decSym
  | .dec, .pad => .decPad
  | .dec, .inv => .decInv
  | .dec, .never => .unreachableDecClass3
  | .tail, _ => .tail (selClass sel)
  | .unused110, _ => .unreachablePhase (sel.extractLsb' 0 3)
  | .unused111, _ => .unreachablePhase (sel.extractLsb' 0 3)

/-! ### Codes, and their bytes -/

/-- A code in one of the three formats. -/
inductive Code where
  | td (td : TD) (wdata : Word32)
  | ctrl (wdata : Word32)
  | sel (sel : Sel)
deriving DecidableEq, Repr

/-- Decoding a code is total: every descriptor, command word and selector has exactly one operation. -/
def decodeCode (cap : Nat) : Code → Instr
  | .td td wdata => decodeTD cap td wdata
  | .ctrl wdata => decodeCtrl wdata
  | .sel sel => decodeSel sel

/-- Why a byte string is no code: it ends too soon, its third byte holds bits above TD[20], or its
only byte holds bits above SEL[4]. -/
inductive Reject where
  | tooShort
  | aboveTD
  | aboveSel
deriving DecidableEq, Repr

/-- The decoder over bytes, each code least significant byte first (log entry 11): a descriptor in three
bytes followed, for a write, by four bytes of WDATA; a command word in four bytes; a selector in one.
It answers the operation with the bytes left over, or the reason why there is none. -/
def decode (cap : Nat) (f : Format) (bytes : List Byte) : Except Reject (Instr × List Byte) :=
  match f, bytes with
  | .td, b0 :: b1 :: b2 :: rest =>
    if 0x20 ≤ b2.toNat then .error .aboveTD
    else
      let td : TD := (b2 ++ b1 ++ b0).setWidth 21
      if tdW td then
        match rest with
        | d0 :: d1 :: d2 :: d3 :: rest' => .ok (decodeTD cap td (wordOfLanes d0 d1 d2 d3), rest')
        | _ => .error .tooShort
      else .ok (decodeTD cap td 0#32, rest)
  | .ctrl, d0 :: d1 :: d2 :: d3 :: rest => .ok (decodeCtrl (wordOfLanes d0 d1 d2 d3), rest)
  | .sel, b0 :: rest =>
    if 0x20 ≤ b0.toNat then .error .aboveSel else .ok (decodeSel (b0.setWidth 5), rest)
  | _, _ => .error .tooShort

/-! ### The encoder -/

/-- The descriptor of a window word (R119): W, SZ = 10, the quarter, w, 00. -/
def windowTD (write : Bool) (quarter : BitVec 2) (w : BitVec 14) : TD :=
  wordTD write (quarter ++ w ++ 0#2)

/-- The code of an operation, from the spec's TD of each register row (42_bus_access.md R214 to R236),
the command words of R122 and the selectors of R125. The data word of a read is given as 0. -/
def encode : Instr → Code
  | .rdId => .td 0x080000#21 0#32
  | .rdCap => .td 0x080004#21 0#32
  | .rdCtrl => .td 0x080008#21 0#32
  | .rdStatus => .td 0x08000C#21 0#32
  | .rdIrqEn => .td 0x080010#21 0#32
  | .rdInLen => .td 0x080014#21 0#32
  | .rdOutLen => .td 0x080018#21 0#32
  | .rdPadCnt => .td 0x08001C#21 0#32
  | .rdErrPos => .td 0x080020#21 0#32
  | .rdIn w => .td (windowTD false 0b01#2 w) 0#32
  | .rdOut w => .td (windowTD false 0b10#2 w) 0#32
  | .wrId d => .td 0x180000#21 d
  | .wrCap d => .td 0x180004#21 d
  | .wrCtrl d => .td 0x180008#21 d
  | .wrStatus d => .td 0x18000C#21 d
  | .wrIrqEn d => .td 0x180010#21 d
  | .wrInLen d => .td 0x180014#21 d
  | .wrOutLen d => .td 0x180018#21 d
  | .wrPadCnt d => .td 0x18001C#21 d
  | .wrErrPos d => .td 0x180020#21 d
  | .wrIn w d => .td (windowTD true 0b01#2 w) d
  | .wrOut w d => .td (windowTD true 0b10#2 w) d
  | .bad td => .td td 0#32
  | .nop r => .ctrl (r ++ 0b00#2)
  | .start r => .ctrl (r ++ 0b01#2)
  | .clr r => .ctrl (r ++ 0b10#2)
  | .clrStart r => .ctrl (r ++ 0b11#2)
  | .idle c => .sel (0b000#3 ++ c)
  | .len c => .sel (0b001#3 ++ c)
  | .valSym => .sel 0b01000#5
  | .valPad => .sel 0b01001#5
  | .valInv => .sel 0b01010#5
  | .prep c => .sel (0b011#3 ++ c)
  | .decSym => .sel 0b10000#5
  | .decPad => .sel 0b10001#5
  | .decInv => .sel 0b10010#5
  | .tail c => .sel (0b101#3 ++ c)
  | .unreachablePhase l => .sel (0b11#2 ++ l)
  | .unreachableValClass3 => .sel 0b01011#5
  | .unreachableDecClass3 => .sel 0b10011#5

/-- The four bytes of a data word, lane 0 first. -/
def wordBytes (d : Word32) : List Byte := [lane d 0, lane d 1, lane d 2, lane d 3]

/-- The bytes of a code, as `decode` reads them: WDATA is present for writes only (R118). -/
def codeBytes : Code → List Byte
  | .td td wdata =>
    [td.extractLsb' 0 8, td.extractLsb' 8 8, (td.extractLsb' 16 5).setWidth 8]
      ++ (if tdW td then wordBytes wdata else [])
  | .ctrl wdata => wordBytes wdata
  | .sel sel => [sel.setWidth 8]

/-- The bytes of an operation. -/
def encodeBytes (i : Instr) : List Byte := codeBytes (encode i)

/-! ### The opcode table's numbering -/

/-- The `k` lowest bytes of a number, least significant first. -/
def leBytes : Nat → Nat → List Byte
  | 0, _ => []
  | k + 1, w => BitVec.ofNat 8 w :: leBytes k (w / 256)

/-- The format of a table row of `nbits` bits with the bits `w`. The table numbers its three formats
independently of one another, so `nbits` has to tell them apart: more than 24 bits is a command word,
9 to 24 bits a descriptor (21 bits in three bytes), up to 8 bits a selector. The command rows fix bits 1 and 0
only, so 1, 2 and 3 in one byte are read as the command words START, CLR and CLR_START; 0 in one byte
is the selector IDLE, and NOP is read from a 32-bit 0 (log entry 11). A row without a fixed bit (BAD)
is a descriptor. -/
def tableFormat (nbits w : Nat) : Format :=
  if nbits = 0 then .td
  else if nbits ≤ 8 then (if 1 ≤ w ∧ w ≤ 3 then .ctrl else .sel)
  else if nbits ≤ 24 then .td
  else .ctrl

/-- The bytes of the table's word w in its format, every bit above the row's bits 0. -/
def tableBytes (nbits w : Nat) : List Byte :=
  match tableFormat nbits w with
  | .td => leBytes 3 w ++ leBytes 4 0
  | .ctrl => leBytes 4 w
  | .sel => leBytes 1 w

/-- What the decoder reads from the opcode table's word `w` on the power-on instance. -/
def decodeTableWord (nbits w : Nat) : Option Instr :=
  match decode Config.inCap (tableFormat nbits w) (tableBytes nbits w) with
  | .ok (i, _) => some i
  | .error _ => none

end Sys2Proof
end

