-- ==== Sys2Proof/Machine/Lut.lean ====
section
/-!
DEFINITION. The contents of the LUT ROM (30_encoding.md R110 to R114, 10_state.md R50).
-/

namespace Sys2Proof.Machine

/-- The padding byte `=` (R113). -/
def padByte : Byte := 0x3D#8

/-- The LUT word of a byte (R111, R112): `{00, value}` for a symbol, 0x40 for `=`, 0x80 for every
other byte. The alphabet is `A`-`Z`, `a`-`z`, `0`-`9`, `+`, `/` in ASCII. -/
def lutWord (c : Byte) : BitVec 8 :=
  let k := c.toNat
  if 0x41 ≤ k ∧ k ≤ 0x5A then BitVec.ofNat 8 (k - 0x41)
  else if 0x61 ≤ k ∧ k ≤ 0x7A then BitVec.ofNat 8 (k - 0x61 + 26)
  else if 0x30 ≤ k ∧ k ≤ 0x39 then BitVec.ofNat 8 (k - 0x30 + 52)
  else if k = 0x2B then 62#8
  else if k = 0x2F then 63#8
  else if k = 0x3D then 0x40#8
  else 0x80#8

/-- The ROM: 256 entries of 8 bits, entry c the LUT word of byte c (R50). -/
def lutRom : Vector (BitVec 8) 256 :=
  ⟨((List.range 256).map fun k => lutWord (BitVec.ofNat 8 k)).toArray, by simp⟩

/-- The class of a byte (R110), as the ROM's contents give it. -/
def classOf (c : Byte) : SymClass := classOfCode (lutClassBits (lutWord c))

/-- The 6-bit value of a symbol (R111), as the ROM's contents give it. -/
def valueOf (c : Byte) : BitVec 6 := lutValue (lutWord c)

end Sys2Proof.Machine
end

