-- ==== Sys2Proof/Machine/State.lean ====
section
/-!
DEFINITION. The state of B64DEC: the record of 10_state.md R30, and the boundary with the outside
world (the cycle inputs still to come, the engine step still owed, the last answer).
-/

namespace Sys2Proof.Machine

/-- Why the machine stops. None of them is a behaviour of the hardware: every one is raised only in a
state that no run reaches (R129, R161, R162), so each is SAFE. -/
inductive Fault where
  /-- R248: an engine selector no reachable state has. Raised by DEC_INV, UNREACHABLE_PHASE,
  UNREACHABLE_VAL_CLASS3 and UNREACHABLE_DEC_CLASS3. Safe: never final, it refutes any claim. -/
  | engineInvariant
  /-- An InRead at or beyond IN_CAP, which R14 does not define. Raised by the engine's selector in VAL
  and DEC, by VAL_SYM, VAL_PAD, VAL_INV, PREP and DEC_SYM. Safe: R162 says it never happens. -/
  | inReadOutOfRange
  /-- An OutWrite at or beyond OUT_CAP, which R14 does not define. Raised by DEC_SYM and TAIL. Safe:
  R161 says it never happens. -/
  | outWriteOutOfRange
  /-- A difference of naturals that would be negative, which R13 does not define. Raised by VAL_SYM
  (`I - 1`) and PREP (`N - 1`, `N - 2`, `(N * 3) / 4 - p`). Safe: R149 and R152 say it never happens. -/
  | negativeDifference
deriving DecidableEq, Repr

/-- Why an operation has no meaning. Every operation of the table has one, so no step raises it. -/
inductive Refusal where
  /-- An arm of exec not modelled yet, by its mnemonic. Safe. -/
  | notModelled (mnemonic : String)
deriving DecidableEq, Repr

/-- The two responses of a transaction (R211). -/
inductive Resp where
  | okay
  | slverr
deriving DecidableEq, Repr

/-- What a transaction returns (R210): the response and the read data, 0 for a write. -/
structure Answer where
  resp : Resp
  rdata : Word32
deriving DecidableEq, Repr

/-- A host transaction (R118, R210): the descriptor and the write data, which a read does not use. -/
structure Txn where
  td : TD
  wdata : Word32
deriving DecidableEq, Repr

/-- What the outside world does in one clock cycle (R294, R280). -/
inductive CycleInput where
  /-- A cycle out of reset, with at most one transaction. `held` says that the engine takes no step
  in this cycle: never at the reference timing, and allowed to a slower implementation (R296). -/
  | cycle (bus : Option Txn) (held : Bool)
  /-- A clock edge with `rst` = 1 (R280). -/
  | rst
deriving DecidableEq, Repr

/-- A buffer's bytes written since power-on, as (index, byte) pairs in rising order of index. An index
that is not listed has not been written; its byte is the power-on draw (R100). -/
abbrev Memory := List Host.Cell

/-- The state of B64DEC (R30), flat. -/
structure State where
  /-- STATUS.DONE (R38). -/
  done : Bool
  /-- STATUS.ERR (R39). -/
  err : Bool
  /-- STATUS.ERR_CODE (R40). -/
  errCode : ErrCode
  /-- STATUS.CMDERR (R41). -/
  cmdErr : Bool
  /-- STATUS.BUSYWR (R42). -/
  busyWr : Bool
  /-- IRQ_EN.DONE_IE (R43). -/
  doneIe : Bool
  /-- IN_LEN (R44). -/
  inLen : Word32
  /-- OUT_LEN (R45). -/
  outLen : Word32
  /-- PAD_CNT (R46). -/
  padCnt : Word32
  /-- ERR_POS (R47). -/
  errPos : Word32
  /-- IN_CAP, the constant that CAP reports (R34). No rule writes it. -/
  inCap : Nat
  /-- The LUT ROM (R50). No rule writes it. -/
  lut : Vector (BitVec 8) 256
  /-- IN_MEM (R51). -/
  inMem : Memory
  /-- OUT_MEM (R52). -/
  outMem : Memory
  /-- PHASE (R53). -/
  phase : Phase
  /-- N (R54). -/
  n : Index
  /-- I (R58). -/
  i : Index
  /-- SEENPAD (R59). -/
  seenPad : Bool
  /-- PAD (R60). -/
  pad : BitVec 2
  /-- OUTL (R61). -/
  outl : Index
  /-- ACC (R55). -/
  acc : BitVec 24
  /-- CNT (R56). -/
  cnt : BitVec 2
  /-- J (R57). -/
  j : Index
  /-- The model's own: the cycle inputs still to come, the next one first (log entry 3). -/
  pending : List CycleInput
  /-- The model's own: the transaction of the current cycle is done, and the engine step that R294
  gives the same cycle is still owed (log entry 4). -/
  engineDue : Bool
  /-- The model's own: the answer of the last transaction (log entry 5). -/
  resp : Option Answer
deriving DecidableEq, Repr

/-- The outcome of an operation. -/
abbrev Result := Host.Outcome State Fault Refusal

/-- The machine right after power-on and its reset (R63, R281): every register at the value of R63,
the ROM in place, no buffer byte written. IN_CAP is 4096 (log entry 1). -/
def State.reset : State where
  done := false
  err := false
  errCode := .none
  cmdErr := false
  busyWr := false
  doneIe := false
  inLen := 0#32
  outLen := 0#32
  padCnt := 0#32
  errPos := 0#32
  inCap := Config.inCap
  lut := lutRom
  inMem := []
  outMem := []
  phase := .idle
  n := 0#17
  i := 0#17
  seenPad := false
  pad := 0#2
  outl := 0#17
  acc := 0#24
  cnt := 0#2
  j := 0#17
  pending := []
  engineDue := false
  resp := none

end Sys2Proof.Machine
end

