-- ==== Sys2Proof/Machine/Flags.lean ====
section
/-!
DEFINITION. Every flag computation of the spec: the derived BUSY, the STATUS word, IRQ_EN and the
interrupt output (10_state.md R36, R37, R43, R49, R64).
-/

namespace Sys2Proof.Machine

/-- STATUS.BUSY (R37): 1 exactly when PHASE ≠ IDLE. -/
def State.busy (s : State) : Bool := s.phase != .idle

/-- The STATUS word (R36): `{22'b0, BUSYWR, CMDERR, 2'b0, ERR_CODE, 1'b0, ERR, DONE, BUSY}`. -/
def statusWord (s : State) : Word32 :=
  0#22 ++ BitVec.ofBool s.busyWr ++ BitVec.ofBool s.cmdErr ++ 0#2 ++ errCodeBits s.errCode ++ 0#1
    ++ BitVec.ofBool s.err ++ BitVec.ofBool s.done ++ BitVec.ofBool s.busy

/-- The IRQ_EN word (R43): `{31'b0, DONE_IE}`. -/
def irqEnWord (s : State) : Word32 := 0#31 ++ BitVec.ofBool s.doneIe

/-- The interrupt output (R49, R257): `irq = STATUS.DONE AND IRQ_EN.DONE_IE`. -/
def State.irq (s : State) : Bool := s.done && s.doneIe

end Sys2Proof.Machine
end

