-- ==== Sys2Proof/Machine/Ops.lean ====
section
/-!
DEFINITION. The named operations over the buffers and the registers: InRead, OutWrite and LUT
(00_scope.md R14), the answer of a transaction (R210), the two ends of a run, `complete` (R141) and
`raise DecodeError` (R142, the block's error entry, R253), the ways out of an error (R255: CLR R194 and
START R192), and the reset edge (R281).
-/

namespace Sys2Proof.Machine

/-! ### Buffers -/

/-- The byte written at an index since power-on, if there is one. -/
def memGet : Memory → Nat → Option Byte
  | [], _ => none
  | (a, b) :: m, k => if k = a then some b else memGet m k

/-- Write one byte, keeping the indices rising. -/
def memSet : Memory → Nat → Byte → Memory
  | [], k, v => [(k, v)]
  | (a, b) :: m, k, v =>
    if k < a then (k, v) :: (a, b) :: m
    else if k = a then (k, v) :: m
    else (a, b) :: memSet m k v

/-- The canonical form of a buffer of `bound` bytes: the indices rise strictly and lie below `bound`. -/
def Memory.wf (bound : Nat) : Memory → Bool
  | [] => true
  | [(a, _)] => a < bound
  | (a, _) :: (c, w) :: m => a < c && Memory.wf bound ((c, w) :: m)

/-- IN_MEM[k]: the byte last written, or the power-on draw (R100). -/
def inByte (s : State) (k : Nat) : Byte := (memGet s.inMem k).getD (Config.inDraw k)

/-- OUT_MEM[k]: the byte last written, or the power-on draw (R100). -/
def outByte (s : State) (k : Nat) : Byte := (memGet s.outMem k).getD (Config.outDraw k)

/-- OUT_CAP of the instance (R9). -/
def outCap (s : State) : Nat := Config.outCapOf s.inCap

/-- `InRead(k)` (R14): defined below IN_CAP. -/
def inRead (s : State) (k : Nat) : Option Byte := if k < s.inCap then some (inByte s k) else none

/-- `OutWrite(k, b)` (R14): defined below OUT_CAP. -/
def outWrite (s : State) (k : Nat) (b : Byte) : Option State :=
  if k < outCap s then some { s with outMem := memSet s.outMem k b } else none

/-- OutWrite of a list of bytes at rising indices from k. -/
def outWriteAll (s : State) (k : Nat) : List Byte → Option State
  | [] => some s
  | b :: bs =>
    match outWrite s k b with
    | none => none
    | some t => outWriteAll t (k + 1) bs

/-- The byte of OUT_MEM that lane k of an OUT window word reads (R83, R224): 0 at or above OUT_CAP. -/
def outLane (s : State) (k : Nat) : Byte := if k < outCap s then outByte s k else 0#8

/-- Store the four lanes of a data word at IN_MEM[k .. k+3] (R86, R228). -/
def storeInWord (s : State) (k : Nat) (d : Word32) : State :=
  { s with
    inMem := memSet (memSet (memSet (memSet s.inMem k (lane d 0)) (k + 1) (lane d 1)) (k + 2) (lane d 2))
      (k + 3) (lane d 3) }

/-- `LUT(c)` (R14): the ROM word of byte c. -/
def lutRead (s : State) (c : Byte) : BitVec 8 := s.lut.get c.toFin

/-! ### The answer of a transaction (R210) -/

/-- The transaction answers. -/
def answer (s : State) (r : Resp) (d : Word32) : State := { s with resp := some ⟨r, d⟩ }

/-- OKAY with read data. -/
def answerRead (s : State) (d : Word32) : Result := .next (answer s .okay d)

/-- OKAY of a write: its read data is 0. -/
def answerWrite (s : State) : Result := .next (answer s .okay 0#32)

/-- SLVERR (R236): no effect, read data 0. -/
def answerBad (s : State) : Result := .next (answer s .slverr 0#32)

/-! ### The ends of a run (R141, R142) -/

/-- `complete(p, l)` (R141). -/
def complete (s : State) (p : BitVec 2) (l : Index) : State :=
  { s with
    outLen := l.setWidth 32
    padCnt := p.setWidth 32
    done := true
    err := false
    errCode := .none
    errPos := 0#32
    phase := .idle }

/-- `raise DecodeError(code, pos)` (R142): the error entry (R253). -/
def raiseDecodeError (s : State) (code : ErrCode) (pos : Index) : State :=
  { s with
    done := true
    err := true
    errCode := code
    errPos := pos.setWidth 32
    outLen := 0#32
    padCnt := 0#32
    phase := .idle }

/-! ### The commands (R192 to R195), which are also the ways out of an error (R255) -/

/-- CLR (R194): clear the sticky status; OUT_LEN and PAD_CNT stay. -/
def clearStatus (s : State) : State :=
  { s with done := false, err := false, errCode := .none, errPos := 0#32, cmdErr := false, busyWr := false }

/-- START, accepted (R192): latch N and enter LEN. -/
def acceptStart (s : State) : State :=
  { s with
    n := s.inLen.setWidth 17
    done := false
    err := false
    errCode := .none
    errPos := 0#32
    outLen := 0#32
    padCnt := 0#32
    phase := .len }

/-- START (R192, R193): accepted when PHASE = IDLE and IN_LEN ≤ IN_CAP, otherwise refused by CMDERR. -/
def startRun (s : State) : State :=
  if s.phase = .idle ∧ s.inLen.toNat ≤ s.inCap then acceptStart s else { s with cmdErr := true }

/-- A write dropped because BUSY = 1 (R42, R227, R228). -/
def dropWrite (s : State) : State := { s with busyWr := true }

/-! ### Reset (R281, R282) -/

/-- A clock edge with `rst` = 1: every register takes its value of R63; IN_CAP, the ROM and the buffers
stay. No answer is kept (log entry 5); no engine step is owed, since one still owed to the cycle before is taken
before the edge (log entry 4). -/
def resetEdge (s : State) : State :=
  { State.reset with
    inCap := s.inCap
    lut := s.lut
    inMem := s.inMem
    outMem := s.outMem
    pending := s.pending }

end Sys2Proof.Machine
end

