-- ==== Sys2Proof/Machine/Commands.lean ====
section
/-!
DEFINITION. The commands (41_commands.md R190 to R196) and the transaction that carries them, WR_CTRL
(42_bus_access.md R225). A command is the whole WR_CTRL transaction with that command word: it takes
effect and answers OKAY, a refused START too (R190).
-/

namespace Sys2Proof.Machine

/-- NOP (R191): no state change. -/
def execNop (_reserved : BitVec 30) (s : State) : Result := answerWrite s

/-- START (R192, R193). -/
def execStart (_reserved : BitVec 30) (s : State) : Result := answerWrite (startRun s)

/-- CLR (R194). -/
def execClr (_reserved : BitVec 30) (s : State) : Result := answerWrite (clearStatus s)

/-- CLR_START (R195): CLR first, then START on the state after it. -/
def execClrStart (_reserved : BitVec 30) (s : State) : Result := answerWrite (startRun (clearStatus s))

/-- WR_CTRL (R190, R225): the command that WDATA[1:0] selects. -/
def execWrCtrl (wdata : Word32) (s : State) : Result :=
  match (wdata.extractLsb' 0 2).toNat with
  | 0 => execNop (ctrlReserved wdata) s
  | 1 => execStart (ctrlReserved wdata) s
  | 2 => execClr (ctrlReserved wdata) s
  | _ => execClrStart (ctrlReserved wdata) s

end Sys2Proof.Machine
end

