-- ==== Sys2Proof/Machine/Validate.lean ====
section
/-!
DEFINITION. The engine's steps from LEN to PREP (40_decode_engine.md R148 to R152) and IDLE (R157).
A condition `I = N - 1` is written `I + 1 = N`, and `I < N - 2` is written `I + 2 < N`: the same on
naturals wherever the spec's difference is defined (R149, R150), and no difference is taken.
-/

namespace Sys2Proof.Machine

/-- I is the last index of the input: `I = N - 1`. -/
def atLast (s : State) : Bool := s.i.toNat + 1 == s.n.toNat

/-- IDLE (R157): the engine has no step. -/
def execIdle (_cls : BitVec 2) (s : State) : Result := .next s

/-- LEN (R148). -/
def execLen (_cls : BitVec 2) (s : State) : Result :=
  if s.n.toNat = 0 then .next (complete s 0#2 0#17)
  else if s.n.toNat % 4 ≠ 0 then .next (raiseDecodeError s .invalidLength 0#17)
  else .next { s with i := 0#17, seenPad := false, phase := .val }

/-- A byte of the VAL pass is accepted (R149, R150): on to the next index, and to PREP after the last. -/
def acceptByte (s : State) : State :=
  { s with phase := if atLast s then .prep else s.phase, i := s.i + 1#17 }

/-- VAL_SYM (R149). -/
def execValSym (s : State) : Result :=
  match inRead s s.i.toNat with
  | none => .fault .inReadOutOfRange
  | some _ =>
    if s.seenPad then
      (if s.i.toNat = 0 then .fault .negativeDifference
       else .next (raiseDecodeError s .invalidPaddingPosition (s.i - 1#17)))
    else .next (acceptByte s)

/-- VAL_PAD (R150). -/
def execValPad (s : State) : Result :=
  match inRead s s.i.toNat with
  | none => .fault .inReadOutOfRange
  | some _ =>
    if s.i.toNat + 2 < s.n.toNat then .next (raiseDecodeError s .invalidPaddingPosition s.i)
    else .next (acceptByte { s with seenPad := true })

/-- VAL_INV (R151). -/
def execValInv (s : State) : Result :=
  match inRead s s.i.toNat with
  | none => .fault .inReadOutOfRange
  | some _ => .next (raiseDecodeError s .invalidCharacter s.i)

/-- `InRead(N - k)` for PREP: a fault when the difference is negative or the index is out of range. -/
def readFromEnd (s : State) (k : Nat) : Except Fault Byte :=
  if s.n.toNat < k then .error .negativeDifference
  else
    match inRead s (s.n.toNat - k) with
    | none => .error .inReadOutOfRange
    | some c => .ok c

/-- The paddingCount of PREP (R145, R152): the last byte, and the one before it when the last is `=`. -/
def countPad (s : State) : Except Fault Nat :=
  match readFromEnd s 1 with
  | .error f => .error f
  | .ok c1 =>
    if c1 = padByte then
      match readFromEnd s 2 with
      | .error f => .error f
      | .ok c2 => if c2 = padByte then .ok 2 else .ok 1
    else .ok 0

/-- PREP (R152): PAD, OUTL = `(N * 3) / 4 - PAD` (R146), and the decode pass's registers cleared. -/
def execPrep (_cls : BitVec 2) (s : State) : Result :=
  match countPad s with
  | .error f => .fault f
  | .ok p =>
    if s.n.toNat * 3 / 4 < p then .fault .negativeDifference
    else
      .next
        { s with
          pad := BitVec.ofNat 2 p
          outl := BitVec.ofNat 17 (s.n.toNat * 3 / 4 - p)
          acc := 0#24
          cnt := 0#2
          i := 0#17
          j := 0#17
          phase := .dec }

end Sys2Proof.Machine
end

