-- ==== Sys2Proof/Machine/DecodePass.lean ====
section
/-!
DEFINITION. The engine's decode pass (40_decode_engine.md R153 to R156) and the selectors that have no step
rule (R155, R158). The defensive bounds checks against OUTL are the spec's written skip (R153, R156, I1).
-/

namespace Sys2Proof.Machine

/-- The emission of a full group (R153): three bytes of `a` at J when `J + 3 ≤ OUTL`, otherwise none. -/
def emitGroup (s : State) (a : BitVec 24) : Option State :=
  if s.j.toNat + 3 ≤ s.outl.toNat then
    match outWriteAll s s.j.toNat [accHi a, accMid a, accLo a] with
    | none => none
    | some t => some { t with j := s.j + 3#17 }
  else some s

/-- DEC_SYM (R153). -/
def execDecSym (s : State) : Result :=
  match inRead s s.i.toNat with
  | none => .fault .inReadOutOfRange
  | some c =>
    let a := shiftIn s.acc (lutValue (lutRead s c))
    match (if s.cnt = 3#2 then emitGroup s a else some s) with
    | none => .fault .outWriteOutOfRange
    | some t =>
      .next
        { t with
          acc := a
          cnt := if s.cnt = 3#2 then 0#2 else s.cnt + 1#2
          phase := if atLast s then .tail else s.phase
          i := s.i + 1#17 }

/-- DEC_PAD (R154): stop at the first `=`. -/
def execDecPad (s : State) : Result := .next { s with phase := .tail }

/-- DEC_INV (R155, R248): unreachable, the fault EngineInvariant. -/
def execDecInv (_s : State) : Result := .fault .engineInvariant

/-- The emissions of TAIL (R156) from index k on, each checked against OUTL, and how many were written. -/
def emitTail (s : State) (k : Nat) : List Byte → Option (State × Nat)
  | [] => some (s, 0)
  | b :: bs =>
    if k < s.outl.toNat then
      match outWrite s k b with
      | none => none
      | some t =>
        match emitTail t (k + 1) bs with
        | none => none
        | some (u, m) => some (u, m + 1)
    else emitTail s (k + 1) bs

/-- TAIL (R156): the final partial group, then `complete(PAD, OUTL)`. -/
def execTail (_cls : BitVec 2) (s : State) : Result :=
  if 0 < s.pad.toNat then
    let a := tailAlign s.acc s.pad
    match emitTail s s.j.toNat (tailBytes a s.pad) with
    | none => .fault .outWriteOutOfRange
    | some (t, m) => .next (complete { t with acc := a, j := s.j + BitVec.ofNat 17 m } s.pad s.outl)
  else .next (complete s s.pad s.outl)

/-- UNREACHABLE_PHASE (R158, R248): PHASE 110 or 111. -/
def execUnreachablePhase (_low : BitVec 3) (_s : State) : Result := .fault .engineInvariant

/-- UNREACHABLE_VAL_CLASS3 (R158, R248): CLASS 11 in VAL. -/
def execUnreachableValClass3 (_s : State) : Result := .fault .engineInvariant

/-- UNREACHABLE_DEC_CLASS3 (R158, R248): CLASS 11 in DEC. -/
def execUnreachableDecClass3 (_s : State) : Result := .fault .engineInvariant

end Sys2Proof.Machine
end

