-- ==== Sys2Proof/Machine/RegReads.lean ====
section
/-!
DEFINITION. The register reads (42_bus_access.md R214 to R222): RDATA is the register's word, the
response is OKAY, nothing else changes.
-/

namespace Sys2Proof.Machine

/-- RD_ID (R214). -/
def execRdId (s : State) : Result := answerRead s Config.idValue

/-- RD_CAP (R215): IN_CAP zero-extended. -/
def execRdCap (s : State) : Result := answerRead s (BitVec.ofNat 32 s.inCap)

/-- RD_CTRL (R216): CTRL has no storage and reads 0. -/
def execRdCtrl (s : State) : Result := answerRead s 0#32

/-- RD_STATUS (R217). -/
def execRdStatus (s : State) : Result := answerRead s (statusWord s)

/-- RD_IRQ_EN (R218). -/
def execRdIrqEn (s : State) : Result := answerRead s (irqEnWord s)

/-- RD_IN_LEN (R219). -/
def execRdInLen (s : State) : Result := answerRead s s.inLen

/-- RD_OUT_LEN (R220). -/
def execRdOutLen (s : State) : Result := answerRead s s.outLen

/-- RD_PAD_CNT (R221). -/
def execRdPadCnt (s : State) : Result := answerRead s s.padCnt

/-- RD_ERR_POS (R222). -/
def execRdErrPos (s : State) : Result := answerRead s s.errPos

end Sys2Proof.Machine
end

