-- ==== Sys2Proof/Machine/RegWrites.lean ====
section
/-!
DEFINITION. The register writes other than WR_CTRL (42_bus_access.md R226, R227, R229 to R234).
-/

namespace Sys2Proof.Machine

/-- WR_IRQ_EN (R226): DONE_IE is WDATA[0], in a run too; WDATA[31:1] is ignored. -/
def execWrIrqEn (wdata : Word32) (s : State) : Result :=
  answerWrite { s with doneIe := wdata.getLsbD 0 }

/-- WR_IN_LEN (R227): dropped with BUSYWR while a run is in progress. -/
def execWrInLen (wdata : Word32) (s : State) : Result :=
  if s.busy then answerWrite (dropWrite s) else answerWrite { s with inLen := wdata }

/-- WR_ID (R229): ignored. -/
def execWrId (_wdata : Word32) (s : State) : Result := answerWrite s

/-- WR_CAP (R230): ignored. -/
def execWrCap (_wdata : Word32) (s : State) : Result := answerWrite s

/-- WR_STATUS (R231): ignored. -/
def execWrStatus (_wdata : Word32) (s : State) : Result := answerWrite s

/-- WR_OUT_LEN (R232): ignored. -/
def execWrOutLen (_wdata : Word32) (s : State) : Result := answerWrite s

/-- WR_PAD_CNT (R233): ignored. -/
def execWrPadCnt (_wdata : Word32) (s : State) : Result := answerWrite s

/-- WR_ERR_POS (R234): ignored. -/
def execWrErrPos (_wdata : Word32) (s : State) : Result := answerWrite s

end Sys2Proof.Machine
end

