-- ==== Sys2Proof/Machine/Windows.lean ====
section
/-!
DEFINITION. The window operations (42_bus_access.md R223, R224, R228, R235) and BAD (R236). A window word at or
beyond its buffer's capacity is BAD (R121), so an operation with such an operand answers as BAD.
-/

namespace Sys2Proof.Machine

/-- The four bytes of the IN window word at index k, little-endian (R86, R223). -/
def inWord (s : State) (k : Nat) : Word32 :=
  wordOfLanes (inByte s k) (inByte s (k + 1)) (inByte s (k + 2)) (inByte s (k + 3))

/-- The OUT window word at index k (R83, R224): 0 while a run is in progress, and 0 in the lanes at or
above OUT_CAP. -/
def outWord (s : State) (k : Nat) : Word32 :=
  if s.busy then 0#32
  else wordOfLanes (outLane s k) (outLane s (k + 1)) (outLane s (k + 2)) (outLane s (k + 3))

/-- RD_IN (R223). -/
def execRdIn (w : BitVec 14) (s : State) : Result :=
  if laneBase w < s.inCap then answerRead s (inWord s (laneBase w)) else answerBad s

/-- RD_OUT (R224). -/
def execRdOut (w : BitVec 14) (s : State) : Result :=
  if laneBase w < outCap s then answerRead s (outWord s (laneBase w)) else answerBad s

/-- WR_IN (R228): dropped with BUSYWR while a run is in progress. -/
def execWrIn (w : BitVec 14) (wdata : Word32) (s : State) : Result :=
  if laneBase w < s.inCap then
    (if s.busy then answerWrite (dropWrite s) else answerWrite (storeInWord s (laneBase w) wdata))
  else answerBad s

/-- WR_OUT (R235): ignored with OKAY, in a run too; the data word has no effect. -/
def execWrOut (w : BitVec 14) (_wdata : Word32) (s : State) : Result :=
  if laneBase w < outCap s then answerWrite s else answerBad s

/-- BAD (R236): SLVERR, read data 0, no effect. -/
def execBad (_td : TD) (s : State) : Result := answerBad s

end Sys2Proof.Machine
end

