-- ==== Sys2Proof/Machine/Dispatch.lean ====
section
/-!
DEFINITION. One arm per operation, each one direct call of its meaning.
-/

namespace Sys2Proof.Machine

open Sys2Proof

/-- What an operation does. -/
def exec (i : Instr) (s : State) : Host.Outcome State Fault Refusal :=
  match i with
  -- register reads
  | .rdId => Sys2Proof.Machine.execRdId s
  | .rdCap => Sys2Proof.Machine.execRdCap s
  | .rdCtrl => Sys2Proof.Machine.execRdCtrl s
  | .rdStatus => Sys2Proof.Machine.execRdStatus s
  | .rdIrqEn => Sys2Proof.Machine.execRdIrqEn s
  | .rdInLen => Sys2Proof.Machine.execRdInLen s
  | .rdOutLen => Sys2Proof.Machine.execRdOutLen s
  | .rdPadCnt => Sys2Proof.Machine.execRdPadCnt s
  | .rdErrPos => Sys2Proof.Machine.execRdErrPos s
  -- window reads
  | .rdIn w => Sys2Proof.Machine.execRdIn w s
  | .rdOut w => Sys2Proof.Machine.execRdOut w s
  -- register writes
  | .wrId wdata => Sys2Proof.Machine.execWrId wdata s
  | .wrCap wdata => Sys2Proof.Machine.execWrCap wdata s
  | .wrCtrl wdata => Sys2Proof.Machine.execWrCtrl wdata s
  | .wrStatus wdata => Sys2Proof.Machine.execWrStatus wdata s
  | .wrIrqEn wdata => Sys2Proof.Machine.execWrIrqEn wdata s
  | .wrInLen wdata => Sys2Proof.Machine.execWrInLen wdata s
  | .wrOutLen wdata => Sys2Proof.Machine.execWrOutLen wdata s
  | .wrPadCnt wdata => Sys2Proof.Machine.execWrPadCnt wdata s
  | .wrErrPos wdata => Sys2Proof.Machine.execWrErrPos wdata s
  -- window writes
  | .wrIn w wdata => Sys2Proof.Machine.execWrIn w wdata s
  | .wrOut w wdata => Sys2Proof.Machine.execWrOut w wdata s
  -- illegal transactions
  | .bad td => Sys2Proof.Machine.execBad td s
  -- commands
  | .nop reserved => Sys2Proof.Machine.execNop reserved s
  | .start reserved => Sys2Proof.Machine.execStart reserved s
  | .clr reserved => Sys2Proof.Machine.execClr reserved s
  | .clrStart reserved => Sys2Proof.Machine.execClrStart reserved s
  -- engine steps
  | .idle cls => Sys2Proof.Machine.execIdle cls s
  | .len cls => Sys2Proof.Machine.execLen cls s
  | .valSym => Sys2Proof.Machine.execValSym s
  | .valPad => Sys2Proof.Machine.execValPad s
  | .valInv => Sys2Proof.Machine.execValInv s
  | .prep cls => Sys2Proof.Machine.execPrep cls s
  | .decSym => Sys2Proof.Machine.execDecSym s
  | .decPad => Sys2Proof.Machine.execDecPad s
  | .decInv => Sys2Proof.Machine.execDecInv s
  | .tail cls => Sys2Proof.Machine.execTail cls s
  -- selectors without a step rule
  | .unreachablePhase low => Sys2Proof.Machine.execUnreachablePhase low s
  | .unreachableValClass3 => Sys2Proof.Machine.execUnreachableValClass3 s
  | .unreachableDecClass3 => Sys2Proof.Machine.execUnreachableDecClass3 s

end Sys2Proof.Machine
end

