-- ==== Sys2Proof/Machine/Fetch.lean ====
section
/-!
DEFINITION. Where the next operation comes from (40_decode_engine.md R140, 70_reset_and_hazards.md R294): the
cycle's transaction first, then the engine step of the same cycle when PHASE was not IDLE at its start.
Nothing is fetched from a memory (R89): a transaction comes from the host, an engine step from the selector.
-/

namespace Sys2Proof.Machine

/-- What the machine does next: run an operation from a state, take an edge that runs none (a reset, or a
cycle in which nothing happens), or stop because the selector itself is undefined. -/
inductive Fetched where
  | run (i : Instr) (s : State)
  | edge (s : State)
  | stop (f : Fault)
deriving DecidableEq, Repr

/-- CLASS of the engine's selector (R125): `LUT(InRead(I))[7:6]` in VAL and DEC. The other phases do not use
it; the model supplies 00 (log entry 9). -/
def selectorClass (s : State) : Option (BitVec 2) :=
  match s.phase with
  | .val | .dec =>
    match inRead s s.i.toNat with
    | none => none
    | some c => some (lutClassBits (lutRead s c))
  | .idle | .len | .prep | .tail | .unused110 | .unused111 => some 0#2

/-- SEL = {PHASE, CLASS} (R125). -/
def selector (s : State) : Option Sel :=
  match selectorClass s with
  | none => none
  | some c => some (phaseCode s.phase ++ c)

/-- The engine's turn (R140): the one step its selector picks. -/
def fetchEngine (s : State) : Fetched :=
  match selector s with
  | none => .stop .inReadOutOfRange
  | some sel => .run (decodeSel sel) s

/-- One clock cycle begins (R294). With a transaction: it is applied first, and the engine's step is owed
when PHASE ≠ IDLE now and the engine is not held back. Without one: the engine's turn. -/
def fetchCycle (bus : Option Txn) (held : Bool) (s : State) : Fetched :=
  match bus with
  | some t => .run (decodeTD s.inCap t.td t.wdata) { s with engineDue := s.busy && !held }
  | none => if held then .edge s else fetchEngine s

/-- The next atomic event (R95): the engine step that the current cycle still owes, or else the next cycle
input. With no input left the outside world is quiet, and the engine goes on (R140). -/
def fetch (s : State) : Fetched :=
  if s.engineDue then fetchEngine { s with engineDue := false }
  else
    match s.pending with
    | [] => fetchCycle none false s
    | .cycle bus held :: rest => fetchCycle bus held { s with pending := rest }
    | .rst :: rest => .edge (resetEdge { s with pending := rest })

/-! ### Placing an operation where it is fetched next -/

/-- Put a transaction before every other input, with no engine step owed. -/
def placeTxn (s : State) (td : TD) (wdata : Word32) : State :=
  { s with engineDue := false, pending := .cycle (some ⟨td, wdata⟩) false :: s.pending }

/-- An input byte of each class (R111): `A`, `=` and NUL; for the class no ROM word holds, NUL again. -/
def byteOfClass : SymClass → Byte
  | .sym => 0x41#8
  | .pad => padByte
  | .inv => 0x00#8
  | .never => 0x00#8

/-- Put a byte of the class where the engine reads its next one (index 0 when I is beyond IN_MEM). For the
class 11 the byte's LUT entry is replaced too, since no ROM word has that class (X2). -/
def placeClass (s : State) (c : SymClass) : State :=
  let k : Index := if s.i.toNat < s.inCap then s.i else 0#17
  { s with
    i := k
    inMem := memSet s.inMem k.toNat (byteOfClass c)
    lut := if c = .never then s.lut.set 0 0xC0#8 else s.lut }

/-- Give PREP an input to prepare where N holds none: the four bytes `AAAA`. PREP takes `N - 1`, so it needs
one (R152). -/
def placeInput (s : State) : State :=
  if 4 ≤ s.n.toNat ∧ s.n.toNat ≤ s.inCap then s
  else { storeInWord s 0 0x41414141#32 with n := 4#17 }

/-- Make the engine's next selector this one, with its step owed now. -/
def placeSel (s : State) (sel : Sel) : State :=
  let p := phaseOfCode (selPhase sel)
  let t := { s with engineDue := true, phase := p }
  match p with
  | .val | .dec => placeClass t (classOfCode (selClass sel))
  | .prep => placeInput t
  | .idle | .len | .tail | .unused110 | .unused111 => t

/-- Place the opcode table's word: a descriptor as a transaction with write data 0, a command word as the
write data of WR_CTRL (its carrier, R190), a selector in the engine's registers. -/
def placeWord (s : State) (nbits w : Nat) : State :=
  match tableFormat nbits w with
  | .td => placeTxn s (BitVec.ofNat 21 w) 0#32
  | .ctrl => placeTxn s 0x180008#21 (BitVec.ofNat 32 w)
  | .sel => placeSel s (BitVec.ofNat 5 w)

end Sys2Proof.Machine
end

