-- ==== Sys2Proof/Machine/Step.lean ====
section
/-!
DEFINITION. One step of the machine: one atomic event (20_memory.md R91, R95).
-/

namespace Sys2Proof.Machine

/-- One step: run the fetched operation, take the edge, or stop. -/
def step (s : State) : Host.Outcome State Fault Refusal :=
  match fetch s with
  | .run i t => exec i t
  | .edge t => .next t
  | .stop f => .fault f

/-- The state with the opcode table's word placed where step takes its next operation. -/
def State.withFetchWord (s : State) (nbits w : Nat) : State := placeWord s nbits w

end Sys2Proof.Machine
end

