-- ==== Sys2Proof/Machine/HostLines.lean ====
section
/-!
DEFINITION. The lines of host programs and their transactions (30_encoding.md R132, R133). WAIT is a loop of
the host, not a block operation (R133), and has no definition.
-/

namespace Sys2Proof.Machine

/-- `RD off` (R132). -/
def lineRd (off : BitVec 18) : Txn := ⟨wordTD false off, 0#32⟩

/-- `WR off, data` (R132). -/
def lineWr (off : BitVec 18) (data : Word32) : Txn := ⟨wordTD true off, data⟩

/-- `RDB off` and `WRB off, data` (R132): size code 00. -/
def lineByte (write : Bool) (off : BitVec 18) (data : Word32) : Txn :=
  ⟨BitVec.ofBool write ++ 0b00#2 ++ off, data⟩

/-- `RDH off` and `WRH off, data` (R132): size code 01. -/
def lineHalf (write : Bool) (off : BitVec 18) (data : Word32) : Txn :=
  ⟨BitVec.ofBool write ++ 0b01#2 ++ off, data⟩

/-- `START` (R133). -/
def lineStart : Txn := lineWr 0x08#18 0x1#32

/-- `CLR` (R133). -/
def lineClr : Txn := lineWr 0x08#18 0x2#32

/-- `CLRSTART` (R133). -/
def lineClrStart : Txn := lineWr 0x08#18 0x3#32

/-- `SETLEN n` (R133). -/
def lineSetLen (n : Word32) : Txn := lineWr 0x14#18 n

/-- `IRQON` (R133). -/
def lineIrqOn : Txn := lineWr 0x10#18 0x1#32

/-- `LOADIN s` from word k on (R133): one IN window write per four bytes, the last chunk filled with zeros.
DESIGN CHOICE (log entry 16): R133 does not say what the line of an offset `0x10000 + 4k` that no longer fits the 18-bit
OFF is (k ≥ 0xC000, a string longer than 0x30000 bytes); here the offset wraps modulo 2^18. -/
def loadInFrom (k : Nat) : List Byte → List Txn
  | [] => []
  | [b0] => [lineWr (BitVec.ofNat 18 (0x10000 + 4 * k)) (wordOfLanes b0 0#8 0#8 0#8)]
  | [b0, b1] => [lineWr (BitVec.ofNat 18 (0x10000 + 4 * k)) (wordOfLanes b0 b1 0#8 0#8)]
  | [b0, b1, b2] => [lineWr (BitVec.ofNat 18 (0x10000 + 4 * k)) (wordOfLanes b0 b1 b2 0#8)]
  | b0 :: b1 :: b2 :: b3 :: bs =>
    lineWr (BitVec.ofNat 18 (0x10000 + 4 * k)) (wordOfLanes b0 b1 b2 b3) :: loadInFrom (k + 1) bs

/-- `LOADIN s` (R133; log entry 16 for a string longer than 0x30000 bytes). -/
def loadIn (s : List Byte) : List Txn := loadInFrom 0 s

/-- One transaction per clock cycle at the reference timing, the form in which the spec's programs run. -/
def perCycle (ts : List Txn) : List CycleInput := ts.map fun t => .cycle (some t) false

end Sys2Proof.Machine
end

