-- ==== Sys2Proof/Machine/Reference.lean ====
section
/-!
DEFINITION. The reference function DECODE_REF, the normative meaning of a run (40_decode_engine.md R143),
with its parts: the scan (R143, R249), paddingCount (R145), outputLength (R146), REPACK (R147), the closed form
of validity (R144) and the reference step count (R168). No engine state enters here.
-/

namespace Sys2Proof.Machine

/-- The alphabet in the source's order (R111): a symbol's position is its value. -/
def alphabet : List Byte :=
  (['A', 'B', 'C', 'D', 'E', 'F', 'G', 'H', 'I', 'J', 'K', 'L', 'M', 'N', 'O', 'P']
    ++ ['Q', 'R', 'S', 'T', 'U', 'V', 'W', 'X', 'Y', 'Z', 'a', 'b', 'c', 'd', 'e', 'f']
    ++ ['g', 'h', 'i', 'j', 'k', 'l', 'm', 'n', 'o', 'p', 'q', 'r', 's', 't', 'u', 'v']
    ++ ['w', 'x', 'y', 'z', '0', '1', '2', '3', '4', '5', '6', '7', '8', '9', '+', '/']).map fun ch =>
    BitVec.ofNat 8 ch.toNat

/-- The result of a run (R143, C2): the decoded bytes with their paddingCount, or the error kind with the
position it is reported at. -/
inductive RefResult where
  | ok (bytes : List Byte) (pad : Nat)
  | err (code : ErrCode) (pos : Nat)
deriving DecidableEq, Repr

/-- The scan of R143 over the bytes from index i on: the first failure in ascending order, if any. -/
def refScan (n : Nat) : Nat → Bool → List Byte → Option (ErrCode × Nat)
  | _, _, [] => none
  | i, seen, c :: cs =>
    match classOf c with
    | .pad => if i + 2 < n then some (.invalidPaddingPosition, i) else refScan n (i + 1) true cs
    | .inv => some (.invalidCharacter, i)
    | .sym | .never => if seen then some (.invalidPaddingPosition, i - 1) else refScan n (i + 1) seen cs

/-- paddingCount (R145): 2 when both of the last two bytes are `=`, 1 when only the last is, else 0. -/
def refPad (s : List Byte) : Nat :=
  match s.reverse with
  | c1 :: c2 :: _ => if c1 = padByte then (if c2 = padByte then 2 else 1) else 0
  | _ => 0

/-- outputLength (R146): `(inputLength * 3) / 4 - paddingCount`. -/
def refOutLen (n pad : Nat) : Nat := n * 3 / 4 - pad

/-- First byte of a group (R147): `(v0 << 2) | (v1 >> 4)`. -/
def repackHi (v0 v1 : BitVec 6) : Byte := v0 ++ v1.extractLsb' 4 2

/-- Second byte of a group (R147): `((v1 mod 16) << 4) | (v2 >> 2)`. -/
def repackMid (v1 v2 : BitVec 6) : Byte := v1.extractLsb' 0 4 ++ v2.extractLsb' 2 4

/-- Third byte of a group (R147): `((v2 mod 4) << 6) | v3`. -/
def repackLo (v2 v3 : BitVec 6) : Byte := v2.extractLsb' 0 2 ++ v3

/-- REPACK (R147): three bytes for every full group, and for a last group of three or two symbols (one or two
`=` stand in for the rest) two bytes or one. -/
def repack : List (BitVec 6) → List Byte
  | v0 :: v1 :: v2 :: v3 :: vs => repackHi v0 v1 :: repackMid v1 v2 :: repackLo v2 v3 :: repack vs
  | [v0, v1, v2] => [repackHi v0 v1, repackMid v1 v2]
  | [v0, v1] => [repackHi v0 v1]
  | [_] => []
  | [] => []

/-- DECODE_REF (R143). -/
def decodeRef (s : List Byte) : RefResult :=
  if s.length = 0 then .ok [] 0
  else if s.length % 4 ≠ 0 then .err .invalidLength 0
  else
    match refScan s.length 0 false s with
    | some (code, pos) => .err code pos
    | none => .ok (repack ((s.take (s.length - refPad s)).map valueOf)) (refPad s)

/-- The closed form of validity (R144): empty, or a multiple of 4 long with all bytes symbols but for a
suffix of at most two `=`. -/
def refValid (s : List Byte) : Prop :=
  s.length = 0 ∨
    (s.length % 4 = 0 ∧
      ∃ pad ≤ 2, ∀ i < s.length,
        (i < s.length - pad → classOf (s.getD i 0#8) = .sym) ∧
        (s.length - pad ≤ i → classOf (s.getD i 0#8) = .pad))

/-- The index at which the VAL pass detects the first failure of the scan, in the terms of R168. -/
def refDetect (n : Nat) : Nat → Bool → List Byte → Option Nat
  | _, _, [] => none
  | i, seen, c :: cs =>
    match classOf c with
    | .pad => if i + 2 < n then some i else refDetect n (i + 1) true cs
    | .inv => some i
    | .sym | .never => if seen then some i else refDetect n (i + 1) seen cs

/-- The number of engine steps of a run over s (R168): 1 for an empty input and for InvalidLength, p + 2 for an
error detected at index p, `3 + N + (N - pad)` and one more when there is padding for a success. -/
def refSteps (s : List Byte) : Nat :=
  if s.length = 0 then 1
  else if s.length % 4 ≠ 0 then 1
  else
    match refDetect s.length 0 false s with
    | some p => p + 2
    | none =>
      3 + s.length + (s.length - refPad s) + (if 0 < refPad s then 1 else 0)

/-- The input of a run (R143): `IN_MEM[0 .. N-1]`. -/
def runInput (s : State) : List Byte := (List.range s.n.toNat).map (inByte s)

end Sys2Proof.Machine
end

