-- ==== Sys2Proof/Safety.lean ====
section
/-!
DEFINITION. What counts as a safe state: the invariant of the block, in four named parts. Every part is stated
of a single state, so that it can be assumed of any state, not only of those a run from reset reaches.
-/

namespace Sys2Proof.Machine

/-- The constants hold what the spec fixes: a legal IN_CAP (R9) and the ROM's contents (R50, R111, R112). -/
structure ConstOk (s : State) : Prop where
  cap : Config.legalCap s.inCap = true
  lut : s.lut = lutRom

/-- Both buffers are in canonical form, inside their capacities (R51, R52). -/
structure BuffersOk (s : State) : Prop where
  inMem : Memory.wf s.inCap s.inMem = true
  outMem : Memory.wf (outCap s) s.outMem = true

/-- The invariants of the host-visible registers (R48), and the reserved bits of PAD_CNT and ERR_POS (R46,
R47). -/
structure RegsOk (s : State) : Prop where
  busyClear : s.phase ≠ .idle →
    s.done = false ∧ s.err = false ∧ s.errCode = .none ∧ s.errPos = 0#32 ∧ s.outLen = 0#32 ∧ s.padCnt = 0#32
  errCode : s.err = true ↔ s.errCode ≠ .none
  errDone : s.err = true → s.done = true
  errNoOutput : s.err = true → s.outLen = 0#32 ∧ s.padCnt = 0#32
  posCode : s.errPos ≠ 0#32 → s.errCode = .invalidPaddingPosition ∨ s.errCode = .invalidCharacter
  outLen : s.outLen.toNat ≤ outCap s
  groups : (s.outLen.toNat + s.padCnt.toNat) % 3 = 0
  padCnt : s.padCnt.toNat ≤ 2
  errPos : s.errPos.toNat < 65536

/-- The class of input byte k. -/
def inClass (s : State) (k : Nat) : SymClass := classOf (inByte s k)

/-- The first m input bytes have passed the VAL pass (R149, R150): a symbol has only symbols before it, and a
`=` stands in one of the last two positions. -/
def Scanned (s : State) (m : Nat) : Prop :=
  ∀ k < m, (inClass s k = .sym ∧ ∀ l < k, inClass s l = .sym) ∨ (inClass s k = .pad ∧ s.n.toNat ≤ k + 2)

/-- The whole input is valid (R144) and PAD and OUTL are its paddingCount and outputLength (R145, R146). -/
structure Prepared (s : State) : Prop where
  four : 4 ≤ s.n.toNat
  mod4 : s.n.toNat % 4 = 0
  pad : s.pad.toNat ≤ 2
  suffix : ∀ k < s.n.toNat,
    (k < s.n.toNat - s.pad.toNat → inClass s k = .sym) ∧ (s.n.toNat - s.pad.toNat ≤ k → inClass s k = .pad)
  outl : s.outl.toNat = s.n.toNat * 3 / 4 - s.pad.toNat

/-- The decode pass stands after the symbols below I (R153, R161): CNT and J count them. -/
structure Decoding (s : State) : Prop where
  prepared : Prepared s
  i : s.i.toNat ≤ s.n.toNat - s.pad.toNat
  cnt : s.cnt.toNat = s.i.toNat % 4
  j : s.j.toNat = 3 * (s.i.toNat / 4)

/-- The engine's registers, phase by phase (R53 to R62, R140, R149 to R162). Outside the decode pass J and OUTL are
equal, both 0 after reset or both as the last decode pass left them (R161); between runs the other registers are free
(R62). -/
structure EngineOk (s : State) : Prop where
  legal : s.phase ≠ .unused110 ∧ s.phase ≠ .unused111
  due : s.engineDue = true → s.phase ≠ .idle
  settled : s.phase ≠ .dec → s.phase ≠ .tail → s.j = s.outl
  latched : s.phase ≠ .idle → s.n.toNat = s.inLen.toNat ∧ s.n.toNat ≤ s.inCap
  val : s.phase = .val →
    4 ≤ s.n.toNat ∧ s.n.toNat % 4 = 0 ∧ s.i.toNat < s.n.toNat ∧ Scanned s s.i.toNat ∧
      (s.seenPad = true ↔ ∃ k < s.i.toNat, inClass s k = .pad)
  prep : s.phase = .prep → 4 ≤ s.n.toNat ∧ s.n.toNat % 4 = 0 ∧ Scanned s s.n.toNat
  dec : s.phase = .dec → Decoding s ∧ s.i.toNat < s.n.toNat
  tail : s.phase = .tail → Decoding s ∧ s.i.toNat = s.n.toNat - s.pad.toNat

/-- The invariant of the block. -/
structure State.Inv (s : State) : Prop where
  const : ConstOk s
  buffers : BuffersOk s
  regs : RegsOk s
  engine : EngineOk s

/-- A step does not stop: it answers a next state. -/
def State.Goes (s : State) : Prop := ∃ t, step s = .next t

/-- A machine right after power-on (R63): any legal IN_CAP, and any behaviour of the outside world to come. -/
def powerOn (cap : Nat) (inputs : List CycleInput) : State :=
  { State.reset with inCap := cap, pending := inputs }

/-- What the host can observe of the last run (R62, R96): the result registers, the status of the run and the
OUT window. -/
structure SameResult (s t : State) : Prop where
  done : t.done = s.done
  err : t.err = s.err
  errCode : t.errCode = s.errCode
  errPos : t.errPos = s.errPos
  outLen : t.outLen = s.outLen
  padCnt : t.padCnt = s.padCnt
  outMem : ∀ k, outByte t k = outByte s k

/-- Two states agree on everything a run depends on or writes but the host-visible flags: the constants, the
buffers, IN_LEN and the engine's registers. -/
structure SameRun (s t : State) : Prop where
  inCap : t.inCap = s.inCap
  lut : t.lut = s.lut
  inMem : t.inMem = s.inMem
  outMem : t.outMem = s.outMem
  inLen : t.inLen = s.inLen
  phase : t.phase = s.phase
  n : t.n = s.n
  i : t.i = s.i
  seenPad : t.seenPad = s.seenPad
  pad : t.pad = s.pad
  outl : t.outl = s.outl
  acc : t.acc = s.acc
  cnt : t.cnt = s.cnt
  j : t.j = s.j

end Sys2Proof.Machine
end

