-- ==== Sys2Proof/Certificates/Slice0/Obligations.lean ====
section
/-!
DEFINITION. The statements for the provers, from the numbered rules of spec/, file by file. Each docstring names
the rule it formalises. An equation `exec i s = .next { s with … }` says three things at once: that the
operation completes, what it writes, and that everything else (every other register, both buffers, the cycle
inputs) is as before.
-/

open Sys2Proof Sys2Proof.Machine

/-! ### Encodings (30_encoding.md, 42_bus_access.md section 1) -/

/-- Decoding the bytes of any well-formed operation, whatever follows them, gives the operation with every
operand and leaves the rest (R118 to R122, R125). -/
def Obligations.DecodeReadsEveryEncodedInstruction : Prop :=
  ∀ (cap : Nat) (i : Instr) (rest : List Byte), i.wf cap = true →
    decode cap i.format (encodeBytes i ++ rest) = .ok (i, rest)

/-- Every descriptor has exactly one operation, a well-formed one whose code is that descriptor (R213). -/
def Obligations.EveryDescriptorIsTheCodeOfItsOperation : Prop :=
  ∀ (cap : Nat) (td : TD) (wdata : Word32),
    (decodeTD cap td wdata).wf cap = true ∧ (decodeTD cap td wdata).format = .td ∧
      ∃ d, encode (decodeTD cap td wdata) = .td td d

/-- R128: the illegal descriptors are exactly those that select BAD, whichever condition makes them illegal, and
BAD answers SLVERR with read data 0 and no effect. -/
def Obligations.IllegalDescriptorsSelectBad : Prop :=
  (∀ (cap : Nat) (td : TD) (wdata : Word32),
    (decodeTD cap td wdata = .bad td ↔
      td.extractLsb' 18 2 ≠ 0b10#2 ∨
      td.extractLsb' 0 2 ≠ 0b00#2 ∨
      (0x24 ≤ (td.extractLsb' 0 18).toNat ∧ (td.extractLsb' 0 18).toNat ≤ 0x0FFFF) ∨
      (td.extractLsb' 16 2 = 0b01#2 ∧ cap ≤ (td.extractLsb' 0 18).toNat - 0x10000) ∨
      (td.extractLsb' 16 2 = 0b10#2 ∧ cap * 3 / 4 ≤ (td.extractLsb' 0 18).toNat - 0x20000) ∨
      td.extractLsb' 16 2 = 0b11#2)) ∧
  ∀ (td : TD) (s : State), exec (.bad td) s = .next { s with resp := some ⟨.slverr, 0#32⟩ }

/-- R120: the eighteen register operations at their offsets. -/
def Obligations.RegisterOffsetsSelectTheirOperation : Prop :=
  ∀ (cap : Nat) (d : Word32),
    decodeTD cap (0b0#1 ++ 0b10#2 ++ 0x00000#18) d = .rdId ∧
    decodeTD cap (0b0#1 ++ 0b10#2 ++ 0x00004#18) d = .rdCap ∧
    decodeTD cap (0b0#1 ++ 0b10#2 ++ 0x00008#18) d = .rdCtrl ∧
    decodeTD cap (0b0#1 ++ 0b10#2 ++ 0x0000C#18) d = .rdStatus ∧
    decodeTD cap (0b0#1 ++ 0b10#2 ++ 0x00010#18) d = .rdIrqEn ∧
    decodeTD cap (0b0#1 ++ 0b10#2 ++ 0x00014#18) d = .rdInLen ∧
    decodeTD cap (0b0#1 ++ 0b10#2 ++ 0x00018#18) d = .rdOutLen ∧
    decodeTD cap (0b0#1 ++ 0b10#2 ++ 0x0001C#18) d = .rdPadCnt ∧
    decodeTD cap (0b0#1 ++ 0b10#2 ++ 0x00020#18) d = .rdErrPos ∧
    decodeTD cap (0b1#1 ++ 0b10#2 ++ 0x00000#18) d = .wrId d ∧
    decodeTD cap (0b1#1 ++ 0b10#2 ++ 0x00004#18) d = .wrCap d ∧
    decodeTD cap (0b1#1 ++ 0b10#2 ++ 0x00008#18) d = .wrCtrl d ∧
    decodeTD cap (0b1#1 ++ 0b10#2 ++ 0x0000C#18) d = .wrStatus d ∧
    decodeTD cap (0b1#1 ++ 0b10#2 ++ 0x00010#18) d = .wrIrqEn d ∧
    decodeTD cap (0b1#1 ++ 0b10#2 ++ 0x00014#18) d = .wrInLen d ∧
    decodeTD cap (0b1#1 ++ 0b10#2 ++ 0x00018#18) d = .wrOutLen d ∧
    decodeTD cap (0b1#1 ++ 0b10#2 ++ 0x0001C#18) d = .wrPadCnt d ∧
    decodeTD cap (0b1#1 ++ 0b10#2 ++ 0x00020#18) d = .wrErrPos d

/-- R121: the window operations, and BAD beyond the capacity. -/
def Obligations.WindowOffsetsSelectTheirOperation : Prop :=
  ∀ (cap : Nat) (w : BitVec 14) (d : Word32),
    decodeTD cap (0b0#1 ++ 0b10#2 ++ 0b01#2 ++ w ++ 0b00#2) d =
      (if 4 * w.toNat < cap then .rdIn w else .bad (0b0#1 ++ 0b10#2 ++ 0b01#2 ++ w ++ 0b00#2)) ∧
    decodeTD cap (0b1#1 ++ 0b10#2 ++ 0b01#2 ++ w ++ 0b00#2) d =
      (if 4 * w.toNat < cap then .wrIn w d else .bad (0b1#1 ++ 0b10#2 ++ 0b01#2 ++ w ++ 0b00#2)) ∧
    decodeTD cap (0b0#1 ++ 0b10#2 ++ 0b10#2 ++ w ++ 0b00#2) d =
      (if 4 * w.toNat < cap * 3 / 4 then .rdOut w else .bad (0b0#1 ++ 0b10#2 ++ 0b10#2 ++ w ++ 0b00#2)) ∧
    decodeTD cap (0b1#1 ++ 0b10#2 ++ 0b10#2 ++ w ++ 0b00#2) d =
      (if 4 * w.toNat < cap * 3 / 4 then .wrOut w d else .bad (0b1#1 ++ 0b10#2 ++ 0b10#2 ++ w ++ 0b00#2))

/-- R125: the step that each selector picks, the unreachable selectors of R129 with it; the engine's selector has
PHASE's code in its upper bits, and in VAL and DEC its CLASS is that of `LUT(InRead(I))`. -/
def Obligations.SelectorsPickTheirStep : Prop :=
  (∀ c : BitVec 2,
    decodeSel (0b000#3 ++ c) = .idle c ∧ decodeSel (0b001#3 ++ c) = .len c ∧
    decodeSel (0b011#3 ++ c) = .prep c ∧ decodeSel (0b101#3 ++ c) = .tail c ∧
    decodeSel (0b110#3 ++ c) = .unreachablePhase (0b0#1 ++ c) ∧
    decodeSel (0b111#3 ++ c) = .unreachablePhase (0b1#1 ++ c)) ∧
  decodeSel 0b01000#5 = .valSym ∧ decodeSel 0b01001#5 = .valPad ∧ decodeSel 0b01010#5 = .valInv ∧
  decodeSel 0b01011#5 = .unreachableValClass3 ∧
  decodeSel 0b10000#5 = .decSym ∧ decodeSel 0b10001#5 = .decPad ∧ decodeSel 0b10010#5 = .decInv ∧
  decodeSel 0b10011#5 = .unreachableDecClass3 ∧
  (∀ s : State,
    (s.phase = .idle → ∃ c : BitVec 2, selector s = some (0b000#3 ++ c)) ∧
    (s.phase = .len → ∃ c : BitVec 2, selector s = some (0b001#3 ++ c)) ∧
    (s.phase = .prep → ∃ c : BitVec 2, selector s = some (0b011#3 ++ c)) ∧
    (s.phase = .tail → ∃ c : BitVec 2, selector s = some (0b101#3 ++ c))) ∧
  ∀ s : State, s.i.toNat < s.inCap →
    (s.phase = .val →
      selector s = some (0b010#3 ++ (s.lut.get (inByte s s.i.toNat).toFin).extractLsb' 6 2)) ∧
    (s.phase = .dec →
      selector s = some (0b100#3 ++ (s.lut.get (inByte s s.i.toNat).toFin).extractLsb' 6 2))

/-- Words written out from the spec's encodings: 42_bus_access.md R223, R228 and R236 (their examples), R132's
`WR 0x08, 0x1`, and the CTRL and SEL tables of R122 and R125. -/
def Obligations.SampleWordsDecode : Prop :=
  decodeTD 4096 0x190000#21 0x3D3D5154#32 = .wrIn 0#14 0x3D3D5154#32 ∧
  decodeTD 4096 0x090FFC#21 0#32 = .rdIn 0x3FF#14 ∧
  decodeTD 4096 0x091000#21 0#32 = .bad 0x091000#21 ∧
  decodeTD 4096 0x0A0BFC#21 0#32 = .rdOut 0x2FF#14 ∧
  decodeTD 4096 0x0A0C00#21 0#32 = .bad 0x0A0C00#21 ∧
  decodeTD 4096 0x180008#21 1#32 = .wrCtrl 1#32 ∧
  decodeTD 4096 0x100008#21 1#32 = .bad 0x100008#21 ∧
  decodeTD 4096 0x08000E#21 0#32 = .bad 0x08000E#21 ∧
  decodeCtrl 0xFFFFFFFC#32 = .nop 0x3FFFFFFF#30 ∧
  decodeCtrl 0x00000003#32 = .clrStart 0#30 ∧
  decodeSel 0b10000#5 = .decSym ∧
  decodeSel 0b10100#5 = .tail 0#2

/-- R111, R112 and R114: the ROM gives the k-th symbol of the alphabet the class SYM and the value k, gives 0x40 to
`=` alone, gives 0x80 to every other byte; so every byte has one class and no two symbols share a value. That a symbol's
byte is its ASCII code is PRESUMED (log entry 12): R111 marks the codes as from general knowledge, not in source. -/
def Obligations.LutHoldsTheAlphabet : Prop :=
  alphabet.length = 64 ∧
  (∀ k : Nat, ∀ h : k < alphabet.length, lutRom.get alphabet[k].toFin = BitVec.ofNat 8 k) ∧
  (∀ c : Byte, lutRom.get c.toFin = 0x40#8 ↔ c = 0x3D#8) ∧
  (∀ c : Byte, c ∉ alphabet → c ≠ 0x3D#8 → lutRom.get c.toFin = 0x80#8) ∧
  (∀ c d : Byte, classOf c = .sym → classOf d = .sym → valueOf c = valueOf d → c = d)

/-- R115, R116 and R117: a symbol is shifted into ACC modulo 2^24, four assembled symbols fill ACC whatever it held
before, the three bytes of a group are cut from it as R116 lays them out, and the tail alignment of three or two
symbols and the bytes then emitted are R117's. -/
def Obligations.AccumulatorLayout : Prop :=
  ∀ (acc : BitVec 24) (v0 v1 v2 v3 : BitVec 6),
    let g := shiftIn (shiftIn (shiftIn (shiftIn acc v0) v1) v2) v3
    (shiftIn acc v0).toNat = (acc.toNat * 64 + v0.toNat) % 2 ^ 24 ∧
    g = v0 ++ v1 ++ v2 ++ v3 ∧
    accHi g = v0 ++ v1.extractLsb' 4 2 ∧
    accMid g = v1.extractLsb' 0 4 ++ v2.extractLsb' 2 4 ∧
    accLo g = v2.extractLsb' 0 2 ++ v3 ∧
    tailAlign (shiftIn (shiftIn (shiftIn acc v0) v1) v2) 1#2 = v0 ++ v1 ++ v2 ++ 0#6 ∧
    tailAlign (shiftIn (shiftIn acc v0) v1) 2#2 = v0 ++ v1 ++ 0#6 ++ 0#6 ∧
    tailBytes (v0 ++ v1 ++ v2 ++ 0#6) 1#2 = [v0 ++ v1.extractLsb' 4 2, v1.extractLsb' 0 4 ++ v2.extractLsb' 2 4] ∧
    tailBytes (v0 ++ v1 ++ 0#6 ++ 0#6) 2#2 = [v0 ++ v1.extractLsb' 4 2]

/-! ### The step (20_memory.md R95, 40_decode_engine.md R140, 70_reset_and_hazards.md R280 to R294) -/

/-- A step runs the decoded transaction: when no engine step is owed and the next cycle carries a transaction,
the step is exec of its operation, with the cycle used up, and with the engine's step owed exactly when PHASE ≠ IDLE
at the start of the cycle and the engine is not held back (R294; the hold is the model's, log entry 4). -/
def Obligations.StepRunsTheTransaction : Prop :=
  ∀ (s : State) (td : TD) (wdata : Word32) (held : Bool) (rest : List CycleInput),
    s.engineDue = false → s.pending = .cycle (some ⟨td, wdata⟩) held :: rest →
    step s = exec (decodeTD s.inCap td wdata)
      { s with pending := rest, engineDue := decide (s.phase ≠ .idle) && !held }

/-- A step runs the selected engine step: when one is owed, and in a cycle without a transaction; a cycle that
holds the engine back changes nothing else (R140, R294; the hold is the model's, log entry 4). -/
def Obligations.StepRunsTheEngine : Prop :=
  ∀ (s : State) (sel : Sel) (rest : List CycleInput), selector s = some sel →
    (s.engineDue = true → step s = exec (decodeSel sel) { s with engineDue := false }) ∧
    (s.engineDue = false → s.pending = [] → step s = exec (decodeSel sel) s) ∧
    (s.engineDue = false → s.pending = .cycle none false :: rest →
      step s = exec (decodeSel sel) { s with pending := rest }) ∧
    (s.engineDue = false → s.pending = .cycle none true :: rest → step s = .next { s with pending := rest })

/-- R281: a clock edge with rst = 1 gives every register its value of R63 and keeps the constants and both
buffers; after power-on every buffer byte is its draw (log entry 2). A run in progress is abandoned (R282). An engine step
still owed to the cycle before is taken first, so `engineDue` is false here. That the edge leaves no answer,
`resp := none`, is the model's choice (log entry 5). -/
def Obligations.ResetEdgeRestoresTheRegisters : Prop :=
  (∀ (s : State) (rest : List CycleInput), s.engineDue = false → s.pending = .rst :: rest →
    step s = .next
      { done := false, err := false, errCode := .none, cmdErr := false, busyWr := false, doneIe := false
        inLen := 0#32, outLen := 0#32, padCnt := 0#32, errPos := 0#32
        inCap := s.inCap, lut := s.lut, inMem := s.inMem, outMem := s.outMem
        phase := .idle, n := 0#17, i := 0#17, seenPad := false, pad := 0#2, outl := 0#17, acc := 0#24
        cnt := 0#2, j := 0#17, pending := rest, engineDue := false, resp := none }) ∧
  ∀ k : Nat, inByte State.reset k = Config.inDraw k ∧ outByte State.reset k = Config.outDraw k

/-- R63: what the machine holds right after reset. IN_CAP = 4096 is the model's choice (log entry 1), and
the three fields of the boundary are the model's own (log entries 3, 4 and 5). -/
def Obligations.ResetState : Prop :=
  let s := State.reset
  s.done = false ∧ s.err = false ∧ s.errCode = .none ∧ s.cmdErr = false ∧ s.busyWr = false ∧ s.busy = false ∧
  s.doneIe = false ∧ s.inLen = 0#32 ∧ s.outLen = 0#32 ∧ s.padCnt = 0#32 ∧ s.errPos = 0#32 ∧ s.irq = false ∧
  s.phase = .idle ∧ s.n = 0#17 ∧ s.i = 0#17 ∧ s.seenPad = false ∧ s.pad = 0#2 ∧ s.outl = 0#17 ∧ s.acc = 0#24 ∧
  s.cnt = 0#2 ∧ s.j = 0#17 ∧ s.lut = lutRom ∧ s.inCap = 4096

/-- R294: the transaction of a cycle leaves the engine step of the same cycle owed exactly when PHASE ≠ IDLE at
the cycle's start. So a START accepted in a cycle has its LEN step in the next one, and a transaction never sees an
engine step of its own cycle. -/
def Obligations.TransactionComesBeforeTheEngineStep : Prop :=
  ∀ (s t : State) (txn : Txn) (rest : List CycleInput),
    s.engineDue = false → s.pending = .cycle (some txn) false :: rest → step s = .next t →
    t.pending = rest ∧ (t.engineDue = true ↔ s.phase ≠ .idle) ∧
      (s.phase = .idle → t.phase = .idle ∨ t.phase = .len)

/-! ### Register and window reads (42_bus_access.md R214 to R224) -/

/-- R214, R215, R216: ID, CAP and CTRL, in every state. -/
def Obligations.ConstantReads : Prop :=
  ∀ s : State,
    exec .rdId s = .next { s with resp := some ⟨.okay, 0xB64D0001#32⟩ } ∧
    exec .rdCtrl s = .next { s with resp := some ⟨.okay, 0x00000000#32⟩ } ∧
    (s.inCap ≤ 65536 → ∃ v : Word32, v.toNat = s.inCap ∧
      exec .rdCap s = .next { s with resp := some ⟨.okay, v⟩ })

/-- R36 with R126: a read of STATUS returns the layout of its fields, BUSY being PHASE ≠ IDLE and ERR_CODE the number
of the error kind. -/
def Obligations.StatusReadReturnsTheFlags : Prop :=
  ∀ s : State, ∃ v : Word32, exec .rdStatus s = .next { s with resp := some ⟨.okay, v⟩ } ∧
    v = 0#22 ++ BitVec.ofBool s.busyWr ++ BitVec.ofBool s.cmdErr ++ 0#2 ++ errCodeBits s.errCode ++ 0#1
      ++ BitVec.ofBool s.err ++ BitVec.ofBool s.done ++ BitVec.ofBool (decide (s.phase ≠ .idle)) ∧
    v.getLsbD 0 = decide (s.phase ≠ .idle) ∧ v.getLsbD 1 = s.done ∧ v.getLsbD 2 = s.err ∧ v.getLsbD 3 = false ∧
    v.extractLsb' 4 2 = errCodeBits s.errCode ∧ v.extractLsb' 6 2 = 0#2 ∧ v.getLsbD 8 = s.cmdErr ∧
    v.getLsbD 9 = s.busyWr ∧ v.extractLsb' 10 22 = 0#22 ∧
    (s.errCode = .none → v.extractLsb' 4 2 = 0#2) ∧ (s.errCode = .invalidLength → v.extractLsb' 4 2 = 1#2) ∧
    (s.errCode = .invalidPaddingPosition → v.extractLsb' 4 2 = 2#2) ∧
    (s.errCode = .invalidCharacter → v.extractLsb' 4 2 = 3#2)

/-- R218 to R222: IRQ_EN with its reserved bits 0, IN_LEN, OUT_LEN, PAD_CNT and ERR_POS; in a state of the invariant
IN_LEN is N during a run, and OUT_LEN and PAD_CNT are 0 during a run and after a failed one. -/
def Obligations.RegisterReads : Prop :=
  (∀ s : State,
    exec .rdIrqEn s = .next { s with resp := some ⟨.okay, if s.doneIe then 1#32 else 0#32⟩ } ∧
    exec .rdInLen s = .next { s with resp := some ⟨.okay, s.inLen⟩ } ∧
    exec .rdOutLen s = .next { s with resp := some ⟨.okay, s.outLen⟩ } ∧
    exec .rdPadCnt s = .next { s with resp := some ⟨.okay, s.padCnt⟩ } ∧
    exec .rdErrPos s = .next { s with resp := some ⟨.okay, s.errPos⟩ }) ∧
  ∀ s : State, s.Inv →
    (s.phase ≠ .idle → s.inLen.toNat = s.n.toNat ∧ s.outLen = 0#32 ∧ s.padCnt = 0#32) ∧
    (s.err = true → s.outLen = 0#32 ∧ s.padCnt = 0#32)

/-- R223: an IN window word is its four bytes, little-endian, whether or not a run is in progress. -/
def Obligations.InWindowRead : Prop :=
  ∀ (w : BitVec 14) (s : State), 4 * w.toNat < s.inCap →
    exec (.rdIn w) s = .next
      { s with
        resp := some ⟨.okay, inByte s (4 * w.toNat + 3) ++ inByte s (4 * w.toNat + 2) ++ inByte s (4 * w.toNat + 1)
          ++ inByte s (4 * w.toNat)⟩ }

/-- R224: an OUT window word is 0 while a run is in progress; otherwise its lanes are the four bytes, 0 at or above
OUT_CAP. -/
def Obligations.OutWindowRead : Prop :=
  ∀ (w : BitVec 14) (s : State), 4 * w.toNat < s.inCap * 3 / 4 →
    (s.phase ≠ .idle → exec (.rdOut w) s = .next { s with resp := some ⟨.okay, 0#32⟩ }) ∧
    (s.phase = .idle → ∃ v : Word32, exec (.rdOut w) s = .next { s with resp := some ⟨.okay, v⟩ } ∧
      ∀ k < 4, v.extractLsb' (8 * k) 8 =
        if 4 * w.toNat + k < s.inCap * 3 / 4 then outByte s (4 * w.toNat + k) else 0x00#8)

/-! ### Register and window writes (42_bus_access.md R225 to R236) -/

/-- R229 to R235: the writes to read-only locations answer OKAY and change nothing, in a run too. -/
def Obligations.IgnoredWrites : Prop :=
  ∀ (d : Word32) (w : BitVec 14) (s : State),
    exec (.wrId d) s = .next { s with resp := some ⟨.okay, 0#32⟩ } ∧
    exec (.wrCap d) s = .next { s with resp := some ⟨.okay, 0#32⟩ } ∧
    exec (.wrStatus d) s = .next { s with resp := some ⟨.okay, 0#32⟩ } ∧
    exec (.wrOutLen d) s = .next { s with resp := some ⟨.okay, 0#32⟩ } ∧
    exec (.wrPadCnt d) s = .next { s with resp := some ⟨.okay, 0#32⟩ } ∧
    exec (.wrErrPos d) s = .next { s with resp := some ⟨.okay, 0#32⟩ } ∧
    (4 * w.toNat < s.inCap * 3 / 4 → exec (.wrOut w d) s = .next { s with resp := some ⟨.okay, 0#32⟩ })

/-- R226: DONE_IE is WDATA[0] in every phase, the other bits are ignored, and `irq` follows at once: it is DONE when
1 is written, and 0 with DONE unchanged when 0 is written. -/
def Obligations.IrqEnableWrite : Prop :=
  ∀ (d : Word32) (s : State),
    exec (.wrIrqEn d) s = .next { s with doneIe := d.getLsbD 0, resp := some ⟨.okay, 0#32⟩ } ∧
    ∀ t : State, exec (.wrIrqEn d) s = .next t →
      (d.getLsbD 0 = true → t.irq = s.done) ∧ (d.getLsbD 0 = false → t.irq = false ∧ t.done = s.done)

/-- R227: IN_LEN takes any value while the engine is idle; a write during a run is dropped and sets BUSYWR. -/
def Obligations.InLenWrite : Prop :=
  ∀ (d : Word32) (s : State),
    (s.phase = .idle → exec (.wrInLen d) s = .next { s with inLen := d, resp := some ⟨.okay, 0#32⟩ }) ∧
    (s.phase ≠ .idle → exec (.wrInLen d) s = .next { s with busyWr := true, resp := some ⟨.okay, 0#32⟩ })

/-- R228: while the engine is idle an IN window write stores lane k of the data at IN_MEM[4w + k] and leaves every
other byte; during a run it is dropped and sets BUSYWR. Nothing else changes. -/
def Obligations.InWindowWrite : Prop :=
  ∀ (w : BitVec 14) (d : Word32) (s : State), 4 * w.toNat < s.inCap →
    (s.phase = .idle → ∃ t : State, exec (.wrIn w d) s = .next t ∧
      t = { s with inMem := t.inMem, resp := some ⟨.okay, 0#32⟩ } ∧
      ∀ a : Nat, inByte t a =
        if 4 * w.toNat ≤ a ∧ a < 4 * w.toNat + 4 then d.extractLsb' (8 * (a - 4 * w.toNat)) 8 else inByte s a) ∧
    (s.phase ≠ .idle → exec (.wrIn w d) s = .next { s with busyWr := true, resp := some ⟨.okay, 0#32⟩ })

/-- R236: BAD answers SLVERR with read data 0 and no effect. That exec of a window operation whose word lies at or
beyond its buffer's capacity does the same is the model's inference from R121 and R236 (log entry 13, DEDUCED): the
decoder never gives such an operation. -/
def Obligations.BadTransactionsHaveNoEffect : Prop :=
  ∀ (td : TD) (w : BitVec 14) (d : Word32) (s : State),
    exec (.bad td) s = .next { s with resp := some ⟨.slverr, 0x00000000#32⟩ } ∧
    (s.inCap ≤ 4 * w.toNat → exec (.rdIn w) s = .next { s with resp := some ⟨.slverr, 0x00000000#32⟩ } ∧
      exec (.wrIn w d) s = .next { s with resp := some ⟨.slverr, 0x00000000#32⟩ }) ∧
    (s.inCap * 3 / 4 ≤ 4 * w.toNat → exec (.rdOut w) s = .next { s with resp := some ⟨.slverr, 0x00000000#32⟩ } ∧
      exec (.wrOut w d) s = .next { s with resp := some ⟨.slverr, 0x00000000#32⟩ })

/-- R211: every transaction (a descriptor's operation or a command, in any state of the engine) answers, OKAY or
SLVERR; it answers SLVERR exactly when it is BAD, and then nothing changed. -/
def Obligations.EveryTransactionAnswers : Prop :=
  ∀ (i : Instr) (s : State), i.format ≠ .sel → i.wf s.inCap = true →
    ∃ (t : State) (r : Resp) (v : Word32), exec i s = .next t ∧ t.resp = some ⟨r, v⟩ ∧
      (r = .slverr ↔ ∃ td, i = .bad td) ∧ (r = .slverr → t = { s with resp := some ⟨.slverr, 0#32⟩ })

/-! ### Commands (41_commands.md) -/

/-- R190 and R196: WR_CTRL runs the command that WDATA[1:0] selects, answers OKAY with read data 0 whether or not a
START is refused, and the bits 31 to 2 have no effect; CTRL has no storage and reads 0. -/
def Obligations.WrCtrlRunsTheCommand : Prop :=
  ∀ (r : BitVec 30) (s : State),
    exec (.wrCtrl (r ++ 0b00#2)) s = exec (.nop 0#30) s ∧
    exec (.wrCtrl (r ++ 0b01#2)) s = exec (.start 0#30) s ∧
    exec (.wrCtrl (r ++ 0b10#2)) s = exec (.clr 0#30) s ∧
    exec (.wrCtrl (r ++ 0b11#2)) s = exec (.clrStart 0#30) s ∧
    exec (.nop r) s = exec (.nop 0#30) s ∧ exec (.start r) s = exec (.start 0#30) s ∧
    exec (.clr r) s = exec (.clr 0#30) s ∧ exec (.clrStart r) s = exec (.clrStart 0#30) s ∧
    (∀ d : Word32, ∃ t, exec (.wrCtrl d) s = .next t ∧ t.resp = some ⟨.okay, 0#32⟩) ∧
    exec .rdCtrl s = .next { s with resp := some ⟨.okay, 0#32⟩ }

/-- R191: NOP, as a command or as the write of CTRL that carries it, changes nothing, in a run either. -/
def Obligations.NopCommand : Prop :=
  ∀ (r : BitVec 30) (i : Instr) (s : State), i = .nop r ∨ i = .wrCtrl (r ++ 0b00#2) →
    exec i s = .next { s with resp := some ⟨.okay, 0#32⟩ }

/-- R192: START is accepted when PHASE = IDLE and IN_LEN ≤ IN_CAP; N is IN_LEN exactly, the result registers are
cleared, the engine enters LEN; CMDERR, BUSYWR, the other engine registers and OUT_MEM stay. -/
def Obligations.StartAccepted : Prop :=
  ∀ (r : BitVec 30) (i : Instr) (s : State), i = .start r ∨ i = .wrCtrl (r ++ 0b01#2) →
    Config.legalCap s.inCap = true → s.phase = .idle → s.inLen.toNat ≤ s.inCap →
    ∃ m : Index, m.toNat = s.inLen.toNat ∧
      exec i s = .next
        { s with
          n := m, done := false, err := false, errCode := .none, errPos := 0#32, outLen := 0#32, padCnt := 0#32
          phase := .len, resp := some ⟨.okay, 0#32⟩ }

/-- R193: START is refused when a run is in progress or IN_LEN > IN_CAP: CMDERR is set and nothing else changes. -/
def Obligations.StartRefused : Prop :=
  ∀ (r : BitVec 30) (i : Instr) (s : State), i = .start r ∨ i = .wrCtrl (r ++ 0b01#2) →
    s.phase ≠ .idle ∨ s.inCap < s.inLen.toNat →
    exec i s = .next { s with cmdErr := true, resp := some ⟨.okay, 0#32⟩ }

/-- R194: CLR clears DONE, ERR, ERR_CODE, ERR_POS, CMDERR and BUSYWR; OUT_LEN and PAD_CNT stay, and a run goes
on. -/
def Obligations.ClrCommand : Prop :=
  ∀ (r : BitVec 30) (i : Instr) (s : State), i = .clr r ∨ i = .wrCtrl (r ++ 0b10#2) →
    exec i s = .next
      { s with
        done := false, err := false, errCode := .none, errPos := 0#32, cmdErr := false, busyWr := false
        resp := some ⟨.okay, 0#32⟩ }

/-- R195: CLR_START is CLR and then START on the state after it: accepted, it also clears CMDERR and BUSYWR;
refused, it leaves CMDERR = 1 and the other status cleared. -/
def Obligations.ClrStartCommand : Prop :=
  ∀ (r : BitVec 30) (i : Instr) (s : State), i = .clrStart r ∨ i = .wrCtrl (r ++ 0b11#2) →
    (s.phase = .idle → s.inLen.toNat ≤ s.inCap →
      exec i s = .next
        { s with
          n := s.inLen.setWidth 17, done := false, err := false, errCode := .none, errPos := 0#32, outLen := 0#32
          padCnt := 0#32, cmdErr := false, busyWr := false, phase := .len, resp := some ⟨.okay, 0#32⟩ }) ∧
    (s.phase ≠ .idle ∨ s.inCap < s.inLen.toNat →
      exec i s = .next
        { s with
          done := false, err := false, errCode := .none, errPos := 0#32, cmdErr := true, busyWr := false
          resp := some ⟨.okay, 0#32⟩ })

/-! ### Engine steps (40_decode_engine.md R148 to R158) -/

/-- R148 with R141 and R142: the empty input completes, a length that is no multiple of 4 is InvalidLength at 0, and
any other goes on to VAL with I and SEENPAD cleared. -/
def Obligations.LenStep : Prop :=
  ∀ (c : BitVec 2) (s : State),
    (s.n.toNat = 0 → exec (.len c) s = .next
      { s with
        outLen := 0#32, padCnt := 0#32, done := true, err := false, errCode := .none, errPos := 0#32
        phase := .idle }) ∧
    (s.n.toNat % 4 ≠ 0 → exec (.len c) s = .next
      { s with
        outLen := 0#32, padCnt := 0#32, done := true, err := true, errCode := .invalidLength, errPos := 0#32
        phase := .idle }) ∧
    (s.n.toNat ≠ 0 → s.n.toNat % 4 = 0 → exec (.len c) s = .next
      { s with i := 0#17, seenPad := false, phase := .val })

/-- R149 with R142: a symbol after an accepted `=` is InvalidPaddingPosition at I - 1; any other symbol is accepted,
and the last one leads to PREP. In a state of the invariant SEENPAD = 1 is possible only at I = N - 1, with
`I - 1 = N - 2 ≥ 2`. -/
def Obligations.ValSymStep : Prop :=
  (∀ s : State, s.Inv → s.phase = .val → s.seenPad = true → s.i.toNat + 1 = s.n.toNat ∧ 2 ≤ s.i.toNat - 1) ∧
  ∀ s : State, s.i.toNat < s.inCap → s.inCap ≤ 65536 →
    (s.seenPad = true → s.i.toNat ≠ 0 → ∃ p : Word32, p.toNat = s.i.toNat - 1 ∧ exec .valSym s = .next
      { s with
        outLen := 0#32, padCnt := 0#32, done := true, err := true, errCode := .invalidPaddingPosition, errPos := p
        phase := .idle }) ∧
    (s.seenPad = false → ∃ m : Index, m.toNat = s.i.toNat + 1 ∧ exec .valSym s = .next
      { s with i := m, phase := if s.i.toNat + 1 = s.n.toNat then .prep else s.phase })

/-- R150 with R142: a `=` before index N - 2 is InvalidPaddingPosition at I; any other is accepted with SEENPAD set,
and the last one leads to PREP. -/
def Obligations.ValPadStep : Prop :=
  ∀ s : State, s.i.toNat < s.inCap → s.inCap ≤ 65536 → 4 ≤ s.n.toNat →
    (s.i.toNat < s.n.toNat - 2 → ∃ p : Word32, p.toNat = s.i.toNat ∧ exec .valPad s = .next
      { s with
        outLen := 0#32, padCnt := 0#32, done := true, err := true, errCode := .invalidPaddingPosition, errPos := p
        phase := .idle }) ∧
    (s.n.toNat - 2 ≤ s.i.toNat → ∃ m : Index, m.toNat = s.i.toNat + 1 ∧ exec .valPad s = .next
      { s with i := m, seenPad := true, phase := if s.i.toNat = s.n.toNat - 1 then .prep else s.phase })

/-- R151 with R142: an invalid byte is InvalidCharacter at I, an accepted `=` before it or not. -/
def Obligations.ValInvStep : Prop :=
  ∀ s : State, s.i.toNat < s.inCap → ∃ p : Word32, p.toNat = s.i.toNat ∧ exec .valInv s = .next
    { s with
      outLen := 0#32, padCnt := 0#32, done := true, err := true, errCode := .invalidCharacter, errPos := p
      phase := .idle }

/-- R152 with R145 and R146: PAD is the paddingCount of the last two bytes, OUTL is `(N * 3) / 4 - PAD`, ACC, CNT, I
and J are cleared, and the engine enters DEC. -/
def Obligations.PrepStep : Prop :=
  ∀ (c : BitVec 2) (s : State), 4 ≤ s.n.toNat → s.n.toNat ≤ s.inCap →
    ∃ (p : BitVec 2) (l : Index),
      (p.toNat = if inByte s (s.n.toNat - 1) = 0x3D#8 then (if inByte s (s.n.toNat - 2) = 0x3D#8 then 2 else 1)
        else 0) ∧
      l.toNat = s.n.toNat * 3 / 4 - p.toNat ∧
      exec (.prep c) s = .next
        { s with pad := p, outl := l, acc := 0#24, cnt := 0#2, i := 0#17, j := 0#17, phase := .dec }

/-- R153. A symbol that does not complete a group: ACC becomes `((ACC << 6) | v) mod 2^24`, CNT and I advance, no byte
is written. A symbol that completes a group: when `J + 3 ≤ OUTL` the three bytes of the new ACC are written at J, most
significant first, and J advances by 3; otherwise nothing is written and J stays; CNT returns to 0. The last symbol
leads to TAIL. -/
def Obligations.DecSymStep : Prop :=
  (∀ s : State, s.i.toNat < s.inCap → s.inCap ≤ 65536 → s.cnt.toNat < 3 →
    ∃ (a : BitVec 24) (k : BitVec 2) (m : Index),
      a.toNat = (s.acc.toNat * 64 + (lutValue (lutRead s (inByte s s.i.toNat))).toNat) % 2 ^ 24 ∧
      k.toNat = s.cnt.toNat + 1 ∧ m.toNat = s.i.toNat + 1 ∧
      exec .decSym s = .next
        { s with acc := a, cnt := k, i := m, phase := if s.i.toNat + 1 = s.n.toNat then .tail else s.phase }) ∧
  ∀ s : State, s.i.toNat < s.inCap → s.inCap ≤ 65536 → s.cnt.toNat = 3 → s.outl.toNat ≤ s.inCap * 3 / 4 →
    ∃ (a : BitVec 24) (m : Index) (t : State),
      a.toNat = (s.acc.toNat * 64 + (lutValue (lutRead s (inByte s s.i.toNat))).toNat) % 2 ^ 24 ∧
      m.toNat = s.i.toNat + 1 ∧ exec .decSym s = .next t ∧
      t = { s with
        acc := a, cnt := 0#2, i := m, phase := (if s.i.toNat + 1 = s.n.toNat then .tail else s.phase)
        j := t.j, outMem := t.outMem } ∧
      (s.j.toNat + 3 ≤ s.outl.toNat → t.j.toNat = s.j.toNat + 3 ∧
        ∀ k : Nat, (outByte t k).toNat =
          if k = s.j.toNat then a.toNat / 2 ^ 16
          else if k = s.j.toNat + 1 then a.toNat / 2 ^ 8 % 2 ^ 8
          else if k = s.j.toNat + 2 then a.toNat % 2 ^ 8
          else (outByte s k).toNat) ∧
      (s.outl.toNat < s.j.toNat + 3 → t.j = s.j ∧ t.outMem = s.outMem)

/-- R156 with R141: with PAD = 0 the step only completes; with PAD > 0 ACC is shifted left by 6 * PAD modulo 2^24
and the `3 - PAD` most significant bytes that lie below OUTL are written at J, J advances by their number, and the run
completes with OUT_LEN = OUTL and PAD_CNT = PAD. -/
def Obligations.TailStep : Prop :=
  ∀ (c : BitVec 2) (s : State), s.outl.toNat ≤ s.inCap * 3 / 4 →
    (s.pad.toNat = 0 → exec (.tail c) s = .next
      { s with
        outLen := s.outl.setWidth 32, padCnt := 0#32, done := true, err := false, errCode := .none, errPos := 0#32
        phase := .idle }) ∧
    (0 < s.pad.toNat → ∃ (a : BitVec 24) (t : State),
      a.toNat = s.acc.toNat * 2 ^ (6 * s.pad.toNat) % 2 ^ 24 ∧ exec (.tail c) s = .next t ∧
      t = { s with
        acc := a, j := t.j, outMem := t.outMem, outLen := s.outl.setWidth 32, padCnt := s.pad.setWidth 32
        done := true, err := false, errCode := .none, errPos := 0#32, phase := .idle } ∧
      t.j.toNat = s.j.toNat + min (3 - s.pad.toNat) (s.outl.toNat - s.j.toNat) ∧
      ∀ k : Nat, (outByte t k).toNat =
        if s.j.toNat ≤ k ∧ k < t.j.toNat then a.toNat / 2 ^ (16 - 8 * (k - s.j.toNat)) % 2 ^ 8
        else (outByte s k).toNat)

/-- R154: DEC_PAD goes to TAIL and changes nothing else, and in a state of the invariant it happens with
`CNT = 4 - PAD`. With PHASE = IDLE the engine has no step (R157): its turn changes nothing. -/
def Obligations.DecPadAndIdleSteps : Prop :=
  (∀ (c : BitVec 2) (s : State),
    exec .decPad s = .next { s with phase := .tail } ∧ exec (.idle c) s = .next s) ∧
  ∀ s : State, s.Inv → selector s = some 0b10001#5 → 0 < s.pad.toNat ∧ s.cnt.toNat = 4 - s.pad.toNat

/-- R129: DEC_INV, PHASE 110 or 111 and CLASS 11 have no step rule; each is the fault EngineInvariant (R155, R158,
R248), and none of the four occurs at the selector of a state of the invariant. -/
def Obligations.UnreachableSelectorsFault : Prop :=
  (∀ (l : BitVec 3) (s : State),
    exec .decInv s = .fault .engineInvariant ∧ exec (.unreachablePhase l) s = .fault .engineInvariant ∧
    exec .unreachableValClass3 s = .fault .engineInvariant ∧
    exec .unreachableDecClass3 s = .fault .engineInvariant) ∧
  ∀ (s : State) (sel : Sel), s.Inv → selector s = some sel →
    decodeSel sel ≠ .decInv ∧ (∀ l, decodeSel sel ≠ .unreachablePhase l) ∧
    decodeSel sel ≠ .unreachableValClass3 ∧ decodeSel sel ≠ .unreachableDecClass3

/-! ### Invariants and rules of the whole machine -/

/-- Right after power-on, whatever legal IN_CAP the instance has and whatever the outside world will do, the
invariant holds. -/
def Obligations.PowerOnHoldsTheInvariant : Prop :=
  ∀ (cap : Nat) (inputs : List CycleInput), Config.legalCap cap = true → (powerOn cap inputs).Inv

/-- Every step keeps the invariant: the register invariants of R48, the bounds of R161 and R162, the legal phases, the
canonical buffers and the constants. -/
def Obligations.StepKeepsTheInvariant : Prop :=
  ∀ s t : State, s.Inv → step s = .next t → t.Inv

/-- From a state of the invariant every step answers a next state: no unreachable selector (R129), no InRead or
OutWrite out of bounds (R101, R161, R162), no negative difference (R149, R152), no refusal. -/
def Obligations.InvariantStatesNeverStop : Prop :=
  ∀ s : State, s.Inv → s.Goes

/-- Whatever legal IN_CAP the instance has and whatever the host and the reset input do, no number of steps from
power-on ends in a fault or a refusal. -/
def Obligations.NoHostBehaviourStopsTheMachine : Prop :=
  ∀ (cap : Nat) (inputs : List CycleInput) (k : Nat), Config.legalCap cap = true →
    ∃ t : State, Host.Core.run Sys2Proof.core k (powerOn cap inputs) = .next t ∧ t.Inv

/-- R33, R34 and R50 over the whole machine: no step writes IN_CAP or the ROM. -/
def Obligations.NoStepWritesTheConstants : Prop :=
  ∀ s t : State, step s = .next t → t.inCap = s.inCap ∧ t.lut = s.lut

/-- Every step keeps both buffers in canonical form within their capacities, in every state of a legal
instance. -/
def Obligations.BuffersStayCanonical : Prop :=
  ∀ s t : State, Config.legalCap s.inCap = true → BuffersOk s → step s = .next t → BuffersOk t

/-- R51 and R52: no transaction writes OUT_MEM, and no engine step writes IN_MEM, IN_LEN, DONE_IE, CMDERR or
BUSYWR. -/
def Obligations.EachBufferHasOneWriter : Prop :=
  ∀ (i : Instr) (s t : State), exec i s = .next t →
    (i.format ≠ .sel → t.outMem = s.outMem) ∧
    (i.format = .sel → t.inMem = s.inMem ∧ t.inLen = s.inLen ∧ t.doneIe = s.doneIe ∧ t.cmdErr = s.cmdErr ∧
      t.busyWr = s.busyWr ∧ t.resp = s.resp)

/-- R294 and R286: while PHASE ≠ IDLE no transaction changes PHASE, N, IN_LEN, a buffer or any register of the
engine's datapath. -/
def Obligations.TransactionsDoNotDisturbARun : Prop :=
  ∀ (i : Instr) (s t : State), i.format ≠ .sel → s.phase ≠ .idle → exec i s = .next t → SameRun s t

/-- R38: the completing step of a run, which takes PHASE back to IDLE, sets DONE, and nothing else sets it; only an
accepted START, a CLR and a reset edge clear it. -/
def Obligations.DoneIsSetByCompletionAndClearedByCommand : Prop :=
  ∀ s t : State, step s = .next t →
    (s.phase ≠ .idle → t.phase = .idle → t.done = true ∨
      s.engineDue = false ∧ ∃ rest, s.pending = .rst :: rest) ∧
    (s.done = false → t.done = true → s.phase ≠ .idle ∧ t.phase = .idle) ∧
    (s.done = true → t.done = false → s.engineDue = false ∧ ∃ rest, s.pending = .rst :: rest ∨
      ∃ (txn : Txn) (held : Bool) (d : Word32), s.pending = .cycle (some txn) held :: rest ∧
        decodeTD s.inCap txn.td txn.wdata = .wrCtrl d ∧
        (d.extractLsb' 0 2 = 0b01#2 ∧ t.phase = .len ∨ d.extractLsb' 0 2 = 0b10#2 ∨ d.extractLsb' 0 2 = 0b11#2))

/-- R257: `irq` is DONE AND DONE_IE, and no step raises it but the completing step of a run and a write that enables
it while DONE = 1; no refused START, dropped write or SLVERR does. -/
def Obligations.InterruptIsRaisedByCompletionOnly : Prop :=
  (∀ s : State, s.irq = true ↔ s.done = true ∧ s.doneIe = true) ∧
  ∀ s t : State, step s = .next t → s.irq = false → t.irq = true →
    (s.phase ≠ .idle ∧ t.phase = .idle ∧ t.doneIe = s.doneIe) ∨
    (s.done = true ∧ t.done = true ∧ ∃ (txn : Txn) (held : Bool) (d : Word32) (rest : List CycleInput),
      s.pending = .cycle (some txn) held :: rest ∧ decodeTD s.inCap txn.td txn.wdata = .wrIrqEn d)

/-- R166: a step that ends a run in an error leaves every byte of OUT_MEM, and so does every step of the phases
LEN, VAL and PREP, the only ones before an error. -/
def Obligations.FailingRunWritesNothing : Prop :=
  ∀ s t : State, step s = .next t →
    (s.err = false → t.err = true → t.outMem = s.outMem) ∧
    (s.phase = .len ∨ s.phase = .val ∨ s.phase = .prep → t.outMem = s.outMem)

/-- R101, R161 and R162 in the states of the invariant. Every engine read lies below N, which is at most IN_CAP. A
step changes a byte of OUT_MEM only in DEC or TAIL and only below OUTL, which is at most OUT_CAP. J never exceeds OUTL,
in any phase, every bounds check of DEC_SYM and TAIL passes, and J = OUTL after every step that ends a run, whichever
of LEN, VAL and TAIL ends it; when TAIL completes, OUTL is the one PREP computed. -/
def Obligations.EngineAccessStaysInBounds : Prop :=
  ∀ s : State, s.Inv →
    (s.phase = .val ∨ s.phase = .dec → s.i.toNat < s.n.toNat ∧ s.n.toNat ≤ s.inCap) ∧
    (s.phase = .prep → 4 ≤ s.n.toNat ∧ s.n.toNat ≤ s.inCap) ∧
    s.j.toNat ≤ s.outl.toNat ∧
    (s.phase = .dec ∨ s.phase = .tail → s.outl.toNat ≤ s.inCap * 3 / 4) ∧
    (selector s = some 0b10000#5 → s.cnt = 3#2 → s.j.toNat + 3 ≤ s.outl.toNat) ∧
    (s.phase = .tail → 0 < s.pad.toNat → s.j.toNat + (3 - s.pad.toNat) ≤ s.outl.toNat) ∧
    ∀ t : State, step s = .next t →
      (∀ k : Nat, outByte t k ≠ outByte s k → (s.phase = .dec ∨ s.phase = .tail) ∧ k < s.outl.toNat) ∧
      (s.phase ≠ .idle → t.phase = .idle → t.j = t.outl) ∧
      (s.phase = .tail → t.phase = .idle →
        t.j = s.outl ∧ t.outl = s.outl ∨ s.engineDue = false ∧ ∃ rest, s.pending = .rst :: rest)

/-- R96: between runs the result stays. From an idle state of the invariant a step that is no reset edge and starts
no run keeps OUT_LEN, PAD_CNT and OUT_MEM, and keeps the whole result unless a CLR takes DONE away. -/
def Obligations.ResultStaysUntilTheNextStart : Prop :=
  ∀ s t : State, s.Inv → s.phase = .idle → (∀ rest, s.pending ≠ .rst :: rest) → step s = .next t → t.phase = .idle →
    (t.outLen = s.outLen ∧ t.padCnt = s.padCnt ∧ ∀ k, outByte t k = outByte s k) ∧
    (t.done = s.done → SameResult s t)

/-! ### The meaning of a run (40_decode_engine.md R143 to R169) -/

/-- R159 with R168: from LEN, with the outside world quiet, the engine reaches IDLE after exactly `refSteps` steps
and not before, with the completion state of DECODE_REF over IN_MEM[0 .. N-1]: the output bytes and lengths, or the
error and its position with OUT_MEM untouched; CMDERR, BUSYWR, IRQ_EN, IN_LEN and IN_MEM are unchanged. -/
def Obligations.RunComputesDecodeRef : Prop :=
  ∀ s : State, s.Inv → s.phase = .len → s.engineDue = false → s.pending = [] →
    (∀ k < refSteps (runInput s), ∃ u : State,
      Host.Core.run Sys2Proof.core k s = .next u ∧ u.phase ≠ .idle) ∧
    ∃ t : State, Host.Core.run Sys2Proof.core (refSteps (runInput s)) s = .next t ∧ t.phase = .idle ∧
      t.done = true ∧ t.cmdErr = s.cmdErr ∧ t.busyWr = s.busyWr ∧ t.doneIe = s.doneIe ∧ t.inLen = s.inLen ∧
      t.inMem = s.inMem ∧
      match decodeRef (runInput s) with
      | .ok bytes p =>
        t.outLen.toNat = bytes.length ∧ t.padCnt.toNat = p ∧ t.err = false ∧ t.errCode = .none ∧ t.errPos = 0#32 ∧
          ∀ k : Nat, outByte t k = bytes.getD k (outByte s k)
      | .err code pos =>
        t.err = true ∧ t.errCode = code ∧ t.errPos.toNat = pos ∧ t.outLen = 0#32 ∧ t.padCnt = 0#32 ∧
          t.outMem = s.outMem

/-- R294 and R159 under any traffic: whatever transactions the host sends while a run is in progress, and however
slowly the engine is stepped, the step that first takes the engine back to IDLE leaves the completion state of
DECODE_REF over the input at LEN, as long as no reset edge comes. -/
def Obligations.TrafficDoesNotChangeTheResult : Prop :=
  ∀ (s u t : State) (k : Nat), s.Inv → s.phase = .len → CycleInput.rst ∉ s.pending →
    Host.Core.run Sys2Proof.core k s = .next u →
    (∀ l ≤ k, ∃ v : State, Host.Core.run Sys2Proof.core l s = .next v ∧ v.phase ≠ .idle) →
    step u = .next t → t.phase = .idle →
    t.done = true ∧
      match decodeRef (runInput s) with
      | .ok bytes p =>
        t.outLen.toNat = bytes.length ∧ t.padCnt.toNat = p ∧ t.err = false ∧ t.errCode = .none ∧ t.errPos = 0#32 ∧
          ∀ j : Nat, outByte t j = bytes.getD j (outByte s j)
      | .err code pos =>
        t.err = true ∧ t.errCode = code ∧ t.errPos.toNat = pos ∧ t.outLen = 0#32 ∧ t.padCnt = 0#32 ∧
          t.outMem = s.outMem

/-- R168's bound: from LEN, with the outside world quiet, so that every step of the machine is an engine step, the run
over N bytes reaches IDLE for the first time after at least one and at most 2N + 3 steps; and DECODE_REF's step count
has the same bounds for every input. -/
def Obligations.RunLengthIsLinear : Prop :=
  (∀ s : State, s.Inv → s.phase = .len → s.engineDue = false → s.pending = [] →
    ∃ k : Nat, 1 ≤ k ∧ k ≤ 2 * s.n.toNat + 3 ∧
      (∀ l < k, ∃ u : State, Host.Core.run Sys2Proof.core l s = .next u ∧ u.phase ≠ .idle) ∧
      ∃ t : State, Host.Core.run Sys2Proof.core k s = .next t ∧ t.phase = .idle) ∧
  ∀ bs : List Byte, 1 ≤ refSteps bs ∧ refSteps bs ≤ 2 * bs.length + 3

/-- R144: DECODE_REF succeeds exactly on the sequences of the closed form. -/
def Obligations.DecodeRefSucceedsExactlyOnValidInput : Prop :=
  ∀ s : List Byte, (∃ bytes pad, decodeRef s = .ok bytes pad) ↔ refValid s

/-- R146: on success the output has length `(n * 3) / 4 - pad`, a difference that is not negative, pad is at most 2,
length + pad is a multiple of 3, and the output of an input that fits IN_MEM fits OUT_MEM. -/
def Obligations.DecodeRefOutputLength : Prop :=
  ∀ (s bytes : List Byte) (pad : Nat), decodeRef s = .ok bytes pad →
    bytes.length = s.length * 3 / 4 - pad ∧ s.length * 3 / 4 = 3 * (s.length / 4) ∧ pad ≤ 2 ∧ pad ≤ s.length * 3 / 4 ∧
    (bytes.length + pad) % 3 = 0 ∧
    ∀ cap : Nat, Config.legalCap cap = true → s.length ≤ cap →
      bytes.length ≤ 3 * (cap / 4) ∧ 3 * (cap / 4) = Config.outCapOf cap ∧ Config.outCapOf cap ≤ 49152

/-- R240 to R244: a failure has one of the three kinds, a length error is reported at 0 and only for a bad length,
and a padding or character error is reported at an index inside the input that holds, for a padding error, a `=`
and, for a character error, an invalid byte. -/
def Obligations.DecodeRefErrorsNameTheOffendingByte : Prop :=
  ∀ (s : List Byte) (code : ErrCode) (pos : Nat), decodeRef s = .err code pos →
    (code = .invalidLength ∧ pos = 0 ∧ s.length % 4 ≠ 0) ∨
    (code = .invalidPaddingPosition ∧ pos < s.length ∧ s.getD pos 0#8 = 0x3D#8) ∨
    (code = .invalidCharacter ∧ pos < s.length ∧ classOf (s.getD pos 0#8) = .inv)

/-- R291: an input split at a multiple of 4 decodes to the concatenation of the pieces' results when only the last
piece has padding. -/
def Obligations.SplitInputsConcatenate : Prop :=
  ∀ (a b ba bb : List Byte) (p : Nat), decodeRef a = .ok ba 0 → decodeRef b = .ok bb p →
    decodeRef (a ++ b) = .ok (ba ++ bb) p
end

