-- ==== Sys2Proof/Laws/State.lean ====
section
/-!
SUPPORT. One lemma per field for every named update of the state, true by unfolding the update, so that no
proof has to unfold a record. A field an update does not name keeps its value.
-/

namespace Sys2Proof.Machine

variable (s : State)


/-! ### answer -/

@[simp] theorem answer_done (r : Resp) (d : Word32) : (answer s r d).done = s.done := rfl
@[simp] theorem answer_err (r : Resp) (d : Word32) : (answer s r d).err = s.err := rfl
@[simp] theorem answer_errCode (r : Resp) (d : Word32) : (answer s r d).errCode = s.errCode := rfl
@[simp] theorem answer_cmdErr (r : Resp) (d : Word32) : (answer s r d).cmdErr = s.cmdErr := rfl
@[simp] theorem answer_busyWr (r : Resp) (d : Word32) : (answer s r d).busyWr = s.busyWr := rfl
@[simp] theorem answer_doneIe (r : Resp) (d : Word32) : (answer s r d).doneIe = s.doneIe := rfl
@[simp] theorem answer_inLen (r : Resp) (d : Word32) : (answer s r d).inLen = s.inLen := rfl
@[simp] theorem answer_outLen (r : Resp) (d : Word32) : (answer s r d).outLen = s.outLen := rfl
@[simp] theorem answer_padCnt (r : Resp) (d : Word32) : (answer s r d).padCnt = s.padCnt := rfl
@[simp] theorem answer_errPos (r : Resp) (d : Word32) : (answer s r d).errPos = s.errPos := rfl
@[simp] theorem answer_inCap (r : Resp) (d : Word32) : (answer s r d).inCap = s.inCap := rfl
@[simp] theorem answer_lut (r : Resp) (d : Word32) : (answer s r d).lut = s.lut := rfl
@[simp] theorem answer_inMem (r : Resp) (d : Word32) : (answer s r d).inMem = s.inMem := rfl
@[simp] theorem answer_outMem (r : Resp) (d : Word32) : (answer s r d).outMem = s.outMem := rfl
@[simp] theorem answer_phase (r : Resp) (d : Word32) : (answer s r d).phase = s.phase := rfl
@[simp] theorem answer_n (r : Resp) (d : Word32) : (answer s r d).n = s.n := rfl
@[simp] theorem answer_i (r : Resp) (d : Word32) : (answer s r d).i = s.i := rfl
@[simp] theorem answer_seenPad (r : Resp) (d : Word32) : (answer s r d).seenPad = s.seenPad := rfl
@[simp] theorem answer_pad (r : Resp) (d : Word32) : (answer s r d).pad = s.pad := rfl
@[simp] theorem answer_outl (r : Resp) (d : Word32) : (answer s r d).outl = s.outl := rfl
@[simp] theorem answer_acc (r : Resp) (d : Word32) : (answer s r d).acc = s.acc := rfl
@[simp] theorem answer_cnt (r : Resp) (d : Word32) : (answer s r d).cnt = s.cnt := rfl
@[simp] theorem answer_j (r : Resp) (d : Word32) : (answer s r d).j = s.j := rfl
@[simp] theorem answer_pending (r : Resp) (d : Word32) : (answer s r d).pending = s.pending := rfl
@[simp] theorem answer_engineDue (r : Resp) (d : Word32) : (answer s r d).engineDue = s.engineDue := rfl
@[simp] theorem answer_resp (r : Resp) (d : Word32) : (answer s r d).resp = some ⟨r, d⟩ := rfl

/-! ### complete -/

@[simp] theorem complete_done (p : BitVec 2) (l : Index) : (complete s p l).done = true := rfl
@[simp] theorem complete_err (p : BitVec 2) (l : Index) : (complete s p l).err = false := rfl
@[simp] theorem complete_errCode (p : BitVec 2) (l : Index) : (complete s p l).errCode = .none := rfl
@[simp] theorem complete_cmdErr (p : BitVec 2) (l : Index) : (complete s p l).cmdErr = s.cmdErr := rfl
@[simp] theorem complete_busyWr (p : BitVec 2) (l : Index) : (complete s p l).busyWr = s.busyWr := rfl
@[simp] theorem complete_doneIe (p : BitVec 2) (l : Index) : (complete s p l).doneIe = s.doneIe := rfl
@[simp] theorem complete_inLen (p : BitVec 2) (l : Index) : (complete s p l).inLen = s.inLen := rfl
@[simp] theorem complete_outLen (p : BitVec 2) (l : Index) : (complete s p l).outLen = l.setWidth 32 := rfl
@[simp] theorem complete_padCnt (p : BitVec 2) (l : Index) : (complete s p l).padCnt = p.setWidth 32 := rfl
@[simp] theorem complete_errPos (p : BitVec 2) (l : Index) : (complete s p l).errPos = 0#32 := rfl
@[simp] theorem complete_inCap (p : BitVec 2) (l : Index) : (complete s p l).inCap = s.inCap := rfl
@[simp] theorem complete_lut (p : BitVec 2) (l : Index) : (complete s p l).lut = s.lut := rfl
@[simp] theorem complete_inMem (p : BitVec 2) (l : Index) : (complete s p l).inMem = s.inMem := rfl
@[simp] theorem complete_outMem (p : BitVec 2) (l : Index) : (complete s p l).outMem = s.outMem := rfl
@[simp] theorem complete_phase (p : BitVec 2) (l : Index) : (complete s p l).phase = .idle := rfl
@[simp] theorem complete_n (p : BitVec 2) (l : Index) : (complete s p l).n = s.n := rfl
@[simp] theorem complete_i (p : BitVec 2) (l : Index) : (complete s p l).i = s.i := rfl
@[simp] theorem complete_seenPad (p : BitVec 2) (l : Index) : (complete s p l).seenPad = s.seenPad := rfl
@[simp] theorem complete_pad (p : BitVec 2) (l : Index) : (complete s p l).pad = s.pad := rfl
@[simp] theorem complete_outl (p : BitVec 2) (l : Index) : (complete s p l).outl = s.outl := rfl
@[simp] theorem complete_acc (p : BitVec 2) (l : Index) : (complete s p l).acc = s.acc := rfl
@[simp] theorem complete_cnt (p : BitVec 2) (l : Index) : (complete s p l).cnt = s.cnt := rfl
@[simp] theorem complete_j (p : BitVec 2) (l : Index) : (complete s p l).j = s.j := rfl
@[simp] theorem complete_pending (p : BitVec 2) (l : Index) : (complete s p l).pending = s.pending := rfl
@[simp] theorem complete_engineDue (p : BitVec 2) (l : Index) : (complete s p l).engineDue = s.engineDue := rfl
@[simp] theorem complete_resp (p : BitVec 2) (l : Index) : (complete s p l).resp = s.resp := rfl

/-! ### raiseDecodeError -/

@[simp] theorem raiseDecodeError_done (code : ErrCode) (pos : Index) : (raiseDecodeError s code pos).done = true := rfl
@[simp] theorem raiseDecodeError_err (code : ErrCode) (pos : Index) : (raiseDecodeError s code pos).err = true := rfl
@[simp] theorem raiseDecodeError_errCode (code : ErrCode) (pos : Index) : (raiseDecodeError s code pos).errCode = code := rfl
@[simp] theorem raiseDecodeError_cmdErr (code : ErrCode) (pos : Index) : (raiseDecodeError s code pos).cmdErr = s.cmdErr := rfl
@[simp] theorem raiseDecodeError_busyWr (code : ErrCode) (pos : Index) : (raiseDecodeError s code pos).busyWr = s.busyWr := rfl
@[simp] theorem raiseDecodeError_doneIe (code : ErrCode) (pos : Index) : (raiseDecodeError s code pos).doneIe = s.doneIe := rfl
@[simp] theorem raiseDecodeError_inLen (code : ErrCode) (pos : Index) : (raiseDecodeError s code pos).inLen = s.inLen := rfl
@[simp] theorem raiseDecodeError_outLen (code : ErrCode) (pos : Index) : (raiseDecodeError s code pos).outLen = 0#32 := rfl
@[simp] theorem raiseDecodeError_padCnt (code : ErrCode) (pos : Index) : (raiseDecodeError s code pos).padCnt = 0#32 := rfl
@[simp] theorem raiseDecodeError_errPos (code : ErrCode) (pos : Index) : (raiseDecodeError s code pos).errPos = pos.setWidth 32 := rfl
@[simp] theorem raiseDecodeError_inCap (code : ErrCode) (pos : Index) : (raiseDecodeError s code pos).inCap = s.inCap := rfl
@[simp] theorem raiseDecodeError_lut (code : ErrCode) (pos : Index) : (raiseDecodeError s code pos).lut = s.lut := rfl
@[simp] theorem raiseDecodeError_inMem (code : ErrCode) (pos : Index) : (raiseDecodeError s code pos).inMem = s.inMem := rfl
@[simp] theorem raiseDecodeError_outMem (code : ErrCode) (pos : Index) : (raiseDecodeError s code pos).outMem = s.outMem := rfl
@[simp] theorem raiseDecodeError_phase (code : ErrCode) (pos : Index) : (raiseDecodeError s code pos).phase = .idle := rfl
@[simp] theorem raiseDecodeError_n (code : ErrCode) (pos : Index) : (raiseDecodeError s code pos).n = s.n := rfl
@[simp] theorem raiseDecodeError_i (code : ErrCode) (pos : Index) : (raiseDecodeError s code pos).i = s.i := rfl
@[simp] theorem raiseDecodeError_seenPad (code : ErrCode) (pos : Index) : (raiseDecodeError s code pos).seenPad = s.seenPad := rfl
@[simp] theorem raiseDecodeError_pad (code : ErrCode) (pos : Index) : (raiseDecodeError s code pos).pad = s.pad := rfl
@[simp] theorem raiseDecodeError_outl (code : ErrCode) (pos : Index) : (raiseDecodeError s code pos).outl = s.outl := rfl
@[simp] theorem raiseDecodeError_acc (code : ErrCode) (pos : Index) : (raiseDecodeError s code pos).acc = s.acc := rfl
@[simp] theorem raiseDecodeError_cnt (code : ErrCode) (pos : Index) : (raiseDecodeError s code pos).cnt = s.cnt := rfl
@[simp] theorem raiseDecodeError_j (code : ErrCode) (pos : Index) : (raiseDecodeError s code pos).j = s.j := rfl
@[simp] theorem raiseDecodeError_pending (code : ErrCode) (pos : Index) : (raiseDecodeError s code pos).pending = s.pending := rfl
@[simp] theorem raiseDecodeError_engineDue (code : ErrCode) (pos : Index) : (raiseDecodeError s code pos).engineDue = s.engineDue := rfl
@[simp] theorem raiseDecodeError_resp (code : ErrCode) (pos : Index) : (raiseDecodeError s code pos).resp = s.resp := rfl

/-! ### clearStatus -/

@[simp] theorem clearStatus_done : (clearStatus s).done = false := rfl
@[simp] theorem clearStatus_err : (clearStatus s).err = false := rfl
@[simp] theorem clearStatus_errCode : (clearStatus s).errCode = .none := rfl
@[simp] theorem clearStatus_cmdErr : (clearStatus s).cmdErr = false := rfl
@[simp] theorem clearStatus_busyWr : (clearStatus s).busyWr = false := rfl
@[simp] theorem clearStatus_doneIe : (clearStatus s).doneIe = s.doneIe := rfl
@[simp] theorem clearStatus_inLen : (clearStatus s).inLen = s.inLen := rfl
@[simp] theorem clearStatus_outLen : (clearStatus s).outLen = s.outLen := rfl
@[simp] theorem clearStatus_padCnt : (clearStatus s).padCnt = s.padCnt := rfl
@[simp] theorem clearStatus_errPos : (clearStatus s).errPos = 0#32 := rfl
@[simp] theorem clearStatus_inCap : (clearStatus s).inCap = s.inCap := rfl
@[simp] theorem clearStatus_lut : (clearStatus s).lut = s.lut := rfl
@[simp] theorem clearStatus_inMem : (clearStatus s).inMem = s.inMem := rfl
@[simp] theorem clearStatus_outMem : (clearStatus s).outMem = s.outMem := rfl
@[simp] theorem clearStatus_phase : (clearStatus s).phase = s.phase := rfl
@[simp] theorem clearStatus_n : (clearStatus s).n = s.n := rfl
@[simp] theorem clearStatus_i : (clearStatus s).i = s.i := rfl
@[simp] theorem clearStatus_seenPad : (clearStatus s).seenPad = s.seenPad := rfl
@[simp] theorem clearStatus_pad : (clearStatus s).pad = s.pad := rfl
@[simp] theorem clearStatus_outl : (clearStatus s).outl = s.outl := rfl
@[simp] theorem clearStatus_acc : (clearStatus s).acc = s.acc := rfl
@[simp] theorem clearStatus_cnt : (clearStatus s).cnt = s.cnt := rfl
@[simp] theorem clearStatus_j : (clearStatus s).j = s.j := rfl
@[simp] theorem clearStatus_pending : (clearStatus s).pending = s.pending := rfl
@[simp] theorem clearStatus_engineDue : (clearStatus s).engineDue = s.engineDue := rfl
@[simp] theorem clearStatus_resp : (clearStatus s).resp = s.resp := rfl

/-! ### acceptStart -/

@[simp] theorem acceptStart_done : (acceptStart s).done = false := rfl
@[simp] theorem acceptStart_err : (acceptStart s).err = false := rfl
@[simp] theorem acceptStart_errCode : (acceptStart s).errCode = .none := rfl
@[simp] theorem acceptStart_cmdErr : (acceptStart s).cmdErr = s.cmdErr := rfl
@[simp] theorem acceptStart_busyWr : (acceptStart s).busyWr = s.busyWr := rfl
@[simp] theorem acceptStart_doneIe : (acceptStart s).doneIe = s.doneIe := rfl
@[simp] theorem acceptStart_inLen : (acceptStart s).inLen = s.inLen := rfl
@[simp] theorem acceptStart_outLen : (acceptStart s).outLen = 0#32 := rfl
@[simp] theorem acceptStart_padCnt : (acceptStart s).padCnt = 0#32 := rfl
@[simp] theorem acceptStart_errPos : (acceptStart s).errPos = 0#32 := rfl
@[simp] theorem acceptStart_inCap : (acceptStart s).inCap = s.inCap := rfl
@[simp] theorem acceptStart_lut : (acceptStart s).lut = s.lut := rfl
@[simp] theorem acceptStart_inMem : (acceptStart s).inMem = s.inMem := rfl
@[simp] theorem acceptStart_outMem : (acceptStart s).outMem = s.outMem := rfl
@[simp] theorem acceptStart_phase : (acceptStart s).phase = .len := rfl
@[simp] theorem acceptStart_n : (acceptStart s).n = s.inLen.setWidth 17 := rfl
@[simp] theorem acceptStart_i : (acceptStart s).i = s.i := rfl
@[simp] theorem acceptStart_seenPad : (acceptStart s).seenPad = s.seenPad := rfl
@[simp] theorem acceptStart_pad : (acceptStart s).pad = s.pad := rfl
@[simp] theorem acceptStart_outl : (acceptStart s).outl = s.outl := rfl
@[simp] theorem acceptStart_acc : (acceptStart s).acc = s.acc := rfl
@[simp] theorem acceptStart_cnt : (acceptStart s).cnt = s.cnt := rfl
@[simp] theorem acceptStart_j : (acceptStart s).j = s.j := rfl
@[simp] theorem acceptStart_pending : (acceptStart s).pending = s.pending := rfl
@[simp] theorem acceptStart_engineDue : (acceptStart s).engineDue = s.engineDue := rfl
@[simp] theorem acceptStart_resp : (acceptStart s).resp = s.resp := rfl

/-! ### dropWrite -/

@[simp] theorem dropWrite_done : (dropWrite s).done = s.done := rfl
@[simp] theorem dropWrite_err : (dropWrite s).err = s.err := rfl
@[simp] theorem dropWrite_errCode : (dropWrite s).errCode = s.errCode := rfl
@[simp] theorem dropWrite_cmdErr : (dropWrite s).cmdErr = s.cmdErr := rfl
@[simp] theorem dropWrite_busyWr : (dropWrite s).busyWr = true := rfl
@[simp] theorem dropWrite_doneIe : (dropWrite s).doneIe = s.doneIe := rfl
@[simp] theorem dropWrite_inLen : (dropWrite s).inLen = s.inLen := rfl
@[simp] theorem dropWrite_outLen : (dropWrite s).outLen = s.outLen := rfl
@[simp] theorem dropWrite_padCnt : (dropWrite s).padCnt = s.padCnt := rfl
@[simp] theorem dropWrite_errPos : (dropWrite s).errPos = s.errPos := rfl
@[simp] theorem dropWrite_inCap : (dropWrite s).inCap = s.inCap := rfl
@[simp] theorem dropWrite_lut : (dropWrite s).lut = s.lut := rfl
@[simp] theorem dropWrite_inMem : (dropWrite s).inMem = s.inMem := rfl
@[simp] theorem dropWrite_outMem : (dropWrite s).outMem = s.outMem := rfl
@[simp] theorem dropWrite_phase : (dropWrite s).phase = s.phase := rfl
@[simp] theorem dropWrite_n : (dropWrite s).n = s.n := rfl
@[simp] theorem dropWrite_i : (dropWrite s).i = s.i := rfl
@[simp] theorem dropWrite_seenPad : (dropWrite s).seenPad = s.seenPad := rfl
@[simp] theorem dropWrite_pad : (dropWrite s).pad = s.pad := rfl
@[simp] theorem dropWrite_outl : (dropWrite s).outl = s.outl := rfl
@[simp] theorem dropWrite_acc : (dropWrite s).acc = s.acc := rfl
@[simp] theorem dropWrite_cnt : (dropWrite s).cnt = s.cnt := rfl
@[simp] theorem dropWrite_j : (dropWrite s).j = s.j := rfl
@[simp] theorem dropWrite_pending : (dropWrite s).pending = s.pending := rfl
@[simp] theorem dropWrite_engineDue : (dropWrite s).engineDue = s.engineDue := rfl
@[simp] theorem dropWrite_resp : (dropWrite s).resp = s.resp := rfl

/-! ### acceptByte -/

@[simp] theorem acceptByte_done : (acceptByte s).done = s.done := rfl
@[simp] theorem acceptByte_err : (acceptByte s).err = s.err := rfl
@[simp] theorem acceptByte_errCode : (acceptByte s).errCode = s.errCode := rfl
@[simp] theorem acceptByte_cmdErr : (acceptByte s).cmdErr = s.cmdErr := rfl
@[simp] theorem acceptByte_busyWr : (acceptByte s).busyWr = s.busyWr := rfl
@[simp] theorem acceptByte_doneIe : (acceptByte s).doneIe = s.doneIe := rfl
@[simp] theorem acceptByte_inLen : (acceptByte s).inLen = s.inLen := rfl
@[simp] theorem acceptByte_outLen : (acceptByte s).outLen = s.outLen := rfl
@[simp] theorem acceptByte_padCnt : (acceptByte s).padCnt = s.padCnt := rfl
@[simp] theorem acceptByte_errPos : (acceptByte s).errPos = s.errPos := rfl
@[simp] theorem acceptByte_inCap : (acceptByte s).inCap = s.inCap := rfl
@[simp] theorem acceptByte_lut : (acceptByte s).lut = s.lut := rfl
@[simp] theorem acceptByte_inMem : (acceptByte s).inMem = s.inMem := rfl
@[simp] theorem acceptByte_outMem : (acceptByte s).outMem = s.outMem := rfl
@[simp] theorem acceptByte_phase : (acceptByte s).phase = (if atLast s then .prep else s.phase) := rfl
@[simp] theorem acceptByte_n : (acceptByte s).n = s.n := rfl
@[simp] theorem acceptByte_i : (acceptByte s).i = s.i + 1#17 := rfl
@[simp] theorem acceptByte_seenPad : (acceptByte s).seenPad = s.seenPad := rfl
@[simp] theorem acceptByte_pad : (acceptByte s).pad = s.pad := rfl
@[simp] theorem acceptByte_outl : (acceptByte s).outl = s.outl := rfl
@[simp] theorem acceptByte_acc : (acceptByte s).acc = s.acc := rfl
@[simp] theorem acceptByte_cnt : (acceptByte s).cnt = s.cnt := rfl
@[simp] theorem acceptByte_j : (acceptByte s).j = s.j := rfl
@[simp] theorem acceptByte_pending : (acceptByte s).pending = s.pending := rfl
@[simp] theorem acceptByte_engineDue : (acceptByte s).engineDue = s.engineDue := rfl
@[simp] theorem acceptByte_resp : (acceptByte s).resp = s.resp := rfl

/-! ### resetEdge -/

@[simp] theorem resetEdge_done : (resetEdge s).done = false := rfl
@[simp] theorem resetEdge_err : (resetEdge s).err = false := rfl
@[simp] theorem resetEdge_errCode : (resetEdge s).errCode = .none := rfl
@[simp] theorem resetEdge_cmdErr : (resetEdge s).cmdErr = false := rfl
@[simp] theorem resetEdge_busyWr : (resetEdge s).busyWr = false := rfl
@[simp] theorem resetEdge_doneIe : (resetEdge s).doneIe = false := rfl
@[simp] theorem resetEdge_inLen : (resetEdge s).inLen = 0#32 := rfl
@[simp] theorem resetEdge_outLen : (resetEdge s).outLen = 0#32 := rfl
@[simp] theorem resetEdge_padCnt : (resetEdge s).padCnt = 0#32 := rfl
@[simp] theorem resetEdge_errPos : (resetEdge s).errPos = 0#32 := rfl
@[simp] theorem resetEdge_inCap : (resetEdge s).inCap = s.inCap := rfl
@[simp] theorem resetEdge_lut : (resetEdge s).lut = s.lut := rfl
@[simp] theorem resetEdge_inMem : (resetEdge s).inMem = s.inMem := rfl
@[simp] theorem resetEdge_outMem : (resetEdge s).outMem = s.outMem := rfl
@[simp] theorem resetEdge_phase : (resetEdge s).phase = .idle := rfl
@[simp] theorem resetEdge_n : (resetEdge s).n = 0#17 := rfl
@[simp] theorem resetEdge_i : (resetEdge s).i = 0#17 := rfl
@[simp] theorem resetEdge_seenPad : (resetEdge s).seenPad = false := rfl
@[simp] theorem resetEdge_pad : (resetEdge s).pad = 0#2 := rfl
@[simp] theorem resetEdge_outl : (resetEdge s).outl = 0#17 := rfl
@[simp] theorem resetEdge_acc : (resetEdge s).acc = 0#24 := rfl
@[simp] theorem resetEdge_cnt : (resetEdge s).cnt = 0#2 := rfl
@[simp] theorem resetEdge_j : (resetEdge s).j = 0#17 := rfl
@[simp] theorem resetEdge_pending : (resetEdge s).pending = s.pending := rfl
@[simp] theorem resetEdge_engineDue : (resetEdge s).engineDue = false := rfl
@[simp] theorem resetEdge_resp : (resetEdge s).resp = none := rfl

/-! ### storeInWord -/

@[simp] theorem storeInWord_done (k : Nat) (d : Word32) : (storeInWord s k d).done = s.done := rfl
@[simp] theorem storeInWord_err (k : Nat) (d : Word32) : (storeInWord s k d).err = s.err := rfl
@[simp] theorem storeInWord_errCode (k : Nat) (d : Word32) : (storeInWord s k d).errCode = s.errCode := rfl
@[simp] theorem storeInWord_cmdErr (k : Nat) (d : Word32) : (storeInWord s k d).cmdErr = s.cmdErr := rfl
@[simp] theorem storeInWord_busyWr (k : Nat) (d : Word32) : (storeInWord s k d).busyWr = s.busyWr := rfl
@[simp] theorem storeInWord_doneIe (k : Nat) (d : Word32) : (storeInWord s k d).doneIe = s.doneIe := rfl
@[simp] theorem storeInWord_inLen (k : Nat) (d : Word32) : (storeInWord s k d).inLen = s.inLen := rfl
@[simp] theorem storeInWord_outLen (k : Nat) (d : Word32) : (storeInWord s k d).outLen = s.outLen := rfl
@[simp] theorem storeInWord_padCnt (k : Nat) (d : Word32) : (storeInWord s k d).padCnt = s.padCnt := rfl
@[simp] theorem storeInWord_errPos (k : Nat) (d : Word32) : (storeInWord s k d).errPos = s.errPos := rfl
@[simp] theorem storeInWord_inCap (k : Nat) (d : Word32) : (storeInWord s k d).inCap = s.inCap := rfl
@[simp] theorem storeInWord_lut (k : Nat) (d : Word32) : (storeInWord s k d).lut = s.lut := rfl
@[simp] theorem storeInWord_outMem (k : Nat) (d : Word32) : (storeInWord s k d).outMem = s.outMem := rfl
@[simp] theorem storeInWord_phase (k : Nat) (d : Word32) : (storeInWord s k d).phase = s.phase := rfl
@[simp] theorem storeInWord_n (k : Nat) (d : Word32) : (storeInWord s k d).n = s.n := rfl
@[simp] theorem storeInWord_i (k : Nat) (d : Word32) : (storeInWord s k d).i = s.i := rfl
@[simp] theorem storeInWord_seenPad (k : Nat) (d : Word32) : (storeInWord s k d).seenPad = s.seenPad := rfl
@[simp] theorem storeInWord_pad (k : Nat) (d : Word32) : (storeInWord s k d).pad = s.pad := rfl
@[simp] theorem storeInWord_outl (k : Nat) (d : Word32) : (storeInWord s k d).outl = s.outl := rfl
@[simp] theorem storeInWord_acc (k : Nat) (d : Word32) : (storeInWord s k d).acc = s.acc := rfl
@[simp] theorem storeInWord_cnt (k : Nat) (d : Word32) : (storeInWord s k d).cnt = s.cnt := rfl
@[simp] theorem storeInWord_j (k : Nat) (d : Word32) : (storeInWord s k d).j = s.j := rfl
@[simp] theorem storeInWord_pending (k : Nat) (d : Word32) : (storeInWord s k d).pending = s.pending := rfl
@[simp] theorem storeInWord_engineDue (k : Nat) (d : Word32) : (storeInWord s k d).engineDue = s.engineDue := rfl
@[simp] theorem storeInWord_resp (k : Nat) (d : Word32) : (storeInWord s k d).resp = s.resp := rfl

end Sys2Proof.Machine
end

