-- ==== Sys2Proof/Laws/Memory.lean ====
section
/-!
SUPPORT. The laws of the buffers: a read after a write, and that every memory operation keeps the canonical
form.
-/

namespace Sys2Proof.Machine

/-- A read at the written index gives the byte written. -/
@[simp] theorem memGet_memSet_same (m : Memory) (k : Nat) (v : Byte) : memGet (memSet m k v) k = some v := by
  induction m with
  | nil => simp [memSet, memGet]
  | cons c m ih =>
    obtain ⟨a, b⟩ := c
    unfold memSet
    split_ifs with h1 h2
    · simp [memGet]
    · simp [memGet]
    · simp [memGet, h2, ih]

/-- A read at any other index gives what it gave before the write. -/
theorem memGet_memSet_ne (m : Memory) {k l : Nat} (v : Byte) (h : l ≠ k) :
    memGet (memSet m k v) l = memGet m l := by
  induction m with
  | nil => simp [memSet, memGet, h]
  | cons c m ih =>
    obtain ⟨a, b⟩ := c
    unfold memSet
    split_ifs with h1 h2
    · simp [memGet, h]
    · subst h2; simp [memGet, h]
    · simp [memGet, ih]

/-- A read after a write, at any index. -/
theorem memGet_memSet (m : Memory) (k l : Nat) (v : Byte) :
    memGet (memSet m k v) l = if l = k then some v else memGet m l := by
  split_ifs with h
  · rw [h, memGet_memSet_same]
  · exact memGet_memSet_ne m v h

/-- The first index that a buffer lists. -/
def firstIndex : Memory → Option Nat
  | [] => none
  | (a, _) :: _ => some a

/-- A cell in front of a canonical buffer keeps it canonical when its index is below every other. -/
theorem Memory.wf_cons (bound a : Nat) (b : Byte) (m : Memory) :
    Memory.wf bound ((a, b) :: m) = true ↔
      a < bound ∧ Memory.wf bound m = true ∧ ∀ c ∈ firstIndex m, a < c := by
  induction m generalizing a b with
  | nil => simp [Memory.wf, firstIndex]
  | cons c m ih =>
    obtain ⟨d, e⟩ := c
    simp only [Memory.wf, Bool.and_eq_true, decide_eq_true_eq, firstIndex, Option.mem_def, Option.some.injEq,
      forall_eq']
    constructor
    · rintro ⟨h1, h2⟩
      have h3 := ((ih d e).1 h2).1
      exact ⟨by omega, h2, h1⟩
    · rintro ⟨_, h2, h3⟩
      exact ⟨h3, h2⟩

/-- The first index after a write is the smaller of the two. -/
theorem firstIndex_memSet (m : Memory) (k : Nat) (v : Byte) :
    firstIndex (memSet m k v) = some (match firstIndex m with | none => k | some a => min a k) := by
  cases m with
  | nil => rfl
  | cons c m =>
    obtain ⟨a, b⟩ := c
    unfold memSet
    split_ifs with h1 h2
    · simp [firstIndex]; omega
    · simp [firstIndex, h2]
    · simp [firstIndex]; omega

/-- A write below the bound keeps the canonical form. -/
theorem memSet_wf {bound : Nat} {m : Memory} {k : Nat} (v : Byte) (hm : Memory.wf bound m = true)
    (hk : k < bound) : Memory.wf bound (memSet m k v) = true := by
  induction m with
  | nil => simpa [memSet, Memory.wf] using hk
  | cons c m ih =>
    obtain ⟨a, b⟩ := c
    obtain ⟨ha, hm', hf⟩ := (Memory.wf_cons ..).1 hm
    unfold memSet
    split_ifs with h1 h2
    · exact (Memory.wf_cons ..).2 ⟨hk, hm, by simpa [firstIndex] using h1⟩
    · exact (Memory.wf_cons ..).2 ⟨hk, hm', by simpa [h2] using hf⟩
    · refine (Memory.wf_cons ..).2 ⟨ha, ih hm', ?_⟩
      intro c hc
      rw [firstIndex_memSet] at hc
      cases hfi : firstIndex m with
      | none => simp [hfi] at hc; omega
      | some d =>
        have := hf d (by simp [hfi])
        have hcd : min d k = c := by simpa [hfi] using hc
        omega

/-- Nothing is written at power-on, which is canonical. -/
theorem reset_buffers_wf : Memory.wf State.reset.inCap State.reset.inMem = true ∧
    Memory.wf (outCap State.reset) State.reset.outMem = true := ⟨rfl, rfl⟩

/-- An IN_MEM byte depends on the buffer alone. -/
theorem inByte_congr {s t : State} (h : t.inMem = s.inMem) (k : Nat) : inByte t k = inByte s k := by
  simp [inByte, h]

/-- An OUT_MEM byte depends on the buffer alone. -/
theorem outByte_congr {s t : State} (h : t.outMem = s.outMem) (k : Nat) : outByte t k = outByte s k := by
  simp [outByte, h]

/-- InRead answers exactly below IN_CAP, and then the byte. -/
theorem inRead_eq_some {s : State} {k : Nat} {c : Byte} :
    inRead s k = some c ↔ k < s.inCap ∧ inByte s k = c := by
  unfold inRead; split_ifs with h <;> simp [h]

/-- InRead answers below IN_CAP. -/
theorem inRead_of_lt {s : State} {k : Nat} (h : k < s.inCap) : inRead s k = some (inByte s k) := by
  simp [inRead, h]

/-- What OutWrite does when it answers: it lies below OUT_CAP and changes OUT_MEM alone. -/
theorem outWrite_eq_some {s t : State} {k : Nat} {b : Byte} :
    outWrite s k b = some t ↔ k < outCap s ∧ t = { s with outMem := memSet s.outMem k b } := by
  unfold outWrite; split_ifs with h <;> simp [h, eq_comm]

/-- Everything OutWrite of several bytes can do when it answers: OUT_MEM alone changes, to the bytes at the
indices from k on, and the canonical form is kept. -/
theorem outWriteAll_spec {s t : State} {k : Nat} {bs : List Byte} (h : outWriteAll s k bs = some t) :
    t = { s with outMem := t.outMem } ∧
      (∀ l, outByte t l = if k ≤ l ∧ l < k + bs.length then bs.getD (l - k) 0#8 else outByte s l) ∧
      (Memory.wf (outCap s) s.outMem = true → Memory.wf (outCap s) t.outMem = true) := by
  induction bs generalizing s k with
  | nil =>
    obtain rfl : s = t := by simpa [outWriteAll] using h
    exact ⟨rfl, fun l => by simp, id⟩
  | cons b bs ih =>
    unfold outWriteAll at h
    cases hw : outWrite s k b with
    | none => simp [hw] at h
    | some u =>
      simp only [hw] at h
      obtain ⟨hk, rfl⟩ := outWrite_eq_some.1 hw
      obtain ⟨h1, h2, h3⟩ := ih h
      refine ⟨by rw [h1], fun l => ?_, fun hm => h3 (memSet_wf b hm hk)⟩
      rw [h2 l]
      have hb : outByte { s with outMem := memSet s.outMem k b } l = if l = k then b else outByte s l := by
        simp only [outByte, memGet_memSet]; split_ifs <;> rfl
      rw [hb]
      simp only [List.length_cons]
      by_cases hl : l = k
      · subst hl; simp
      · by_cases hr : k + 1 ≤ l ∧ l < k + 1 + bs.length
        · rw [if_pos hr, if_pos (by omega)]
          obtain ⟨m, hm⟩ : ∃ m, l - k = m + 1 := ⟨l - k - 1, by omega⟩
          rw [hm, List.getD_cons_succ, show l - (k + 1) = m by omega]
        · rw [if_neg hr, if_neg hl, if_neg (by omega)]

/-- OutWrite of several bytes answers when they all lie below OUT_CAP. -/
theorem outWriteAll_isSome {s : State} {k : Nat} {bs : List Byte} (h : k + bs.length ≤ outCap s) :
    ∃ t, outWriteAll s k bs = some t := by
  induction bs generalizing s k with
  | nil => exact ⟨s, rfl⟩
  | cons b bs ih =>
    simp only [List.length_cons] at h
    have hk : k < outCap s := by omega
    have hw : outWrite s k b = some { s with outMem := memSet s.outMem k b } := outWrite_eq_some.2 ⟨hk, rfl⟩
    obtain ⟨t, ht⟩ := ih (s := { s with outMem := memSet s.outMem k b }) (k := k + 1) (by
      show k + 1 + bs.length ≤ outCap s; omega)
    exact ⟨t, by simp [outWriteAll, hw, ht]⟩

/-- The four bytes a stored window word changes (R86, R228). -/
theorem inByte_storeInWord (s : State) (k l : Nat) (d : Word32) :
    inByte (storeInWord s k d) l = if k ≤ l ∧ l < k + 4 then lane d (l - k) else inByte s l := by
  simp only [inByte, storeInWord, memGet_memSet]
  by_cases h : k ≤ l ∧ l < k + 4
  · obtain ⟨m, rfl⟩ : ∃ m, l = k + m := ⟨l - k, by omega⟩
    have hm : m = 0 ∨ m = 1 ∨ m = 2 ∨ m = 3 := by omega
    rcases hm with rfl | rfl | rfl | rfl <;> simp
  · rw [if_neg h, if_neg (by omega), if_neg (by omega), if_neg (by omega), if_neg (by omega)]

/-- Storing a window word below IN_CAP keeps IN_MEM canonical. -/
theorem storeInWord_wf {s : State} {k : Nat} (d : Word32) (hm : Memory.wf s.inCap s.inMem = true)
    (hk : k + 3 < s.inCap) : Memory.wf (storeInWord s k d).inCap (storeInWord s k d).inMem = true :=
  memSet_wf _ (memSet_wf _ (memSet_wf _ (memSet_wf _ hm (show k < s.inCap by omega))
    (show k + 1 < s.inCap by omega)) (show k + 2 < s.inCap by omega)) (show k + 3 < s.inCap by omega)

end Sys2Proof.Machine
end

