-- ==== Sys2Proof/Laws/Lut.lean ====
section
/-!
SUPPORT. The laws of the ROM's contents (R110 to R114) and of the codes of PHASE and CLASS (R123, R124).
-/

namespace Sys2Proof.Machine

/-- Entry c of the ROM is the LUT word of byte c. -/
theorem lutRom_get (c : Byte) : lutRom.get c.toFin = lutWord c := by
  have h : lutRom.get c.toFin = lutWord (BitVec.ofNat 8 c.toFin.val) := by
    simp [lutRom, Vector.get_eq_getElem]
  rw [h]
  simp

/-- With the ROM in place LUT reads the LUT word. -/
theorem lutRead_rom {s : State} (h : s.lut = lutRom) (c : Byte) : lutRead s c = lutWord c := by
  rw [lutRead, h, lutRom_get]

/-- No ROM word has the class 11 (R112). -/
theorem classOf_ne_never (c : Byte) : classOf c ≠ .never := by
  revert c; decide

/-- The padding byte is the only one of its class (R113). -/
theorem classOf_eq_pad (c : Byte) : classOf c = .pad ↔ c = padByte := by
  revert c; decide

/-- Every byte is a symbol, the padding byte or invalid (R110). -/
theorem classOf_cases (c : Byte) : classOf c = .sym ∨ classOf c = .pad ∨ classOf c = .inv := by
  have := classOf_ne_never c
  cases h : classOf c <;> simp_all

/-- The code of a phase decodes to it (R123). -/
@[simp] theorem phaseOfCode_phaseCode (p : Phase) : phaseOfCode (phaseCode p) = p := by cases p <;> rfl

/-- The phase of a code has that code (R123). -/
@[simp] theorem phaseCode_phaseOfCode (c : BitVec 3) : phaseCode (phaseOfCode c) = c := by
  revert c; decide

end Sys2Proof.Machine
end

