-- ==== Sys2Proof/Laws/Ops.lean ====
section
/-!
SUPPORT. For each shared operation, what it can do, said once.
-/

namespace Sys2Proof.Machine

/-- BUSY is exactly PHASE ≠ IDLE (R37). -/
theorem busy_iff (s : State) : s.busy = true ↔ s.phase ≠ .idle := by simp [State.busy]

/-- BUSY is 0 exactly when PHASE = IDLE (R37). -/
theorem not_busy_iff (s : State) : s.busy = false ↔ s.phase = .idle := by simp [State.busy]

/-- The condition `I = N - 1` on naturals. -/
theorem atLast_iff (s : State) : atLast s = true ↔ s.i.toNat + 1 = s.n.toNat := by simp [atLast]

/-- START does one of two things (R192, R193): it is accepted, or it only sets CMDERR. -/
theorem startRun_cases (s : State) :
    (s.phase = .idle ∧ s.inLen.toNat ≤ s.inCap ∧ startRun s = acceptStart s) ∨
      ((s.phase ≠ .idle ∨ s.inCap < s.inLen.toNat) ∧ startRun s = { s with cmdErr := true }) := by
  unfold startRun
  split_ifs with h
  · exact .inl ⟨h.1, h.2, rfl⟩
  · refine .inr ⟨?_, rfl⟩
    by_cases hp : s.phase = .idle
    · exact .inr (by have := not_and.1 h hp; omega)
    · exact .inl hp

/-- An emission of a full group (R153) writes its three bytes at J when they fit below OUTL, or nothing, and
changes only OUT_MEM and J. -/
theorem emitGroup_spec {s t : State} {a : BitVec 24} (h : emitGroup s a = some t) :
    t = { s with outMem := t.outMem, j := t.j } ∧
      (s.j.toNat + 3 ≤ s.outl.toNat → t.j = s.j + 3#17 ∧ ∀ l, outByte t l =
        if s.j.toNat ≤ l ∧ l < s.j.toNat + 3 then [accHi a, accMid a, accLo a].getD (l - s.j.toNat) 0#8
        else outByte s l) ∧
      (s.outl.toNat < s.j.toNat + 3 → t = s) ∧
      (Memory.wf (outCap s) s.outMem = true → Memory.wf (outCap s) t.outMem = true) := by
  unfold emitGroup at h
  split_ifs at h with hb
  · cases hw : outWriteAll s s.j.toNat [accHi a, accMid a, accLo a] with
    | none => simp [hw] at h
    | some u =>
      obtain ⟨h1, h2, h3⟩ := outWriteAll_spec hw
      obtain rfl : { u with j := s.j + 3#17 } = t := by simpa [hw] using h
      refine ⟨by rw [h1], fun _ => ⟨rfl, fun l => ?_⟩, fun hlt => by omega, h3⟩
      rw [← show outByte u l = outByte { u with j := s.j + 3#17 } l from rfl, h2 l]
      simp
  · obtain rfl : s = t := by simpa using h
    exact ⟨rfl, fun hle => absurd hle hb, fun _ => rfl, id⟩

/-- An emission of a full group answers when OUTL lies within OUT_CAP. -/
theorem emitGroup_isSome {s : State} (a : BitVec 24) (h : s.outl.toNat ≤ outCap s) : ∃ t, emitGroup s a = some t := by
  unfold emitGroup
  split_ifs with hb
  · obtain ⟨u, hu⟩ := outWriteAll_isSome (s := s) (k := s.j.toNat) (bs := [accHi a, accMid a, accLo a])
      (by simpa using by omega)
    exact ⟨_, by rw [hu]⟩
  · exact ⟨s, rfl⟩

/-- The emissions of TAIL (R156): the bytes that lie below OUTL are written at the indices from k on and
counted, and nothing but OUT_MEM changes. -/
theorem emitTail_spec {s t : State} {k m : Nat} {bs : List Byte} (h : emitTail s k bs = some (t, m)) :
    t = { s with outMem := t.outMem } ∧ m = min bs.length (s.outl.toNat - k) ∧
      (∀ l, outByte t l = if k ≤ l ∧ l < k + m then bs.getD (l - k) 0#8 else outByte s l) ∧
      (Memory.wf (outCap s) s.outMem = true → Memory.wf (outCap s) t.outMem = true) := by
  induction bs generalizing s k m with
  | nil =>
    obtain ⟨rfl, rfl⟩ : s = t ∧ 0 = m := by simpa [emitTail] using h
    exact ⟨rfl, by simp, fun l => by simp, id⟩
  | cons b bs ih =>
    unfold emitTail at h
    split_ifs at h with hk
    · cases hw : outWrite s k b with
      | none => simp [hw] at h
      | some u =>
        obtain ⟨hc, rfl⟩ := outWrite_eq_some.1 hw
        cases he : emitTail { s with outMem := memSet s.outMem k b } (k + 1) bs with
        | none => simp [hw, he] at h
        | some r =>
          obtain ⟨v, c⟩ := r
          obtain ⟨rfl, rfl⟩ : v = t ∧ c + 1 = m := by simpa [hw, he] using h
          obtain ⟨h1, h2, h3, h4⟩ := ih he
          refine ⟨by rw [h1], ?_, fun l => ?_, fun hm => h4 (memSet_wf b hm hc)⟩
          · simp only [List.length_cons, h2]; omega
          · rw [h3 l]
            have hb : outByte { s with outMem := memSet s.outMem k b } l = if l = k then b else outByte s l := by
              simp only [outByte, memGet_memSet]; split_ifs <;> rfl
            rw [hb]
            by_cases hl : l = k
            · subst hl; simp
            · by_cases hr : k + 1 ≤ l ∧ l < k + 1 + c
              · rw [if_pos hr, if_pos (by omega)]
                obtain ⟨d, hd⟩ : ∃ d, l - k = d + 1 := ⟨l - k - 1, by omega⟩
                rw [hd, List.getD_cons_succ, show l - (k + 1) = d by omega]
              · rw [if_neg hr, if_neg hl, if_neg (by omega)]
    · obtain ⟨h1, h2, h3, h4⟩ := ih h
      have hm : m = 0 := by omega
      refine ⟨h1, by omega, fun l => ?_, h4⟩
      rw [h3 l, if_neg (by omega), if_neg (by omega)]

/-- The emissions of TAIL answer when OUTL lies within OUT_CAP. -/
theorem emitTail_isSome {s : State} (k : Nat) (bs : List Byte) (h : s.outl.toNat ≤ outCap s) :
    ∃ t m, emitTail s k bs = some (t, m) := by
  induction bs generalizing s k with
  | nil => exact ⟨s, 0, rfl⟩
  | cons b bs ih =>
    unfold emitTail
    split_ifs with hk
    · have hw : outWrite s k b = some { s with outMem := memSet s.outMem k b } :=
        outWrite_eq_some.2 ⟨by omega, rfl⟩
      obtain ⟨t, m, ht⟩ := ih (s := { s with outMem := memSet s.outMem k b }) (k := k + 1) h
      exact ⟨t, m + 1, by simp [hw, ht]⟩
    · exact ih (k + 1) h

/-- A read from the end of the input answers its byte when the input is long enough and fits IN_MEM. -/
theorem readFromEnd_ok {s : State} {k : Nat} (hk : k ≤ s.n.toNat) (h0 : 0 < k) (hn : s.n.toNat ≤ s.inCap) :
    readFromEnd s k = .ok (inByte s (s.n.toNat - k)) := by
  rw [readFromEnd, if_neg (by omega), inRead_of_lt (by omega)]

/-- The paddingCount of PREP on an input of at least two bytes (R145, R152). -/
theorem countPad_ok {s : State} (h2 : 2 ≤ s.n.toNat) (hn : s.n.toNat ≤ s.inCap) :
    countPad s = .ok (if inByte s (s.n.toNat - 1) = padByte then
      (if inByte s (s.n.toNat - 2) = padByte then 2 else 1) else 0) := by
  unfold countPad
  rw [readFromEnd_ok (by omega) (by omega) hn, readFromEnd_ok h2 (by omega) hn]
  dsimp only
  split_ifs <;> rfl

end Sys2Proof.Machine
end

