-- ==== Sys2Proof/Laws/Decode.lean ====
section
/-!
SUPPORT. The bytes of a code are read back as that code (30_encoding.md R118, R122, R125).
-/

namespace Sys2Proof

open Sys2Proof.Machine

/-- The format of a code. -/
def codeFormat : Code → Format
  | .td _ _ => .td
  | .ctrl _ => .ctrl
  | .sel _ => .sel

/-- A code as a transaction carries it: a read has no write data (R118). -/
def carried : Code → Code
  | .td td wdata => .td td (if tdW td then wdata else 0#32)
  | .ctrl wdata => .ctrl wdata
  | .sel sel => .sel sel

/-- The lanes of a data word make up the word (R86). -/
theorem wordOfLanes_lane (d : Word32) : wordOfLanes (lane d 0) (lane d 1) (lane d 2) (lane d 3) = d := by
  apply BitVec.eq_of_getLsbD_eq
  intro k hk
  simp only [wordOfLanes, lane, BitVec.getLsbD_append, BitVec.getLsbD_extractLsb']
  by_cases h1 : k < 8
  · simp [h1]
  · by_cases h2 : k - 8 < 8
    · simp [h1, h2]; congr 1; omega
    · by_cases h3 : k - 8 - 8 < 8
      · simp [h1, h2, h3]; congr 1; omega
      · simp [h1, h2, h3]
        rw [show 24 + (k - 8 - 8 - 8) = k by omega]
        simp [show k - 8 - 8 - 8 < 8 by omega]

/-- Lane k of a word made of four bytes is byte k (R86). -/
theorem lane_wordOfLanes (b0 b1 b2 b3 : Byte) :
    lane (wordOfLanes b0 b1 b2 b3) 0 = b0 ∧ lane (wordOfLanes b0 b1 b2 b3) 1 = b1 ∧
      lane (wordOfLanes b0 b1 b2 b3) 2 = b2 ∧ lane (wordOfLanes b0 b1 b2 b3) 3 = b3 := by
  refine ⟨?_, ?_, ?_, ?_⟩ <;>
  · apply BitVec.eq_of_getLsbD_eq
    intro k hk
    simp only [wordOfLanes, lane, BitVec.getLsbD_append, BitVec.getLsbD_extractLsb']
    simp [hk, show ¬ (8 + k < 8) by omega, show ¬ (16 + k < 8) by omega, show ¬ (24 + k < 8) by omega,
      show ¬ (16 + k - 8 < 8) by omega, show ¬ (24 + k - 8 < 8) by omega, show ¬ (24 + k - 8 - 8 < 8) by omega,
      show 8 + k - 8 = k by omega, show 16 + k - 8 - 8 = k by omega, show 24 + k - 8 - 8 - 8 = k by omega]

/-- The three bytes of a descriptor make it up. -/
theorem td_of_bytes (td : TD) :
    (((td.extractLsb' 16 5).setWidth 8 ++ td.extractLsb' 8 8 ++ td.extractLsb' 0 8).setWidth 21 : TD) = td := by
  apply BitVec.eq_of_getLsbD_eq
  intro k hk
  simp only [BitVec.getLsbD_setWidth, BitVec.getLsbD_append, BitVec.getLsbD_extractLsb']
  by_cases h1 : k < 8
  · simp [h1, hk]
  · by_cases h2 : k - 8 < 8
    · simp only [h1, h2, hk, show 8 + (k - 8) = k by omega]; simp
    · simp only [h1, h2, hk, show 16 + (k - 8 - 8) = k by omega]
      simp [show k - 8 - 8 < 5 by omega, show k - 8 - 8 < 8 by omega]

/-- The decoder reads the bytes of a code back, whatever follows them. -/
theorem decode_codeBytes (cap : Nat) (c : Code) (rest : List Byte) :
    decode cap (codeFormat c) (codeBytes c ++ rest) = .ok (decodeCode cap (carried c), rest) := by
  cases c with
  | td td wdata =>
    have hb : ¬ 0x20 ≤ ((td.extractLsb' 16 5).setWidth 8).toNat := by
      rw [BitVec.toNat_setWidth, Nat.mod_eq_of_lt (by have := (td.extractLsb' 16 5).isLt; omega)]
      have := (td.extractLsb' 16 5).isLt; omega
    simp only [codeBytes, codeFormat, List.cons_append, List.nil_append, decode, if_neg hb, td_of_bytes, carried,
      decodeCode]
    by_cases hw : tdW td = true
    · simp only [hw, if_true, wordBytes, List.cons_append, List.nil_append, wordOfLanes_lane]
    · simp only [hw, Bool.false_eq_true, if_false, List.nil_append]
  | ctrl wdata => simp only [codeBytes, codeFormat, wordBytes, List.cons_append, List.nil_append, decode,
      wordOfLanes_lane, carried, decodeCode]
  | sel sel =>
    have hb : ¬ 0x20 ≤ (sel.setWidth 8).toNat := by
      rw [BitVec.toNat_setWidth, Nat.mod_eq_of_lt (by have := sel.isLt; omega)]
      have := sel.isLt; omega
    simp only [codeBytes, codeFormat, List.cons_append, List.nil_append, decode, if_neg hb, carried, decodeCode]
    rw [BitVec.setWidth_setWidth_of_le _ (by decide), BitVec.setWidth_eq]

end Sys2Proof
end

