-- ==== Sys2Proof/Laws/PerInstr.lean ====
section
/-!
SUPPORT. A law of every operation as syntax, one lemma per constructor: the decoder accepts its bytes in its
own format, whatever follows them, and leaves what follows untouched.
-/

namespace Sys2Proof.Laws

open Sys2Proof

/-- The decoder accepts the operation's bytes and stops exactly at their end. -/
def Accepted.Statement (i : Instr) : Prop :=
  ∀ (cap : Nat) (rest : List Byte), ∃ j, decode cap i.format (encodeBytes i ++ rest) = .ok (j, rest)

/-- An operation whose code has its format is accepted. -/
theorem accepted_of_format {i : Instr} (h : codeFormat (encode i) = i.format) : Accepted.Statement i :=
  fun cap rest => ⟨_, h ▸ decode_codeBytes cap (encode i) rest⟩

theorem Accepted.rdId : Accepted.Statement (.rdId) :=
  accepted_of_format rfl

theorem Accepted.rdCap : Accepted.Statement (.rdCap) :=
  accepted_of_format rfl

theorem Accepted.rdCtrl : Accepted.Statement (.rdCtrl) :=
  accepted_of_format rfl

theorem Accepted.rdStatus : Accepted.Statement (.rdStatus) :=
  accepted_of_format rfl

theorem Accepted.rdIrqEn : Accepted.Statement (.rdIrqEn) :=
  accepted_of_format rfl

theorem Accepted.rdInLen : Accepted.Statement (.rdInLen) :=
  accepted_of_format rfl

theorem Accepted.rdOutLen : Accepted.Statement (.rdOutLen) :=
  accepted_of_format rfl

theorem Accepted.rdPadCnt : Accepted.Statement (.rdPadCnt) :=
  accepted_of_format rfl

theorem Accepted.rdErrPos : Accepted.Statement (.rdErrPos) :=
  accepted_of_format rfl

theorem Accepted.rdIn (w : BitVec 14) : Accepted.Statement (.rdIn w) :=
  accepted_of_format rfl

theorem Accepted.rdOut (w : BitVec 14) : Accepted.Statement (.rdOut w) :=
  accepted_of_format rfl

theorem Accepted.wrId (wdata : Word32) : Accepted.Statement (.wrId wdata) :=
  accepted_of_format rfl

theorem Accepted.wrCap (wdata : Word32) : Accepted.Statement (.wrCap wdata) :=
  accepted_of_format rfl

theorem Accepted.wrCtrl (wdata : Word32) : Accepted.Statement (.wrCtrl wdata) :=
  accepted_of_format rfl

theorem Accepted.wrStatus (wdata : Word32) : Accepted.Statement (.wrStatus wdata) :=
  accepted_of_format rfl

theorem Accepted.wrIrqEn (wdata : Word32) : Accepted.Statement (.wrIrqEn wdata) :=
  accepted_of_format rfl

theorem Accepted.wrInLen (wdata : Word32) : Accepted.Statement (.wrInLen wdata) :=
  accepted_of_format rfl

theorem Accepted.wrOutLen (wdata : Word32) : Accepted.Statement (.wrOutLen wdata) :=
  accepted_of_format rfl

theorem Accepted.wrPadCnt (wdata : Word32) : Accepted.Statement (.wrPadCnt wdata) :=
  accepted_of_format rfl

theorem Accepted.wrErrPos (wdata : Word32) : Accepted.Statement (.wrErrPos wdata) :=
  accepted_of_format rfl

theorem Accepted.wrIn (w : BitVec 14) (wdata : Word32) : Accepted.Statement (.wrIn w wdata) :=
  accepted_of_format rfl

theorem Accepted.wrOut (w : BitVec 14) (wdata : Word32) : Accepted.Statement (.wrOut w wdata) :=
  accepted_of_format rfl

theorem Accepted.bad (td : TD) : Accepted.Statement (.bad td) :=
  accepted_of_format rfl

theorem Accepted.nop (reserved : BitVec 30) : Accepted.Statement (.nop reserved) :=
  accepted_of_format rfl

theorem Accepted.start (reserved : BitVec 30) : Accepted.Statement (.start reserved) :=
  accepted_of_format rfl

theorem Accepted.clr (reserved : BitVec 30) : Accepted.Statement (.clr reserved) :=
  accepted_of_format rfl

theorem Accepted.clrStart (reserved : BitVec 30) : Accepted.Statement (.clrStart reserved) :=
  accepted_of_format rfl

theorem Accepted.idle (cls : BitVec 2) : Accepted.Statement (.idle cls) :=
  accepted_of_format rfl

theorem Accepted.len (cls : BitVec 2) : Accepted.Statement (.len cls) :=
  accepted_of_format rfl

theorem Accepted.valSym : Accepted.Statement (.valSym) :=
  accepted_of_format rfl

theorem Accepted.valPad : Accepted.Statement (.valPad) :=
  accepted_of_format rfl

theorem Accepted.valInv : Accepted.Statement (.valInv) :=
  accepted_of_format rfl

theorem Accepted.prep (cls : BitVec 2) : Accepted.Statement (.prep cls) :=
  accepted_of_format rfl

theorem Accepted.decSym : Accepted.Statement (.decSym) :=
  accepted_of_format rfl

theorem Accepted.decPad : Accepted.Statement (.decPad) :=
  accepted_of_format rfl

theorem Accepted.decInv : Accepted.Statement (.decInv) :=
  accepted_of_format rfl

theorem Accepted.tail (cls : BitVec 2) : Accepted.Statement (.tail cls) :=
  accepted_of_format rfl

theorem Accepted.unreachablePhase (low : BitVec 3) : Accepted.Statement (.unreachablePhase low) :=
  accepted_of_format rfl

theorem Accepted.unreachableValClass3 : Accepted.Statement (.unreachableValClass3) :=
  accepted_of_format rfl

theorem Accepted.unreachableDecClass3 : Accepted.Statement (.unreachableDecClass3) :=
  accepted_of_format rfl

end Sys2Proof.Laws
end

