-- ==== Sys2Proof/Laws/Step.lean ====
section
/-!
SUPPORT. What a transaction, an engine step and one step of the machine can do, each said once.
-/

namespace Sys2Proof.Machine

open Sys2Proof

/-- The effect of a transaction on the block, its answer aside. -/
inductive TxnEffect (s : State) : State → Prop
  | none : TxnEffect s s
  | irqEn (b : Bool) : TxnEffect s { s with doneIe := b }
  | drop : s.phase ≠ .idle → TxnEffect s { s with busyWr := true }
  | inLen (d : Word32) : s.phase = .idle → TxnEffect s { s with inLen := d }
  | store (w : BitVec 14) (d : Word32) : s.phase = .idle → laneBase w < s.inCap →
    TxnEffect s (storeInWord s (laneBase w) d)
  | start : TxnEffect s (startRun s)
  | clr : TxnEffect s (clearStatus s)
  | clrStart : TxnEffect s (startRun (clearStatus s))

/-- Every transaction and every command answers, after one of eight effects. -/
theorem exec_txn_cases (i : Instr) (s : State) (hi : i.format ≠ .sel) :
    ∃ u r d, TxnEffect s u ∧ exec i s = .next (answer u r d) := by
  have ho : ∀ r d, ∃ u r' d', TxnEffect s u ∧ (Host.Outcome.next (answer s r d) : Result) = .next (answer u r' d') :=
    fun r d => ⟨s, r, d, .none, rfl⟩
  have hc : ∀ d, ∃ u r' d', TxnEffect s u ∧ execWrCtrl d s = .next (answer u r' d') := by
    intro d
    unfold execWrCtrl
    split
    · exact ho _ _
    · exact ⟨_, _, _, .start, rfl⟩
    · exact ⟨_, _, _, .clr, rfl⟩
    · exact ⟨_, _, _, .clrStart, rfl⟩
  cases i with
  | rdIn w => simp only [exec, execRdIn]; split <;> exact ho _ _
  | rdOut w => simp only [exec, execRdOut]; split <;> exact ho _ _
  | wrCtrl d => exact hc d
  | wrIrqEn d => exact ⟨_, _, _, .irqEn _, rfl⟩
  | wrInLen d =>
    simp only [exec, execWrInLen]
    split
    · exact ⟨_, _, _, .drop ((busy_iff s).1 ‹_›), rfl⟩
    · exact ⟨_, _, _, .inLen d ((not_busy_iff s).1 (Bool.not_eq_true _ ▸ ‹¬_›)), rfl⟩
  | wrIn w d =>
    simp only [exec, execWrIn]
    split
    · split
      · exact ⟨_, _, _, .drop ((busy_iff s).1 ‹_›), rfl⟩
      · exact ⟨_, _, _, .store w d ((not_busy_iff s).1 (Bool.not_eq_true _ ▸ ‹¬_›)) ‹_›, rfl⟩
    · exact ho _ _
  | wrOut w d => simp only [exec, execWrOut]; split <;> exact ho _ _
  | start r => exact ⟨_, _, _, .start, rfl⟩
  | clr r => exact ⟨_, _, _, .clr, rfl⟩
  | clrStart r => exact ⟨_, _, _, .clrStart, rfl⟩
  | _ => first | exact ho _ _ | exact absurd rfl hi

/-- The operation of a descriptor is no engine step (R213). -/
theorem decodeTD_format (cap : Nat) (td : TD) (d : Word32) : (decodeTD cap td d).format ≠ .sel := by
  unfold decodeTD decodeRegister
  repeat' split
  all_goals simp [Instr.format]

/-- What an engine step may do to OUT_MEM: change bytes below OUTL, in canonical form (R101, R153, R156). -/
structure OutputOnly (s : State) (m : Memory) : Prop where
  below : ∀ k, s.outl.toNat ≤ k → (memGet m k).getD (Config.outDraw k) = outByte s k
  wf : Memory.wf (outCap s) s.outMem = true → Memory.wf (outCap s) m = true

/-- The effect of an engine step that does not stop. -/
inductive EngineEffect (s : State) : State → Prop
  | none : EngineEffect s s
  | empty : EngineEffect s (complete s 0#2 0#17)
  | fail (code : ErrCode) (pos : Index) : code ≠ .none → EngineEffect s (raiseDecodeError s code pos)
  | enterVal : EngineEffect s { s with i := 0#17, seenPad := false, phase := .val }
  | accept (b : Bool) : EngineEffect s (acceptByte { s with seenPad := b })
  | enterDec (p : BitVec 2) (l : Index) :
    EngineEffect s { s with pad := p, outl := l, acc := 0#24, cnt := 0#2, i := 0#17, j := 0#17, phase := .dec }
  | symbol (m : Memory) (j : Index) (a : BitVec 24) (c : BitVec 2) : OutputOnly s m →
    EngineEffect s
      { s with
        outMem := m, j := j, acc := a, cnt := c, i := s.i + 1#17, phase := if atLast s then .tail else s.phase }
  | enterTail : EngineEffect s { s with phase := .tail }
  | finish (m : Memory) (j : Index) (a : BitVec 24) : OutputOnly s m →
    EngineEffect s (complete { s with outMem := m, j := j, acc := a } s.pad s.outl)

/-- An engine step that answers a next state has one of nine effects. -/
theorem exec_sel_cases {i : Instr} {s t : State} (hi : i.format = .sel) (h : exec i s = .next t) :
    EngineEffect s t := by
  have same : OutputOnly s s.outMem := ⟨fun _ _ => rfl, id⟩
  cases i with
  | idle c => obtain rfl : s = t := by simpa [exec, execIdle] using h
              exact .none
  | len c =>
    simp only [exec, execLen] at h
    split_ifs at h <;> obtain rfl := by simpa using h
    · exact .empty
    · exact .fail _ _ (by simp)
    · exact .enterVal
  | valSym =>
    simp only [exec, execValSym] at h
    split at h
    · simp at h
    · split_ifs at h <;> obtain rfl := by simpa using h
      · exact .fail _ _ (by simp)
      · exact .accept s.seenPad
  | valPad =>
    simp only [exec, execValPad] at h
    split at h
    · simp at h
    · split_ifs at h <;> obtain rfl := by simpa using h
      · exact .fail _ _ (by simp)
      · exact .accept true
  | valInv =>
    simp only [exec, execValInv] at h
    split at h
    · simp at h
    · obtain rfl := by simpa using h
      exact .fail _ _ (by simp)
  | prep c =>
    simp only [exec, execPrep] at h
    split at h
    · simp at h
    · split_ifs at h
      obtain rfl := by simpa using h
      exact .enterDec _ _
  | decSym =>
    simp only [exec, execDecSym] at h
    split at h
    · simp at h
    · split at h
      · simp at h
      · rename_i u hu
        obtain rfl := by simpa using h
        have hu' : ∃ m j, OutputOnly s m ∧ u = { s with outMem := m, j := j } := by
          split_ifs at hu
          · obtain ⟨h1, h2, h3, h4⟩ := emitGroup_spec hu
            refine ⟨u.outMem, u.j, ⟨fun k hk => ?_, h4⟩, h1⟩
            change outByte u k = _
            by_cases hj : s.j.toNat + 3 ≤ s.outl.toNat
            · rw [(h2 hj).2 k, if_neg (by omega)]
            · rw [h3 (by omega)]
          · obtain rfl := by simpa using hu
            exact ⟨_, _, same, rfl⟩
        obtain ⟨m, j, hm, rfl⟩ := hu'
        exact .symbol m j _ _ hm
  | decPad => obtain rfl := by simpa [exec, execDecPad] using h
              exact .enterTail
  | tail c =>
    simp only [exec, execTail] at h
    split_ifs at h
    · split at h
      · simp at h
      · rename_i u m hu
        obtain rfl := by simpa using h
        obtain ⟨h1, h2, h3, h4⟩ := emitTail_spec hu
        have hm : OutputOnly s u.outMem := ⟨fun k hk => by
          change outByte u k = _
          rw [h3 k, if_neg (by omega)], h4⟩
        rw [h1]
        exact .finish _ _ _ hm
    · obtain rfl := by simpa using h
      exact .finish s.outMem s.j s.acc same
  | decInv | unreachablePhase l | unreachableValClass3 | unreachableDecClass3 => cases h
  | _ => cases hi

/-- The operation of a selector is an engine step (R125). -/
theorem decodeSel_format (sel : Sel) : (decodeSel sel).format = .sel := by
  unfold decodeSel; split <;> rfl

/-- The state that the engine steps from: the machine's, with the cycle input used up and nothing owed. -/
def engineFrom (s : State) : State :=
  if s.engineDue then { s with engineDue := false } else { s with pending := s.pending.tail }

/-- Everything one step that answers a next state can be (R95, R294): a transaction, an engine step, a cycle
that holds the engine back, or a reset edge. -/
theorem step_cases {s t : State} (h : step s = .next t) :
    (∃ txn held rest, s.engineDue = false ∧ s.pending = .cycle (some txn) held :: rest ∧
      exec (decodeTD s.inCap txn.td txn.wdata) { s with pending := rest, engineDue := s.busy && !held } = .next t) ∨
    (∃ sel, selector s = some sel ∧ exec (decodeSel sel) (engineFrom s) = .next t ∧
      (s.engineDue = true ∨ s.pending = [] ∨ ∃ rest, s.pending = .cycle none false :: rest)) ∨
    (∃ rest, s.engineDue = false ∧ s.pending = .cycle none true :: rest ∧ t = { s with pending := rest }) ∨
    (∃ rest, s.engineDue = false ∧ s.pending = .rst :: rest ∧ t = resetEdge { s with pending := rest }) := by
  have hsel : ∀ u : State, u.phase = s.phase → u.i = s.i → u.inCap = s.inCap → u.inMem = s.inMem → u.lut = s.lut →
      selector u = selector s := by
    intro u h1 h2 h3 h4 h5
    simp only [selector, selectorClass, inRead, inByte, lutRead, h1, h2, h3, h4, h5]
  have heng : ∀ u : State, selector u = selector s → u = engineFrom s →
      (s.engineDue = true ∨ s.pending = [] ∨ ∃ rest, s.pending = .cycle none false :: rest) →
      (match fetchEngine u with
        | .run i t => exec i t
        | .edge t => .next t
        | .stop f => .fault f) = Host.Outcome.next t →
      ∃ sel, selector s = some sel ∧ exec (decodeSel sel) (engineFrom s) = .next t ∧
        (s.engineDue = true ∨ s.pending = [] ∨ ∃ rest, s.pending = .cycle none false :: rest) := by
    intro u h1 h2 h3 h4
    unfold fetchEngine at h4
    rw [h1] at h4
    cases hs : selector s with
    | none => simp [hs] at h4
    | some sel => exact ⟨sel, rfl, by simpa [hs, h2] using h4, h3⟩
  unfold step fetch at h
  by_cases hd : s.engineDue = true
  · rw [if_pos hd] at h
    exact .inr (.inl (heng { s with engineDue := false } (by rw [hsel] <;> rfl)
      (by rw [engineFrom, if_pos hd]) (.inl hd) h))
  · have hfrom : engineFrom s = { s with pending := s.pending.tail } := by rw [engineFrom, if_neg hd]
    rw [if_neg hd] at h
    have hd' : s.engineDue = false := by simpa using hd
    obtain ⟨p, hp⟩ : ∃ p, s.pending = p := ⟨_, rfl⟩
    rw [hp] at h
    match p, hp with
    | [], hp =>
      have hs : s = { s with pending := s.pending.tail } := by rw [hp, List.tail_nil, ← hp]
      exact .inr (.inl (heng s rfl (hfrom ▸ hs) (.inr (.inl hp)) h))
    | .cycle (some txn) held :: rest, hp => exact .inl ⟨txn, held, rest, hd', hp, h⟩
    | .cycle none true :: rest, hp =>
      exact .inr (.inr (.inl ⟨rest, hd', hp, by simpa [fetchCycle] using h.symm⟩))
    | .cycle none false :: rest, hp =>
      exact .inr (.inl (heng { s with pending := rest } (by rw [hsel] <;> rfl) (by rw [hfrom, hp, List.tail_cons])
        (.inr (.inr ⟨rest, hp⟩)) h))
    | .rst :: rest, hp => exact .inr (.inr (.inr ⟨rest, hd', hp, by simpa using h.symm⟩))

/-- The step that a class picks in VAL (R125). -/
def valStep : SymClass → Instr
  | .sym => .valSym
  | .pad => .valPad
  | .inv => .valInv
  | .never => .unreachableValClass3

/-- The step that a class picks in DEC (R125). -/
def decStep : SymClass → Instr
  | .sym => .decSym
  | .pad => .decPad
  | .inv => .decInv
  | .never => .unreachableDecClass3

/-- The class that the engine's selector reads (R125). -/
def currentClass (s : State) : SymClass := classOfCode (lutClassBits (lutRead s (inByte s s.i.toNat)))

/-- The step of the engine's own selector, phase by phase (R125, R140). -/
theorem decodeSel_selector {s : State} {sel : Sel} (h : selector s = some sel) :
    (s.phase = .idle ∧ decodeSel sel = .idle 0#2) ∨ (s.phase = .len ∧ decodeSel sel = .len 0#2) ∨
    (s.phase = .val ∧ s.i.toNat < s.inCap ∧ decodeSel sel = valStep (currentClass s)) ∨
    (s.phase = .prep ∧ decodeSel sel = .prep 0#2) ∨
    (s.phase = .dec ∧ s.i.toNat < s.inCap ∧ decodeSel sel = decStep (currentClass s)) ∨
    (s.phase = .tail ∧ decodeSel sel = .tail 0#2) ∨
    ((s.phase = .unused110 ∨ s.phase = .unused111) ∧ ∃ l, decodeSel sel = .unreachablePhase l) := by
  have hv : ∀ c : BitVec 2, decodeSel (0b010#3 ++ c) = valStep (classOfCode c) := by decide
  have hd : ∀ c : BitVec 2, decodeSel (0b100#3 ++ c) = decStep (classOfCode c) := by decide
  have hr : ∀ c, inRead s s.i.toNat = some c → s.i.toNat < s.inCap ∧ inByte s s.i.toNat = c := fun c hc =>
    inRead_eq_some.1 hc
  unfold selector selectorClass at h
  cases hp : s.phase <;> simp only [hp] at h
  case val | dec =>
    cases hi : inRead s s.i.toNat with
    | none => simp [hi] at h
    | some c =>
      obtain ⟨hlt, rfl⟩ := hr c hi
      obtain rfl := by simpa [hi] using h
      simp [phaseCode, hv, hd, currentClass, hlt]
  all_goals
    obtain rfl := by simpa using h
    simp [phaseCode, decodeSel, phaseOfCode, selPhase, selClass]

/-- The engine has a selector where it has an input byte to classify, and always in the other phases. -/
theorem selector_isSome {s : State} (h : s.phase = .val ∨ s.phase = .dec → s.i.toNat < s.inCap) :
    ∃ sel, selector s = some sel := by
  unfold selector selectorClass
  cases hp : s.phase <;> simp_all [inRead_of_lt]

end Sys2Proof.Machine
end

