-- ==== Sys2Proof/Tests/Slice0.lean ====
section
/-!
SUPPORT. Tests of the model, with expected values from spec/: the well-formedness smoke, one word written out for
every operation, the lookup table, one step per engine operation from the traces of 95_test_vectors.md L2.3,
commands and transactions from L2.4 and L2.5, and a witness for the hypotheses of every statement.
-/

namespace Sys2Proof.Tests

open Sys2Proof Sys2Proof.Machine

/-! ### Helpers -/

/-- The cells of a byte list from an index on. -/
def cells (k : Nat) : List Byte → Memory
  | [] => []
  | b :: bs => (k, b) :: cells (k + 1) bs

/-- The input "TWFu" (95_test_vectors.md E2). -/
def twfu : List Byte := [0x54#8, 0x57#8, 0x46#8, 0x75#8]

/-- The input "TWE=" (E3). -/
def twe : List Byte := [0x54#8, 0x57#8, 0x45#8, 0x3D#8]

/-- The input "TQ==" (L2.3). -/
def tq : List Byte := [0x54#8, 0x51#8, 0x3D#8, 0x3D#8]

/-- The input "AB=C" (L2.3, conflict C1). -/
def abc : List Byte := [0x41#8, 0x42#8, 0x3D#8, 0x43#8]

/-- The reset machine with an input written at IN_MEM[0 ..] and IN_LEN set. -/
def loaded (bs : List Byte) : State :=
  { State.reset with inMem := cells 0 bs, inLen := BitVec.ofNat 32 bs.length }

/-- The machine with a run over the input in progress, in a phase. -/
def running (bs : List Byte) (p : Phase) : State := { loaded bs with n := BitVec.ofNat 17 bs.length, phase := p }

/-- "TWFu" after step 9 of its trace: the next step completes the group. -/
def groupState : State := { running twfu .dec with i := 3#17, cnt := 3#2, acc := 0x013585#24, outl := 3#17 }

/-- "TWE=" after step 10 of its trace: the next step is TAIL. -/
def tailState : State :=
  { running twe .tail with i := 3#17, seenPad := true, cnt := 3#2, acc := 0x013584#24, pad := 1#2, outl := 2#17 }

/-- The machine after the good run V2 over "TWFu" (L2.4, L2.5). -/
def good : State :=
  { loaded twfu with
    done := true, outLen := 3#32, n := 4#17, i := 4#17, acc := 0x4D616E#24, outl := 3#17, j := 3#17
    outMem := cells 0 [0x4D#8, 0x61#8, 0x6E#8] }

/-- "TQ==" after step 8 of its trace: the next step is DEC_PAD. -/
def padState : State :=
  { running tq .dec with i := 2#17, seenPad := true, cnt := 2#2, acc := 0x0004D0#24, pad := 2#2, outl := 1#17 }

/-- The machine after the failed run over "ABCDE": ERR_CODE = 1, ERR_POS = 0 (R241). -/
def failed : State :=
  { loaded [0x41#8, 0x42#8, 0x43#8, 0x44#8, 0x45#8] with n := 5#17, done := true, err := true, errCode := .invalidLength }

/-- The machine one cycle after a START of "TWFuTWFu" (L2.4). -/
def busyState : State := running (twfu ++ twfu) .val

/-- What a test looks at: whether a step of the machine leaves a property. -/
def after (r : Result) (p : State → Bool) : Bool :=
  match r with
  | .next t => p t
  | .fault _ => false
  | .refused _ => false

/-- The answer of a transaction is this response and this read data. -/
def answered (r : Resp) (d : Word32) (s : State) : Bool := decide (s.resp = some ⟨r, d⟩)

/-! ### WellFormed: an ill-formed term for each check -/

/-- R121: the last IN window word of the 4096-byte instance exists, the next one does not. -/
theorem test_wf_rdIn : (Instr.rdIn 0x3FF#14).wf 4096 = true ∧ (Instr.rdIn 0x400#14).wf 4096 = false := by decide

theorem test_wf_wrIn : (Instr.wrIn 0x3FF#14 0#32).wf 4096 = true ∧ (Instr.wrIn 0x400#14 0#32).wf 4096 = false := by
  decide

/-- R121: OUT_CAP = 3072, so the last OUT window word is 0x2FF; with IN_CAP = 4 word 0 is partial and exists. -/
theorem test_wf_rdOut : (Instr.rdOut 0x2FF#14).wf 4096 = true ∧ (Instr.rdOut 0x300#14).wf 4096 = false ∧
    (Instr.rdOut 0#14).wf 4 = true ∧ (Instr.rdOut 1#14).wf 4 = false := by decide

theorem test_wf_wrOut : (Instr.wrOut 0x2FF#14 0#32).wf 4096 = true ∧ (Instr.wrOut 0x300#14 0#32).wf 4096 = false := by
  decide

/-- R128: BAD carries an illegal descriptor only; the legal `RD 0x00` is refused. -/
theorem test_wf_bad : (Instr.bad 0x100008#21).wf 4096 = true ∧ (Instr.bad 0x080000#21).wf 4096 = false := by decide

/-! ### Decoding: a word for every operation, written out from 30_encoding.md and 42_bus_access.md -/

/-- R120: W = 0, SZ = 10, OFF. -/
theorem test_decode_register_reads :
    decodeTD 4096 0b0_10_000000000000000000#21 0#32 = .rdId ∧ decodeTD 4096 0b0_10_000000000000000100#21 0#32 = .rdCap ∧
    decodeTD 4096 0b0_10_000000000000001000#21 0#32 = .rdCtrl ∧
    decodeTD 4096 0b0_10_000000000000001100#21 0#32 = .rdStatus ∧
    decodeTD 4096 0b0_10_000000000000010000#21 0#32 = .rdIrqEn ∧
    decodeTD 4096 0b0_10_000000000000010100#21 0#32 = .rdInLen ∧
    decodeTD 4096 0b0_10_000000000000011000#21 0#32 = .rdOutLen ∧
    decodeTD 4096 0b0_10_000000000000011100#21 0#32 = .rdPadCnt ∧
    decodeTD 4096 0b0_10_000000000000100000#21 0#32 = .rdErrPos := by decide

/-- R120: W = 1, SZ = 10, OFF. -/
theorem test_decode_register_writes :
    decodeTD 4096 0b1_10_000000000000000000#21 7#32 = .wrId 7#32 ∧
    decodeTD 4096 0b1_10_000000000000000100#21 7#32 = .wrCap 7#32 ∧
    decodeTD 4096 0b1_10_000000000000001000#21 7#32 = .wrCtrl 7#32 ∧
    decodeTD 4096 0b1_10_000000000000001100#21 7#32 = .wrStatus 7#32 ∧
    decodeTD 4096 0b1_10_000000000000010000#21 7#32 = .wrIrqEn 7#32 ∧
    decodeTD 4096 0b1_10_000000000000010100#21 7#32 = .wrInLen 7#32 ∧
    decodeTD 4096 0b1_10_000000000000011000#21 7#32 = .wrOutLen 7#32 ∧
    decodeTD 4096 0b1_10_000000000000011100#21 7#32 = .wrPadCnt 7#32 ∧
    decodeTD 4096 0b1_10_000000000000100000#21 7#32 = .wrErrPos 7#32 := by decide

/-- R119 and R121: quarter, word index, 00. -/
theorem test_decode_windows :
    decodeTD 4096 0b0_10_01_00001111111111_00#21 0#32 = .rdIn 0x3FF#14 ∧
    decodeTD 4096 0b0_10_10_00000000000001_00#21 0#32 = .rdOut 1#14 ∧
    decodeTD 4096 0b1_10_01_00000000000010_00#21 9#32 = .wrIn 2#14 9#32 ∧
    decodeTD 4096 0b1_10_10_00000000000011_00#21 9#32 = .wrOut 3#14 9#32 := by decide

/-- R128: one illegal descriptor of each kind (L2.5 B31, B34, B35, B37, B38, B39). -/
theorem test_decode_bad :
    decodeTD 4096 0x100008#21 1#32 = .bad 0x100008#21 ∧ decodeTD 4096 0x08000E#21 0#32 = .bad 0x08000E#21 ∧
    decodeTD 4096 0x080024#21 0#32 = .bad 0x080024#21 ∧ decodeTD 4096 0x091000#21 0#32 = .bad 0x091000#21 ∧
    decodeTD 4096 0x0A0C00#21 0#32 = .bad 0x0A0C00#21 ∧ decodeTD 4096 0x0B0000#21 0#32 = .bad 0x0B0000#21 := by
  decide

/-- R122: the command is WDATA[1:0]. -/
theorem test_decode_commands :
    decodeCtrl 0xFFFFFFFC#32 = .nop 0x3FFFFFFF#30 ∧ decodeCtrl 1#32 = .start 0#30 ∧ decodeCtrl 6#32 = .clr 1#30 ∧
    decodeCtrl 3#32 = .clrStart 0#30 := by decide

/-- R125: {PHASE, CLASS}, and R129's selectors. -/
theorem test_decode_selectors :
    decodeSel 0b000_01#5 = .idle 1#2 ∧ decodeSel 0b001_00#5 = .len 0#2 ∧ decodeSel 0b010_00#5 = .valSym ∧
    decodeSel 0b010_01#5 = .valPad ∧ decodeSel 0b010_10#5 = .valInv ∧ decodeSel 0b011_00#5 = .prep 0#2 ∧
    decodeSel 0b100_00#5 = .decSym ∧ decodeSel 0b100_01#5 = .decPad ∧ decodeSel 0b100_10#5 = .decInv ∧
    decodeSel 0b101_11#5 = .tail 3#2 ∧ decodeSel 0b110_01#5 = .unreachablePhase 1#3 ∧
    decodeSel 0b111_00#5 = .unreachablePhase 4#3 ∧ decodeSel 0b010_11#5 = .unreachableValClass3 ∧
    decodeSel 0b100_11#5 = .unreachableDecClass3 := by decide

/-- The decoder over bytes: WR_IN of "TQ==" (R228), a string that ends too soon, and bits above TD[20] or SEL[4]. -/
theorem test_decode_bytes :
    decode 4096 .td [0x00#8, 0x00#8, 0x19#8, 0x54#8, 0x51#8, 0x3D#8, 0x3D#8, 0xFF#8]
      = .ok (.wrIn 0#14 0x3D3D5154#32, [0xFF#8]) ∧
    decode 4096 .td [0x00#8, 0x00#8, 0x19#8, 0x54#8] = .error .tooShort ∧
    decode 4096 .td [0x00#8, 0x00#8, 0x28#8] = .error .aboveTD ∧ decode 4096 .sel [0x20#8] = .error .aboveSel := by
  decide

/-- The opcode table's words, one per format (opcode_table.json: RD_CAP, WR_IN, BAD, CLR_START, PREP). -/
theorem test_table_words :
    decodeTableWord 24 0x080004 = some .rdCap ∧ decodeTableWord 24 0x190000 = some (.wrIn 0#14 0#32) ∧
    decodeTableWord 0 0 = some (.bad 0#21) ∧ decodeTableWord 32 3 = some (.clrStart 0#30) ∧
    decodeTableWord 8 0b01100 = some (.prep 0#2) := by decide

/-- A table word placed after reset runs at the next step: RD_ID answers, VAL_INV fails at index 0, and the selector
of class 11 stops. -/
theorem test_table_words_run :
    after (step (State.reset.withFetchWord 24 0x080000)) (answered .okay 0xB64D0001#32) = true ∧
    after (step (State.reset.withFetchWord 8 0b01010)) (fun t => t.errCode == .invalidCharacter) = true ∧
    step (State.reset.withFetchWord 8 0b01011) = .fault .engineInvariant := ⟨by decide, by decide, rfl⟩

/-! ### The lookup table (R111 to R113, and the source's examples of L2.1) -/

theorem test_lut_words :
    lutWord 0x41#8 = 0x00#8 ∧ lutWord 0x5A#8 = 0x19#8 ∧ lutWord 0x61#8 = 0x1A#8 ∧ lutWord 0x7A#8 = 0x33#8 ∧
    lutWord 0x30#8 = 0x34#8 ∧ lutWord 0x39#8 = 0x3D#8 ∧ lutWord 0x2B#8 = 0x3E#8 ∧ lutWord 0x2F#8 = 0x3F#8 ∧
    lutWord 0x3D#8 = 0x40#8 ∧ lutWord 0x00#8 = 0x80#8 ∧ lutWord 0x40#8 = 0x80#8 ∧ lutWord 0x5B#8 = 0x80#8 ∧
    lutWord 0x2D#8 = 0x80#8 ∧ lutWord 0x5F#8 = 0x80#8 ∧ lutWord 0x0A#8 = 0x80#8 ∧ lutWord 0xFF#8 = 0x80#8 := by
  decide

/-! ### Engine steps, from the traces of L2.3 -/

/-- Trace of "TWFu", step 1. -/
theorem test_len : after (step (running twfu .len)) (fun t => t.phase == .val && t.i == 0#17) = true := by decide

/-- "" completes at once (E1), and a length of 3 is InvalidLength at 0 (R148). -/
theorem test_len_ends :
    after (step (running [] .len)) (fun t => t.done && !t.err && t.phase == .idle) = true ∧
    after (step (running [0x54#8, 0x57#8, 0x46#8] .len)) (fun t => statusWord t == 0x00000016#32) = true := by decide

/-- Trace of "TWFu", steps 2 and 5. -/
theorem test_valSym :
    after (step (running twfu .val)) (fun t => t.phase == .val && t.i == 1#17) = true ∧
    after (step { running twfu .val with i := 3#17 }) (fun t => t.phase == .prep && t.i == 4#17) = true := by decide

/-- Trace of "AB=C", step 5: STATUS 0x26, and the position is the `=` at 2 (C1). -/
theorem test_valSym_after_pad :
    after (step { running abc .val with i := 3#17, seenPad := true })
      (fun t => statusWord t == 0x00000026#32 && t.errPos == 2#32 && t.i == 3#17) = true := by decide

/-- Trace of "TQ==", steps 4 and 5. -/
theorem test_valPad :
    after (step { running tq .val with i := 2#17 }) (fun t => t.phase == .val && t.i == 3#17 && t.seenPad) = true ∧
    after (step { running tq .val with i := 3#17, seenPad := true }) (fun t => t.phase == .prep) = true := by decide

/-- "A=AA" fails at index 1 with STATUS 0x26 (P3), and a NUL at index 0 with InvalidCharacter (R151). -/
theorem test_val_fails :
    after (step { running [0x41#8, 0x3D#8, 0x41#8, 0x41#8] .val with i := 1#17 })
      (fun t => statusWord t == 0x00000026#32 && t.errPos == 1#32) = true ∧
    after (step (running [0x00#8, 0x41#8, 0x41#8, 0x41#8] .val))
      (fun t => statusWord t == 0x00000036#32 && t.errPos == 0#32) = true := by decide

/-- Trace of "TQ==", step 6, and of "TWFu", step 6. -/
theorem test_prep :
    after (step { running tq .prep with i := 4#17, seenPad := true })
      (fun t => t.phase == .dec && t.pad == 2#2 && t.outl == 1#17 && t.i == 0#17) = true ∧
    after (step { running twfu .prep with i := 4#17 }) (fun t => t.pad == 0#2 && t.outl == 3#17) = true := by decide

/-- Trace of "TWFu", steps 8 and 10. -/
theorem test_decSym :
    after (step { running twfu .dec with i := 1#17, cnt := 1#2, acc := 0x000013#24, outl := 3#17 })
      (fun t => t.acc == 0x0004D6#24 && t.cnt == 2#2 && t.i == 2#17 && t.j == 0#17) = true ∧
    after (step groupState)
      (fun t => t.acc == 0x4D616E#24 && t.j == 3#17 && t.cnt == 0#2 && t.phase == .tail
        && t.outMem == cells 0 [0x4D#8, 0x61#8, 0x6E#8]) = true := by decide

/-- Trace of "TQ==", step 9. -/
theorem test_decPad :
    after (step padState) (fun t => t.phase == .tail && t.i == 2#17 && t.acc == 0x0004D0#24) = true := by decide

/-- Traces of "TWE=", step 11, and of "TQ==", step 10. -/
theorem test_tail :
    after (step tailState)
      (fun t => t.acc == 0x4D6100#24 && t.j == 2#17 && t.outLen == 2#32 && t.padCnt == 1#32
        && t.outMem == cells 0 [0x4D#8, 0x61#8] && statusWord t == 0x00000002#32) = true ∧
    after (step { running tq .tail with i := 2#17, cnt := 2#2, acc := 0x0004D0#24, pad := 2#2, outl := 1#17 })
      (fun t => t.acc == 0x4D0000#24 && t.j == 1#17 && t.outMem == cells 0 [0x4D#8]) = true := by decide

/-- R155 and R158. -/
theorem test_unreachable :
    step { running [0x00#8] .dec with inLen := 1#32 } = .fault .engineInvariant ∧
    step { State.reset with phase := .unused110 } = .fault .engineInvariant := ⟨rfl, rfl⟩

/-! ### Commands, from L2.4 -/

/-- K3 and K4: IN_LEN = IN_CAP is accepted, IN_LEN = 0x1004 is refused. -/
theorem test_start :
    after (exec (.wrCtrl 1#32) { State.reset with inLen := 0x1000#32 })
      (fun t => t.phase == .len && t.n == 4096#17 && statusWord t == 0x00000001#32) = true ∧
    after (exec (.wrCtrl 1#32) { State.reset with inLen := 0x1004#32 })
      (fun t => t.phase == .idle && t.n == 0#17 && statusWord t == 0x00000100#32) = true := by decide

/-- K6: a START during a run is refused, and the run is not disturbed. -/
theorem test_start_busy :
    after (exec (.start 0#30) busyState) (fun t => statusWord t == 0x00000101#32 && t.phase == .val) = true := by decide

/-- K10 and K12. -/
theorem test_clr :
    after (exec (.clr 0#30) good) (fun t => statusWord t == 0#32 && t.outLen == 3#32) = true ∧
    after (exec (.clr 0#30) busyState) (fun t => statusWord t == 0x00000001#32 && t.phase == .val) = true := by decide

/-- K14 and K16. -/
theorem test_clrStart :
    after (exec (.clrStart 0#30) { loaded twfu with cmdErr := true })
      (fun t => statusWord t == 0x00000001#32 && t.n == 4#17) = true ∧
    after (exec (.clrStart 0#30) { good with inLen := 0x2000#32 })
      (fun t => statusWord t == 0x00000100#32 && t.outLen == 3#32 && t.n == 4#17) = true := by decide

/-- K9. -/
theorem test_nop :
    after (exec (.wrCtrl 0xFFFFFFFC#32) good) (fun t => statusWord t == 0x00000002#32 && t.outLen == 3#32) = true := by
  decide

/-! ### Transactions, from L2.5 -/

/-- B2, B4, B7, B8 and B11. -/
theorem test_reads :
    after (exec .rdCap State.reset) (answered .okay 0x00001000#32) = true ∧
    after (exec .rdStatus good) (answered .okay 0x00000002#32) = true ∧
    after (exec .rdInLen good) (answered .okay 0x00000004#32) = true ∧
    after (exec .rdOutLen good) (answered .okay 0x00000003#32) = true ∧
    after (exec (.rdIn 0#14) good) (answered .okay 0x75465754#32) = true := by decide

/-- B40, B41 and B15: the partial last word of IN_CAP = 4, the word after it, and a read during a run. -/
theorem test_rdOut :
    after (exec (.rdOut 0#14) { good with inCap := 4 }) (answered .okay 0x006E614D#32) = true ∧
    after (exec (decodeTD 4 0x0A0004#21 0#32) { good with inCap := 4 }) (answered .slverr 0#32) = true ∧
    after (exec (.rdOut 0#14) busyState) (answered .okay 0#32) = true := by decide

/-- B17, B19, B20 and B22. -/
theorem test_writes :
    after (exec (.wrIrqEn 0xFFFFFFFF#32) State.reset) (fun t => t.doneIe) = true ∧
    after (exec (.wrInLen 0x12345678#32) State.reset) (fun t => t.inLen == 0x12345678#32) = true ∧
    after (exec (.wrInLen 4#32) busyState) (fun t => statusWord t == 0x00000201#32 && t.inLen == 8#32) = true ∧
    after (exec (.wrIn 0#14 0x41414141#32) busyState)
      (fun t => statusWord t == 0x00000201#32 && t.inMem == busyState.inMem) = true := by decide

/-- B21: lane k goes to IN_MEM[4w + k]. -/
theorem test_wrIn :
    after (exec (.wrIn 0#14 0x3D3D5154#32) State.reset) (fun t => t.inMem == cells 0 tq) = true := by decide

/-- R2 of L2.6: a reset edge after a good run, with irq raised before it. -/
theorem test_reset_edge :
    ({ good with doneIe := true }).irq = true ∧
    after (step { good with doneIe := true, cmdErr := true, pending := [.rst] })
      (fun t => statusWord t == 0#32 && !t.doneIe && t.inLen == 0#32 && t.outLen == 0#32 && !t.irq
        && t.outMem == good.outMem) = true := by decide

/-! ### The reference function (L1, L2.2) -/

theorem test_decodeRef :
    decodeRef twfu = .ok [0x4D#8, 0x61#8, 0x6E#8] 0 ∧ decodeRef twe = .ok [0x4D#8, 0x61#8] 1 ∧
    decodeRef tq = .ok [0x4D#8] 2 ∧ decodeRef abc = .err .invalidPaddingPosition 2 ∧ refSteps twfu = 11 ∧
    refSteps tq = 10 := by decide

/-! ### Witnesses: states of the invariant in the phases of a run -/

/-- The registers of a run in progress (R48). -/
theorem regs_of_running (s : State) (h : s.done = false ∧ s.err = false ∧ s.errCode = .none ∧ s.errPos = 0#32
    ∧ s.outLen = 0#32 ∧ s.padCnt = 0#32) : RegsOk s := by
  obtain ⟨h1, h2, h3, h4, h5, h6⟩ := h
  constructor <;> simp [h1, h2, h3, h4, h5, h6]

theorem witness_inv_reset : State.reset.Inv := by
  refine ⟨⟨by decide, rfl⟩, ⟨by decide, by decide⟩, regs_of_running _ (by decide), ?_⟩
  constructor <;> first | decide | exact fun h => absurd h (by decide)

/-- After the good run over "TWFu". -/
theorem witness_inv_good : good.Inv := by
  refine ⟨⟨by decide, rfl⟩, ⟨by decide, by decide⟩, ⟨by decide, by decide, by decide, by decide, by decide, by decide,
    by decide, by decide, by decide⟩, ?_⟩
  constructor <;> first | decide | exact fun h => absurd h (by decide)

theorem witness_inv_len : (running twfu .len).Inv := by
  refine ⟨⟨by decide, rfl⟩, ⟨by decide, by decide⟩, regs_of_running _ (by decide), ?_⟩
  constructor <;> first | decide | exact fun h => absurd h (by decide)

/-- A run in VAL with one symbol accepted. -/
theorem witness_inv_val : { running twfu .val with i := 1#17 }.Inv := by
  refine ⟨⟨by decide, rfl⟩, ⟨by decide, by decide⟩, regs_of_running _ (by decide), ?_⟩
  constructor
  case val => exact fun _ => ⟨by decide, by decide, by decide, by unfold Scanned; decide, by decide⟩
  all_goals first | decide | exact fun h => absurd h (by decide)

/-- A run in PREP. -/
theorem witness_inv_prep : (running twfu .prep).Inv := by
  refine ⟨⟨by decide, rfl⟩, ⟨by decide, by decide⟩, regs_of_running _ (by decide), ?_⟩
  constructor
  case prep => exact fun _ => ⟨by decide, by decide, by unfold Scanned; decide⟩
  all_goals first | decide | exact fun h => absurd h (by decide)

/-- A run in DEC whose next step completes a group and writes three bytes. -/
theorem witness_inv_dec : groupState.Inv := by
  refine ⟨⟨by decide, rfl⟩, ⟨by decide, by decide⟩, regs_of_running _ (by decide), ?_⟩
  constructor
  case dec =>
    exact fun _ => ⟨⟨⟨by decide, by decide, by decide, by decide, by decide⟩, by decide, by decide, by decide⟩, by decide⟩
  all_goals first | decide | exact fun h => absurd h (by decide)

/-- "TQ==" after step 8 of its trace: the next step is DEC_PAD. -/
theorem witness_inv_decPad : padState.Inv := by
  refine ⟨⟨by decide, rfl⟩, ⟨by decide, by decide⟩, regs_of_running _ (by decide), ?_⟩
  constructor
  case dec =>
    exact fun _ => ⟨⟨⟨by decide, by decide, by decide, by decide, by decide⟩, by decide, by decide, by decide⟩, by decide⟩
  all_goals first | decide | exact fun h => absurd h (by decide)

/-- "AB=C" in VAL after the `=` was accepted. -/
theorem witness_inv_valSeen : { running abc .val with i := 3#17, seenPad := true }.Inv := by
  refine ⟨⟨by decide, rfl⟩, ⟨by decide, by decide⟩, regs_of_running _ (by decide), ?_⟩
  constructor
  case val => exact fun _ => ⟨by decide, by decide, by decide, by unfold Scanned; decide, by decide⟩
  all_goals first | decide | exact fun h => absurd h (by decide)

/-- After a failed run. -/
theorem witness_inv_failed : failed.Inv := by
  refine ⟨⟨by decide, rfl⟩, ⟨by decide, by decide⟩, ⟨by decide, by decide, by decide, by decide, by decide, by decide,
    by decide, by decide, by decide⟩, ?_⟩
  constructor <;> first | decide | exact fun h => absurd h (by decide)

/-- LEN of a run over "ABCDE" after a good run over "TWFu". -/
def lenEndState : State :=
  { running [0x41#8, 0x42#8, 0x43#8, 0x44#8, 0x45#8] .len with outl := 3#17, j := 3#17 }

theorem witness_inv_lenEnd : lenEndState.Inv := by
  refine ⟨⟨by decide, rfl⟩, ⟨by decide, by decide⟩, regs_of_running _ (by decide), ?_⟩
  constructor <;> first | decide | exact fun h => absurd h (by decide)

/-- A run in TAIL with one `=` in its input. -/
theorem witness_inv_tail : tailState.Inv := by
  refine ⟨⟨by decide, rfl⟩, ⟨by decide, by decide⟩, regs_of_running _ (by decide), ?_⟩
  constructor
  case tail =>
    exact fun _ => ⟨⟨⟨by decide, by decide, by decide, by decide, by decide⟩, by decide, by decide, by decide⟩, by decide⟩
  all_goals first | decide | exact fun h => absurd h (by decide)

/-! ### Witnesses: the hypotheses of each statement, clause by clause, at the ends of its ranges -/

theorem witness_DecodeReadsEveryEncodedInstruction :
    (Instr.wrOut 0x2FF#14 5#32).wf 4096 = true ∧ (Instr.bad 0x0A0C00#21).wf 4096 = true ∧
    (Instr.nop 0x3FFFFFFF#30).wf 4096 = true ∧ (Instr.unreachablePhase 7#3).wf 4096 = true := by decide

theorem witness_SelectorsPickTheirStep :
    (State.reset.phase = .idle ∧ (running twfu .len).phase = .len ∧ (running twfu .prep).phase = .prep ∧
      tailState.phase = .tail) ∧
    (running twfu .val).i.toNat < (running twfu .val).inCap ∧ (running twfu .val).phase = .val ∧
    { State.reset with i := 4095#17, phase := .dec }.i.toNat < { State.reset with i := 4095#17, phase := .dec }.inCap := by
  decide

theorem witness_LutHoldsTheAlphabet :
    63 < alphabet.length ∧ (0x40#8 ∉ alphabet ∧ 0x40#8 ≠ 0x3D#8) ∧ classOf 0x2F#8 = .sym := by decide

theorem witness_StepRunsTheTransaction :
    let s := { State.reset with pending := [.cycle (some ⟨0x080004#21, 0#32⟩) true] }
    s.engineDue = false ∧ s.pending = .cycle (some ⟨0x080004#21, 0#32⟩) true :: [] := ⟨rfl, rfl⟩

theorem witness_StepRunsTheEngine :
    selector { running twfu .len with engineDue := true } = some 0b00100#5 ∧
    selector { running twfu .val with pending := [.cycle none false] } = some 0b01000#5 ∧
    selector { running twfu .tail with pending := [.cycle none true] } = some 0b10100#5 ∧
    selector State.reset = some 0b00000#5 := by decide

theorem witness_ResetEdgeRestoresTheRegisters :
    { groupState with pending := [.rst] }.engineDue = false ∧ { groupState with pending := [.rst] }.pending = .rst :: [] :=
  ⟨rfl, rfl⟩

/-- From IDLE (an accepted START), and during a run. -/
theorem witness_TransactionComesBeforeTheEngineStep :
    (∃ t, step { loaded twfu with pending := [.cycle (some lineStart) false] } = .next t ∧ t.phase = .len ∧
      t.engineDue = false) ∧
    ∃ t, step { running twfu .val with pending := [.cycle (some lineStart) false] } = .next t ∧ t.phase = .val ∧
      t.engineDue = true := ⟨⟨_, rfl, rfl, rfl⟩, ⟨_, rfl, rfl, rfl⟩⟩

/-- The largest and the smallest legal IN_CAP. -/
theorem witness_ConstantReads : { State.reset with inCap := 65536 }.inCap ≤ 65536 ∧ { State.reset with inCap := 4 }.inCap ≤ 65536 := by
  decide

/-- During a run, and after the failed run over "ABCDE" (R241). -/
theorem witness_RegisterReads : (groupState.Inv ∧ groupState.phase ≠ .idle) ∧ failed.Inv ∧ failed.err = true :=
  ⟨⟨witness_inv_dec, by decide⟩, witness_inv_failed, rfl⟩

theorem witness_InWindowRead : 4 * (0#14).toNat < State.reset.inCap ∧ 4 * (0x3FF#14).toNat < State.reset.inCap := by decide

/-- In a run, and between runs: the last word of IN_CAP = 4096, and the partial word of IN_CAP = 4. -/
theorem witness_OutWindowRead :
    (4 * (0x2FF#14).toNat < groupState.inCap * 3 / 4 ∧ groupState.phase ≠ .idle) ∧
    (4 * (0#14).toNat < { good with inCap := 4 }.inCap * 3 / 4 ∧ { good with inCap := 4 }.phase = .idle) := by decide

theorem witness_IgnoredWrites :
    4 * (0#14).toNat < State.reset.inCap * 3 / 4 ∧ 4 * (0x2FF#14).toNat < State.reset.inCap * 3 / 4 := by decide

theorem witness_IrqEnableWrite :
    (∃ t, exec (.wrIrqEn 0xFFFFFFFF#32) good = .next t ∧ (0xFFFFFFFF#32).getLsbD 0 = true ∧ t.irq = true) ∧
    ∃ t, exec (.wrIrqEn 0xFFFFFFFE#32) good = .next t ∧ (0xFFFFFFFE#32).getLsbD 0 = false ∧ t.irq = false :=
  ⟨⟨_, rfl, by decide, by decide⟩, ⟨_, rfl, by decide, by decide⟩⟩

theorem witness_InLenWrite : State.reset.phase = .idle ∧ busyState.phase ≠ .idle := by decide

theorem witness_InWindowWrite :
    (4 * (0x3FF#14).toNat < State.reset.inCap ∧ State.reset.phase = .idle) ∧
    (4 * (0#14).toNat < busyState.inCap ∧ busyState.phase ≠ .idle) := by decide

/-- The first word beyond each capacity. -/
theorem witness_BadTransactionsHaveNoEffect :
    State.reset.inCap ≤ 4 * (0x400#14).toNat ∧ State.reset.inCap * 3 / 4 ≤ 4 * (0x300#14).toNat := by decide

theorem witness_EveryTransactionAnswers :
    ((Instr.rdIn 0x3FF#14).format ≠ .sel ∧ (Instr.rdIn 0x3FF#14).wf State.reset.inCap = true) ∧
    ((Instr.bad 0#21).format ≠ .sel ∧ (Instr.bad 0#21).wf State.reset.inCap = true) ∧
    ((Instr.start 0#30).format ≠ .sel ∧ (Instr.start 0#30).wf busyState.inCap = true) := by decide

theorem witness_NopCommand :
    Instr.nop 5#30 = .nop 5#30 ∧ Instr.wrCtrl 0xFFFFFFFC#32 = .wrCtrl (0x3FFFFFFF#30 ++ 0b00#2) := by decide

theorem witness_ClrCommand :
    Instr.clr 5#30 = .clr 5#30 ∧ Instr.wrCtrl 2#32 = .wrCtrl (0#30 ++ 0b10#2) := by decide

/-- K1 and K3: the ends of the accepted range. -/
theorem witness_StartAccepted :
    Instr.wrCtrl 1#32 = .wrCtrl (0#30 ++ 0b01#2) ∧
    (Config.legalCap State.reset.inCap = true ∧ State.reset.phase = .idle ∧ State.reset.inLen.toNat ≤ State.reset.inCap) ∧
    { State.reset with inLen := 4096#32 }.inLen.toNat ≤ { State.reset with inLen := 4096#32 }.inCap := by decide

/-- K4 and K6. -/
theorem witness_StartRefused :
    Instr.wrCtrl 1#32 = .wrCtrl (0#30 ++ 0b01#2) ∧
    { State.reset with inLen := 4097#32 }.inCap < { State.reset with inLen := 4097#32 }.inLen.toNat ∧
    busyState.phase ≠ .idle := by decide

theorem witness_ClrStartCommand :
    Instr.wrCtrl 3#32 = .wrCtrl (0#30 ++ 0b11#2) ∧
    (good.phase = .idle ∧ good.inLen.toNat ≤ good.inCap) ∧ busyState.phase ≠ .idle ∧
    { good with inLen := 0x2000#32 }.inCap < { good with inLen := 0x2000#32 }.inLen.toNat := by decide

/-- N = 0, N = 3 and N = 4. -/
theorem witness_LenStep :
    (running [] .len).n.toNat = 0 ∧ (running [0x41#8, 0x41#8, 0x41#8] .len).n.toNat % 4 ≠ 0 ∧
    ((running twfu .len).n.toNat ≠ 0 ∧ (running twfu .len).n.toNat % 4 = 0) := by decide

/-- A symbol after a `=`, and a symbol at the last index of a full IN_MEM. -/
theorem witness_ValSymStep :
    (let s := { running abc .val with i := 3#17, seenPad := true };
      s.i.toNat < s.inCap ∧ s.inCap ≤ 65536 ∧ s.seenPad = true ∧ s.i.toNat ≠ 0) ∧
    (let s := { running twfu .val with i := 4095#17, n := 4096#17 };
      s.i.toNat < s.inCap ∧ s.inCap ≤ 65536 ∧ s.seenPad = false) := by decide

theorem witness_ValSymStep_last :
    let s := { running abc .val with i := 3#17, seenPad := true }
    s.Inv ∧ s.phase = .val ∧ s.seenPad = true := ⟨witness_inv_valSeen, rfl, rfl⟩

/-- A `=` at N - 3, and at N - 2. -/
theorem witness_ValPadStep :
    (let s := { running tq .val with i := 1#17 };
      s.i.toNat < s.inCap ∧ s.inCap ≤ 65536 ∧ 4 ≤ s.n.toNat ∧ s.i.toNat < s.n.toNat - 2) ∧
    (let s := { running tq .val with i := 2#17 };
      s.i.toNat < s.inCap ∧ s.inCap ≤ 65536 ∧ 4 ≤ s.n.toNat ∧ s.n.toNat - 2 ≤ s.i.toNat) := by decide

theorem witness_ValInvStep : (running [0x00#8] .val).i.toNat < (running [0x00#8] .val).inCap := by decide

/-- The shortest input and one that fills IN_MEM. -/
theorem witness_PrepStep :
    (4 ≤ (running tq .prep).n.toNat ∧ (running tq .prep).n.toNat ≤ (running tq .prep).inCap) ∧
    (let s := { running tq .prep with n := 4096#17 }; 4 ≤ s.n.toNat ∧ s.n.toNat ≤ s.inCap) := by decide

theorem witness_DecSymStep_accumulates :
    let s := { groupState with i := 2#17, cnt := 2#2 }
    s.i.toNat < s.inCap ∧ s.inCap ≤ 65536 ∧ s.cnt.toNat < 3 := by decide

/-- `J + 3 = OUTL`, and `J + 3 = OUTL + 1`. -/
theorem witness_DecSymStep_emits :
    (groupState.i.toNat < groupState.inCap ∧ groupState.inCap ≤ 65536 ∧ groupState.cnt.toNat = 3 ∧
      groupState.outl.toNat ≤ groupState.inCap * 3 / 4 ∧ groupState.j.toNat + 3 ≤ groupState.outl.toNat) ∧
    (let s := { groupState with outl := 2#17 };
      s.cnt.toNat = 3 ∧ s.outl.toNat ≤ s.inCap * 3 / 4 ∧ s.outl.toNat < s.j.toNat + 3) := by decide

theorem witness_DecPadAndIdleSteps : padState.Inv ∧ selector padState = some 0b10001#5 :=
  ⟨witness_inv_decPad, by decide⟩

theorem witness_TailStep :
    (tailState.outl.toNat ≤ tailState.inCap * 3 / 4 ∧ 0 < tailState.pad.toNat) ∧
    ((running twfu .tail).outl.toNat ≤ (running twfu .tail).inCap * 3 / 4 ∧ (running twfu .tail).pad.toNat = 0) := by decide

theorem witness_UnreachableSelectorsFault : groupState.Inv ∧ selector groupState = some 0b10000#5 :=
  ⟨witness_inv_dec, by decide⟩

/-- The ends of the legal range of IN_CAP (R9). -/
theorem witness_PowerOnHoldsTheInvariant : Config.legalCap 4 = true ∧ Config.legalCap 65536 = true := by decide

theorem witness_StepKeepsTheInvariant : groupState.Inv ∧ ∃ t, step groupState = .next t ∧ t.j = 3#17 :=
  ⟨witness_inv_dec, _, rfl, rfl⟩

theorem witness_InvariantStatesNeverStop : tailState.Inv ∧ { running twfu .val with i := 1#17 }.Inv :=
  ⟨witness_inv_tail, witness_inv_val⟩

theorem witness_NoHostBehaviourStopsTheMachine : Config.legalCap 4096 = true := by decide

theorem witness_NoStepWritesTheConstants : ∃ t, step { good with pending := [.rst] } = .next t := ⟨_, rfl⟩

theorem witness_BuffersStayCanonical :
    Config.legalCap groupState.inCap = true ∧ BuffersOk groupState ∧ ∃ t, step groupState = .next t :=
  ⟨by decide, witness_inv_dec.buffers, _, rfl⟩

theorem witness_EachBufferHasOneWriter :
    (∃ t, exec (.wrIn 0#14 1#32) good = .next t ∧ (Instr.wrIn 0#14 1#32).format ≠ .sel) ∧
    ∃ t, exec .decSym groupState = .next t ∧ Instr.decSym.format = .sel := ⟨⟨_, rfl, by decide⟩, ⟨_, rfl, rfl⟩⟩

theorem witness_TransactionsDoNotDisturbARun :
    (Instr.clrStart 0#30).format ≠ .sel ∧ groupState.phase ≠ .idle ∧ ∃ t, exec (.clrStart 0#30) groupState = .next t :=
  ⟨by decide, by decide, _, rfl⟩

/-- DONE set by TAIL, and cleared by an accepted START, by a CLR and by a reset edge. -/
theorem witness_DoneIsSetByCompletionAndClearedByCommand :
    (∃ t, step tailState = .next t ∧ tailState.phase ≠ .idle ∧ t.phase = .idle ∧ t.done = true) ∧
    (∃ t, step { good with pending := [.cycle (some lineStart) false] } = .next t ∧ good.done = true ∧ t.done = false) ∧
    (∃ t, step { good with pending := [.cycle (some lineClr) false] } = .next t ∧ good.done = true ∧ t.done = false) ∧
    ∃ t, step { good with pending := [.rst] } = .next t ∧ good.done = true ∧ t.done = false :=
  ⟨⟨_, rfl, by decide, rfl, rfl⟩, ⟨_, rfl, rfl, rfl⟩, ⟨_, rfl, rfl, rfl⟩, ⟨_, rfl, rfl, rfl⟩⟩

/-- `irq` raised by TAIL, and by a write that enables it after a run. -/
theorem witness_InterruptIsRaisedByCompletionOnly :
    (∃ t, step { tailState with doneIe := true } = .next t ∧ { tailState with doneIe := true }.irq = false ∧ t.irq = true) ∧
    ∃ t, step { good with pending := [.cycle (some lineIrqOn) false] } = .next t ∧ good.irq = false ∧ t.irq = true :=
  ⟨⟨_, rfl, rfl, rfl⟩, ⟨_, rfl, rfl, rfl⟩⟩

/-- A step that fails, and a step in each of LEN, VAL and PREP. -/
theorem witness_FailingRunWritesNothing :
    (∃ t, step (running [0x00#8] .val) = .next t ∧ (running [0x00#8] .val).err = false ∧ t.err = true) ∧
    (∃ t, step (running twfu .len) = .next t) ∧ (∃ t, step (running twfu .val) = .next t) ∧
    ∃ t, step (running twfu .prep) = .next t := ⟨⟨_, rfl, rfl, rfl⟩, ⟨_, rfl⟩, ⟨_, rfl⟩, ⟨_, rfl⟩⟩

/-- A DEC step that writes OUT_MEM[2], the last byte below OUTL; VAL, PREP and TAIL with their premises; and LEN, which
ends the run over "ABCDE" with a J and an OUTL left by an earlier run. -/
theorem witness_EngineAccessStaysInBounds :
    (groupState.Inv ∧ groupState.phase = .dec ∧ selector groupState = some 0b10000#5 ∧ groupState.cnt = 3#2 ∧
      ∃ t, step groupState = .next t ∧ memGet groupState.outMem 2 = none ∧ memGet t.outMem 2 = some 0x6E#8) ∧
    ({ running twfu .val with i := 1#17 }.Inv ∧ { running twfu .val with i := 1#17 }.phase = .val) ∧
    ((running twfu .prep).Inv ∧ (running twfu .prep).phase = .prep) ∧
    (tailState.Inv ∧ tailState.phase = .tail ∧ 0 < tailState.pad.toNat ∧
      ∃ t, step tailState = .next t ∧ t.phase = .idle) ∧
    (lenEndState.Inv ∧ lenEndState.phase ≠ .idle ∧ ∃ t, step lenEndState = .next t ∧ t.phase = .idle ∧ t.j = 3#17) :=
  ⟨⟨witness_inv_dec, rfl, by decide, rfl, _, rfl, rfl, by decide⟩, ⟨witness_inv_val, rfl⟩, ⟨witness_inv_prep, rfl⟩,
    ⟨witness_inv_tail, rfl, by decide, _, rfl, rfl⟩, witness_inv_lenEnd, by decide, _, rfl, rfl, rfl⟩

/-- A CLR takes DONE away, a register write leaves it. -/
theorem witness_ResultStaysUntilTheNextStart :
    good.Inv ∧ good.phase = .idle ∧
    (∃ t, step { good with pending := [.cycle (some lineClr) false] } = .next t ∧ t.phase = .idle ∧ t.done = false) ∧
    ∃ t, step { good with pending := [.cycle (some lineIrqOn) false] } = .next t ∧ t.phase = .idle ∧ t.done = good.done :=
  ⟨witness_inv_good, rfl, ⟨_, rfl, rfl, rfl⟩, ⟨_, rfl, rfl, rfl⟩⟩

theorem witness_RunComputesDecodeRef :
    (running twfu .len).Inv ∧ (running twfu .len).phase = .len ∧ (running twfu .len).engineDue = false ∧
    (running twfu .len).pending = [] := ⟨witness_inv_len, rfl, rfl, rfl⟩

/-- The longest and the shortest kind of run: "TWFu" (2N + 3 = 11 steps), and "ABCDE", which LEN ends. -/
theorem witness_RunLengthIsLinear :
    ((running twfu .len).Inv ∧ (running twfu .len).phase = .len ∧ (running twfu .len).engineDue = false ∧
      (running twfu .len).pending = []) ∧
    lenEndState.Inv ∧ lenEndState.phase = .len ∧ lenEndState.engineDue = false ∧ lenEndState.pending = [] :=
  ⟨⟨witness_inv_len, rfl, rfl, rfl⟩, witness_inv_lenEnd, rfl, rfl, rfl⟩

/-- The run over "TWF" ends at its first engine step, which a CLR of the same cycle precedes. -/
def trafficState : State := { running [0x54#8, 0x57#8, 0x46#8] .len with pending := [.cycle (some lineClr) false] }

theorem witness_TrafficDoesNotChangeTheResult :
    trafficState.Inv ∧ trafficState.phase = .len ∧ CycleInput.rst ∉ trafficState.pending ∧
    ∃ u t, Host.Core.run Sys2Proof.core 1 trafficState = .next u ∧
      (∀ l ≤ 1, ∃ v : State, Host.Core.run Sys2Proof.core l trafficState = .next v ∧ v.phase ≠ .idle) ∧
      step u = .next t ∧ t.phase = .idle := by
  refine ⟨?_, rfl, by decide, _, _, rfl, fun l hl => ?_, rfl, rfl⟩
  · refine ⟨⟨by decide, rfl⟩, ⟨by decide, by decide⟩, regs_of_running _ (by decide), ?_⟩
    constructor <;> first | decide | exact fun h => absurd h (by decide)
  · obtain rfl | rfl : l = 0 ∨ l = 1 := by omega
    · exact ⟨_, rfl, by decide⟩
    · exact ⟨_, rfl, by decide⟩

theorem witness_DecodeRefOutputLength :
    (Config.legalCap 4 = true ∧ tq.length ≤ 4) ∧
    decodeRef tq = .ok [0x4D#8] 2 ∧ decodeRef twe = .ok [0x4D#8, 0x61#8] 1 ∧ decodeRef [] = .ok [] 0 := by decide

/-- One failure of each kind (E-rows of L1, L2.2). -/
theorem witness_DecodeRefErrorsNameTheOffendingByte :
    decodeRef [0x41#8] = .err .invalidLength 0 ∧ decodeRef [0x3D#8, 0x41#8, 0x41#8, 0x41#8] = .err .invalidPaddingPosition 0 ∧
    decodeRef [0x41#8, 0x41#8, 0x3D#8, 0x00#8] = .err .invalidCharacter 3 := by decide

theorem witness_SplitInputsConcatenate :
    decodeRef twfu = .ok [0x4D#8, 0x61#8, 0x6E#8] 0 ∧ decodeRef tq = .ok [0x4D#8] 2 ∧
    decodeRef (twfu ++ tq) = .ok [0x4D#8, 0x61#8, 0x6E#8, 0x4D#8] 2 := by decide

end Sys2Proof.Tests
end

section
/-!
PROOFS. The flags of 10_state.md: the STATUS word (O16), and what sets and clears DONE (O49).
-/

namespace Sys2Proof.Machine

open Sys2Proof

/-! ### The STATUS word (R36, R37) -/

/-- BUSY as the decision of PHASE ≠ IDLE (R37). -/
theorem busy_eq_decide (s : State) : s.busy = decide (s.phase ≠ .idle) := by
  rw [Bool.eq_iff_iff, busy_iff, decide_eq_true_iff]

/-- The layout of R36 read back: a word put together from its flags and ERR_CODE holds each of them in its own bits,
and 0 in the reserved ones. -/
theorem statusLayout_fields {busyWr cmdErr err done busy : Bool} {code : BitVec 2} {v : Word32}
    (hv : v = 0#22 ++ BitVec.ofBool busyWr ++ BitVec.ofBool cmdErr ++ 0#2 ++ code ++ 0#1 ++ BitVec.ofBool err
      ++ BitVec.ofBool done ++ BitVec.ofBool busy) :
    v.getLsbD 0 = busy ∧ v.getLsbD 1 = done ∧ v.getLsbD 2 = err ∧ v.getLsbD 3 = false ∧ v.extractLsb' 4 2 = code ∧
      v.extractLsb' 6 2 = 0#2 ∧ v.getLsbD 8 = cmdErr ∧ v.getLsbD 9 = busyWr ∧ v.extractLsb' 10 22 = 0#22 := by
  subst hv
  revert busyWr cmdErr err done busy code
  decide

/-! ### What can change DONE (R38) -/

/-- The operation of a descriptor is a transaction, never a bare command word (R213). -/
theorem decodeTD_format_td (cap : Nat) (td : TD) (d : Word32) : (decodeTD cap td d).format = .td := by
  unfold decodeTD decodeRegister
  repeat' split
  all_goals rfl

/-- START ends no run, and leaves DONE and PHASE unless it is accepted: then DONE is 0 and PHASE is LEN (R192, R193). -/
theorem startRun_done_phase (s : State) :
    (startRun s).done = s.done ∧ (startRun s).phase = s.phase ∨ (startRun s).done = false ∧ (startRun s).phase = .len := by
  obtain ⟨-, -, h⟩ | ⟨-, h⟩ := startRun_cases s
  · exact .inr (by simp [h])
  · exact .inl (by simp [h])

/-- A transaction other than WR_CTRL leaves DONE and PHASE. -/
theorem exec_td_keeps_done_phase {i : Instr} {s t : State} (hi : i.format = .td) (hc : ∀ d, i ≠ .wrCtrl d)
    (h : exec i s = .next t) : t.done = s.done ∧ t.phase = s.phase := by
  cases i with
  | wrCtrl d => exact absurd rfl (hc d)
  | rdIn | rdOut | wrInLen | wrIn | wrOut =>
    simp only [exec, execRdIn, execRdOut, execWrInLen, execWrIn, execWrOut] at h
    split_ifs at h <;> (cases h; exact ⟨rfl, rfl⟩)
  | nop | start | clr | clrStart => cases hi
  | idle | len | valSym | valPad | valInv | prep | decSym | decPad | decInv | tail => cases hi
  | unreachablePhase | unreachableValClass3 | unreachableDecClass3 => cases hi
  | _ => cases h; exact ⟨rfl, rfl⟩

/-- WR_CTRL runs the command that WDATA[1:0] selects (R190). -/
theorem exec_wrCtrl_cases (d : Word32) (s : State) :
    (d.extractLsb' 0 2 = 0b00#2 ∧ exec (.wrCtrl d) s = answerWrite s) ∨
    (d.extractLsb' 0 2 = 0b01#2 ∧ exec (.wrCtrl d) s = answerWrite (startRun s)) ∨
    (d.extractLsb' 0 2 = 0b10#2 ∧ exec (.wrCtrl d) s = answerWrite (clearStatus s)) ∨
    (d.extractLsb' 0 2 = 0b11#2 ∧ exec (.wrCtrl d) s = answerWrite (startRun (clearStatus s))) := by
  have hcode : ∀ c : BitVec 2, c = 0b00#2 ∨ c = 0b01#2 ∨ c = 0b10#2 ∨ c = 0b11#2 := by decide
  obtain h | h | h | h := hcode (d.extractLsb' 0 2) <;>
    simp [exec, execWrCtrl, execNop, execStart, execClr, execClrStart, h]

/-- A transaction ends no run and never sets DONE; where it changes DONE, it is a WR_CTRL that carries an accepted
START, a CLR or a CLR_START. -/
theorem exec_td_done_phase {i : Instr} {s t : State} (hi : i.format = .td) (h : exec i s = .next t) :
    (t.phase = .idle → s.phase = .idle) ∧
      (t.done = s.done ∨ t.done = false ∧ ∃ d, i = .wrCtrl d ∧
        (d.extractLsb' 0 2 = 0b01#2 ∧ t.phase = .len ∨ d.extractLsb' 0 2 = 0b10#2 ∨ d.extractLsb' 0 2 = 0b11#2)) := by
  by_cases hc : ∃ d, i = .wrCtrl d
  · obtain ⟨d, rfl⟩ := hc
    obtain ⟨hd, he⟩ | ⟨hd, he⟩ | ⟨hd, he⟩ | ⟨hd, he⟩ := exec_wrCtrl_cases d s <;> cases he.symm.trans h
    · exact ⟨id, .inl rfl⟩
    · obtain ⟨hdone, hphase⟩ | ⟨hdone, hphase⟩ := startRun_done_phase s
      · simp [hdone, hphase]
      · simp [hdone, hphase, hd]
    · simp [hd]
    · obtain ⟨hdone, hphase⟩ | ⟨hdone, hphase⟩ := startRun_done_phase (clearStatus s) <;> simp [hdone, hphase, hd]
  · obtain ⟨hdone, hphase⟩ := exec_td_keeps_done_phase hi (not_exists.1 hc) h
    exact ⟨fun ht => hphase ▸ ht, .inl hdone⟩

/-- An engine step either leaves DONE and ends no run, or ends a run with DONE = 1 (R141, R142). -/
theorem EngineEffect.done_phase {s t : State} (h : EngineEffect s t) :
    t.done = s.done ∧ (t.phase = .idle → s.phase = .idle) ∨ t.done = true ∧ t.phase = .idle := by
  have hif : ∀ (b : Bool) (p : Phase), p ≠ .idle → (if b then p else s.phase) = .idle → s.phase = .idle := by
    intro b p hp hb
    cases b
    · exact hb
    · exact absurd hb hp
  cases h with
  | none => exact .inl ⟨rfl, id⟩
  | empty | fail | finish => exact .inr ⟨rfl, rfl⟩
  | enterVal | enterDec | enterTail => exact .inl ⟨rfl, nofun⟩
  | accept b => exact .inl ⟨rfl, hif _ .prep nofun⟩
  | symbol m j a c hm => exact .inl ⟨rfl, hif _ .tail nofun⟩

@[simp] theorem engineFrom_done (s : State) : (engineFrom s).done = s.done := by unfold engineFrom; split <;> rfl

@[simp] theorem engineFrom_phase (s : State) : (engineFrom s).phase = s.phase := by unfold engineFrom; split <;> rfl

/-- The engine's turn in IDLE is the IDLE step, which does nothing (R157). -/
theorem exec_selector_idle {s u t : State} {sel : Sel} (hs : selector s = some sel) (hp : s.phase = .idle)
    (h : exec (decodeSel sel) u = .next t) : t = u := by
  have hd : decodeSel sel = .idle 0#2 := by simpa [hp] using decodeSel_selector hs
  rw [hd] at h
  cases h
  rfl

/-- The engine's turn either leaves DONE and ends no run, or ends the run in progress with DONE = 1 (R141, R142). -/
theorem engineTurn_done_phase {s t : State} {sel : Sel} (hs : selector s = some sel)
    (h : exec (decodeSel sel) (engineFrom s) = .next t) :
    t.done = s.done ∧ (t.phase = .idle → s.phase = .idle) ∨ t.done = true ∧ s.phase ≠ .idle ∧ t.phase = .idle := by
  by_cases hp : s.phase = .idle
  · obtain rfl := exec_selector_idle hs hp h
    simp [hp]
  · have he := (exec_sel_cases (decodeSel_format sel) h).done_phase
    simpa [hp] using he

end Sys2Proof.Machine

open Sys2Proof Sys2Proof.Machine

/-- Settles O16: the STATUS word is the layout of R36, and its fields are read off it. -/
theorem statusReadReturnsTheFlags : Obligations.StatusReadReturnsTheFlags := by
  intro s
  have hv := statusWord.eq_1 s
  rw [busy_eq_decide] at hv
  obtain ⟨hbusy, hdone, herr, h3, hcode, h6, hcmdErr, hbusyWr, h10⟩ := statusLayout_fields hv
  refine ⟨statusWord s, rfl, hv, hbusy, hdone, herr, h3, hcode, h6, hcmdErr, hbusyWr, h10, ?_, ?_, ?_, ?_⟩ <;>
    exact fun he => hcode.trans (congrArg errCodeBits he)

/-- Settles O49, by the four kinds of step: a transaction clears DONE through WR_CTRL alone, an engine step changes it
only where it ends a run, a held cycle leaves it, and a reset edge clears it. -/
theorem doneIsSetByCompletionAndClearedByCommand : Obligations.DoneIsSetByCompletionAndClearedByCommand := by
  intro s t h
  obtain ⟨txn, held, rest, hdue, hpend, he⟩ | ⟨sel, hsel, he, -⟩ | ⟨rest, -, -, rfl⟩ | ⟨rest, hdue, hpend, rfl⟩ :=
    step_cases h
  · obtain ⟨hphase, hdone⟩ := exec_td_done_phase (decodeTD_format_td _ _ _) he
    refine ⟨fun hs ht => absurd (hphase ht) hs, fun hs ht => ?_, fun hs ht => ⟨hdue, rest, .inr ?_⟩⟩
    · obtain hkept | ⟨hclear, -⟩ := hdone
      · exact absurd (hkept.trans hs) (by simp [ht])
      · exact absurd hclear (by simp [ht])
    · obtain hkept | ⟨-, d, hdec, hcmd⟩ := hdone
      · exact absurd (hkept.trans hs) (by simp [ht])
      · exact ⟨txn, held, d, hpend, hdec, hcmd⟩
  · obtain ⟨hkept, hphase⟩ | ⟨hdone, hs, ht⟩ := engineTurn_done_phase hsel he
    · exact ⟨fun hs ht => absurd (hphase ht) hs, by simp +contextual [hkept], by simp +contextual [hkept]⟩
    · exact ⟨fun _ _ => .inl hdone, fun _ _ => ⟨hs, ht⟩, by simp [hdone]⟩
  · exact ⟨fun hs ht => absurd ht hs, by simp +contextual, by simp +contextual⟩
  · exact ⟨fun _ _ => .inr ⟨hdue, rest, hpend⟩, by simp, fun _ _ => ⟨hdue, rest, .inl hpend⟩⟩

end

section
/-!
PROOFS. The engine's use of the buffers, 20_memory.md: every access stays in bounds (O52).
-/

namespace Sys2Proof.Machine

open Sys2Proof

/-! ### Where J and OUTL stand (R161) -/

/-- PREP's OUTL fits OUT_MEM when the input fits IN_MEM (R146, R161). -/
theorem Prepared.outl_le {s : State} (h : Prepared s) (hn : s.n.toNat ≤ s.inCap) : s.outl.toNat ≤ s.inCap * 3 / 4 := by
  have := h.outl
  omega

/-- In the decode pass J counts full groups only, and their bytes lie below OUTL. -/
theorem Decoding.j_le_outl {s : State} (h : Decoding s) : s.j.toNat ≤ s.outl.toNat := by
  obtain ⟨⟨hfour, hmod, hpad, -, houtl⟩, hi, -, hj⟩ := h
  omega

/-- At the fourth symbol of a group three more bytes fit below OUTL: a group with a `=` has no fourth symbol. -/
theorem Decoding.group_fits {s : State} (h : Decoding s) (hn : s.i.toNat < s.n.toNat) (hsym : inClass s s.i.toNat = .sym)
    (hcnt : s.cnt = 3#2) : s.j.toNat + 3 ≤ s.outl.toNat := by
  obtain ⟨⟨hfour, hmod, hpad, hsuffix, houtl⟩, -, hcount, hj⟩ := h
  have hi : s.i.toNat < s.n.toNat - s.pad.toNat := by
    by_contra hge
    exact absurd ((hsuffix _ hn).2 (by omega)) (by simp [hsym])
  have hlast : s.i.toNat % 4 = 3 := by rw [← hcount, hcnt]; rfl
  omega

/-- In TAIL the bytes of the partial group, `3 - PAD` of them or none, are the ones missing below OUTL. -/
theorem Decoding.outl_eq_of_end {s : State} (h : Decoding s) (hi : s.i.toNat = s.n.toNat - s.pad.toNat) :
    s.outl.toNat = s.j.toNat + (3 - s.pad.toNat) % 3 := by
  obtain ⟨⟨hfour, hmod, hpad, -, houtl⟩, -, -, hj⟩ := h
  omega

/-- J never exceeds OUTL, in the decode pass or outside it. -/
theorem EngineOk.j_le_outl {s : State} (h : EngineOk s) : s.j.toNat ≤ s.outl.toNat := by
  by_cases hd : s.phase = .dec
  · exact (h.dec hd).1.j_le_outl
  by_cases ht : s.phase = .tail
  · exact (h.tail ht).1.j_le_outl
  exact (congrArg BitVec.toNat (h.settled hd ht)).le

/-! ### The class the selector reads (R125) -/

/-- With the ROM in place the engine's class is that of the input byte at I. -/
theorem currentClass_eq_inClass {s : State} (h : s.lut = lutRom) : currentClass s = inClass s s.i.toNat := by
  rw [currentClass, lutRead_rom h, inClass, classOf]

/-- The selector of DEC_SYM is read in DEC only, at a symbol. -/
theorem phase_class_of_selector_decSym {s : State} (h : selector s = some 0b10000#5) :
    s.phase = .dec ∧ currentClass s = .sym := by
  have hcases := decodeSel_selector h
  have hdecode : decodeSel 0b10000#5 = .decSym := rfl
  cases hc : currentClass s with
  | sym =>
    obtain ⟨hp, -⟩ : s.phase = .dec ∧ s.i.toNat < s.inCap := by simpa [hdecode, hc, valStep, decStep] using hcases
    exact ⟨hp, rfl⟩
  | pad | inv | never => simp [hdecode, hc, valStep, decStep] at hcases

/-! ### Who writes OUT_MEM (R52, R101) -/

/-- The effect of a transaction leaves OUT_MEM. -/
theorem TxnEffect.outMem {s u : State} (h : TxnEffect s u) : u.outMem = s.outMem := by
  have hstart : ∀ v : State, (startRun v).outMem = v.outMem := fun v => by
    obtain ⟨-, -, hv⟩ | ⟨-, hv⟩ := startRun_cases v <;> simp [hv]
  cases h with
  | start => exact hstart s
  | clrStart => exact hstart (clearStatus s)
  | none | irqEn | drop | inLen | store | clr => rfl

/-- A transaction or a command leaves OUT_MEM. -/
theorem exec_txn_outMem {i : Instr} {s t : State} (hi : i.format ≠ .sel) (h : exec i s = .next t) :
    t.outMem = s.outMem := by
  obtain ⟨u, r, d, hu, he⟩ := exec_txn_cases i s hi
  cases he.symm.trans h
  exact hu.outMem

/-- An engine step leaves every OUT_MEM byte at or above OUTL (R101). -/
theorem EngineEffect.outByte_of_outl_le {s t : State} (h : EngineEffect s t) {k : Nat} (hk : s.outl.toNat ≤ k) :
    outByte t k = outByte s k := by
  cases h with
  | symbol _ _ _ _ hm | finish _ _ _ hm => exact hm.below k hk
  | none | empty | fail | enterVal | accept | enterDec | enterTail => rfl

@[simp] theorem engineFrom_outMem (s : State) : (engineFrom s).outMem = s.outMem := by unfold engineFrom; split <;> rfl

@[simp] theorem engineFrom_outl (s : State) : (engineFrom s).outl = s.outl := by unfold engineFrom; split <;> rfl

@[simp] theorem engineFrom_pad (s : State) : (engineFrom s).pad = s.pad := by unfold engineFrom; split <;> rfl

@[simp] theorem engineFrom_j (s : State) : (engineFrom s).j = s.j := by unfold engineFrom; split <;> rfl

/-- What a step outside the decode pass keeps: OUT_MEM, and, where it leaves the engine
in IDLE, J and OUTL. -/
structure KeepsOutput (s t : State) : Prop where
  outMem : t.outMem = s.outMem
  cursors : t.phase = .idle → t.j = s.j ∧ t.outl = s.outl

/-- The steps of VAL keep the output: they end the run or accept a byte (R149 to R151). -/
theorem exec_valStep_keepsOutput {c : SymClass} {s t : State} (h : exec (valStep c) s = .next t) : KeepsOutput s t := by
  cases c with
  | sym | pad =>
    simp only [valStep, exec, execValSym, execValPad] at h
    split at h
    · cases h
    · split_ifs at h <;> (cases h; exact ⟨rfl, fun _ => ⟨rfl, rfl⟩⟩)
  | inv =>
    simp only [valStep, exec, execValInv] at h
    split at h <;> cases h
    exact ⟨rfl, fun _ => ⟨rfl, rfl⟩⟩
  | never => cases h

/-- The engine's turn in a phase other than DEC and TAIL keeps the output (R148 to R152, R157). -/
theorem engineTurn_keepsOutput {s u t : State} {sel : Sel} (hs : selector s = some sel) (hd : s.phase ≠ .dec)
    (ht : s.phase ≠ .tail) (h : exec (decodeSel sel) u = .next t) : KeepsOutput u t := by
  obtain ⟨-, hi⟩ | ⟨-, hi⟩ | ⟨-, -, hi⟩ | ⟨-, hi⟩ | ⟨hp, -⟩ | ⟨hp, -⟩ | ⟨-, l, hi⟩ := decodeSel_selector hs
  · rw [hi] at h
    cases h
    exact ⟨rfl, fun _ => ⟨rfl, rfl⟩⟩
  · rw [hi] at h
    simp only [exec, execLen] at h
    split_ifs at h <;> (cases h; exact ⟨rfl, fun _ => ⟨rfl, rfl⟩⟩)
  · exact exec_valStep_keepsOutput (hi ▸ h)
  · rw [hi] at h
    simp only [exec, execPrep] at h
    split at h
    · cases h
    · split_ifs at h
      cases h
      exact ⟨rfl, nofun⟩
  · exact absurd hp hd
  · exact absurd hp ht
  · cases hi ▸ h

/-- A step changes a byte of OUT_MEM in DEC or TAIL only, and only below OUTL (R101). -/
theorem step_writes_below_outl {s t : State} (h : step s = .next t) {k : Nat} (hk : outByte t k ≠ outByte s k) :
    (s.phase = .dec ∨ s.phase = .tail) ∧ k < s.outl.toNat := by
  obtain ⟨txn, held, rest, -, -, he⟩ | ⟨sel, hsel, he, -⟩ | ⟨rest, -, -, rfl⟩ | ⟨rest, -, -, rfl⟩ := step_cases h
  · exact absurd (outByte_congr (exec_txn_outMem (decodeTD_format _ _ _) he) k) hk
  · have hfrom : outByte (engineFrom s) k = outByte s k := outByte_congr (engineFrom_outMem s) k
    constructor
    · by_contra hp
      obtain ⟨hd, ht⟩ := not_or.1 hp
      exact hk ((outByte_congr (engineTurn_keepsOutput hsel hd ht he).outMem k).trans hfrom)
    · by_contra hge
      have heff := exec_sel_cases (decodeSel_format sel) he
      exact hk ((heff.outByte_of_outl_le (by simpa using hge)).trans hfrom)
  · exact absurd rfl hk
  · exact absurd rfl hk

/-! ### How a run ends (R161) -/

/-- A step of DEC ends no run: it stays in DEC or goes on to TAIL (R153, R154). -/
theorem exec_decStep_phase {c : SymClass} {s t : State} (hp : s.phase = .dec) (h : exec (decStep c) s = .next t) :
    t.phase ≠ .idle := by
  cases c with
  | sym =>
    simp only [decStep, exec, execDecSym] at h
    split at h
    · cases h
    · split at h
      · cases h
      · cases h
        dsimp only
        split <;> simp [hp]
  | pad => cases h; exact nofun
  | inv | never => cases h

/-- TAIL takes J to OUTL when the partial group is what is missing below OUTL (R156). -/
theorem exec_tail_j {c : BitVec 2} {s t : State} (hroom : s.outl.toNat = s.j.toNat + (3 - s.pad.toNat) % 3)
    (h : exec (.tail c) s = .next t) : t.j = s.outl ∧ t.outl = s.outl := by
  simp only [exec, execTail] at h
  split_ifs at h with hpad
  · split at h
    · cases h
    · rename_i u m hu
      obtain ⟨hframe, hm, -, -⟩ := emitTail_spec hu
      cases h
      have hlen : (tailBytes (tailAlign s.acc s.pad) s.pad).length = 3 - s.pad.toNat := by simp [tailBytes]
      have hcount : s.outl.toNat = s.j.toNat + m := by omega
      refine ⟨BitVec.eq_of_toNat_eq ?_, by rw [hframe]; rfl⟩
      simp only [complete_j, BitVec.toNat_add, BitVec.toNat_ofNat]
      omega
  · cases h
    refine ⟨BitVec.eq_of_toNat_eq ?_, rfl⟩
    simp only [complete_j]
    omega

/-- The engine's turn that ends a run leaves OUTL and takes J to it, whichever of LEN, VAL and TAIL ends it. -/
theorem engineTurn_ends_at_outl {s t : State} {sel : Sel} (hok : EngineOk s) (hs : selector s = some sel)
    (h : exec (decodeSel sel) (engineFrom s) = .next t) (ht : t.phase = .idle) : t.j = s.outl ∧ t.outl = s.outl := by
  by_cases hd : s.phase = .dec
  · have hi : decodeSel sel = decStep (currentClass s) := by
      simpa [hd, (hok.dec hd).2.trans_le (hok.latched (by simp [hd])).2] using decodeSel_selector hs
    rw [hi] at h
    exact absurd ht (exec_decStep_phase (by simpa using hd) h)
  by_cases htail : s.phase = .tail
  · have hi : decodeSel sel = .tail 0#2 := by simpa [htail] using decodeSel_selector hs
    rw [hi] at h
    obtain ⟨hdec, hend⟩ := hok.tail htail
    simpa using exec_tail_j (by simpa using hdec.outl_eq_of_end hend) h
  · obtain ⟨hj, houtl⟩ := (engineTurn_keepsOutput hs hd htail h).cursors ht
    simp [hj, houtl, hok.settled hd htail]

/-- A step that ends a run takes J to the run's OUTL, or it is a reset edge, which clears both (R63, R161). -/
theorem step_ends_run {s t : State} (hok : EngineOk s) (h : step s = .next t) (hs : s.phase ≠ .idle)
    (ht : t.phase = .idle) :
    (t.j = s.outl ∧ t.outl = s.outl) ∨
      (t.j = t.outl ∧ s.engineDue = false ∧ ∃ rest, s.pending = .rst :: rest) := by
  obtain ⟨txn, held, rest, -, -, he⟩ | ⟨sel, hsel, he, -⟩ | ⟨rest, -, -, rfl⟩ | ⟨rest, hdue, hpend, rfl⟩ := step_cases h
  · exact absurd ((exec_td_done_phase (decodeTD_format_td _ _ _) he).1 ht) hs
  · exact .inl (engineTurn_ends_at_outl hok hsel he ht)
  · exact absurd ht hs
  · exact .inr ⟨rfl, hdue, rest, hpend⟩

end Sys2Proof.Machine

open Sys2Proof Sys2Proof.Machine

/-- Settles O52: the invariant bounds I, J and OUTL phase by phase, and a step writes below OUTL and ends a run with J
at OUTL. -/
theorem engineAccessStaysInBounds : Obligations.EngineAccessStaysInBounds := by
  rintro s ⟨hconst, -, -, hok⟩
  have hcap : s.phase ≠ .idle → s.n.toNat ≤ s.inCap := fun hp => (hok.latched hp).2
  refine ⟨?_, fun hp => ⟨(hok.prep hp).1, hcap (by simp [hp])⟩, hok.j_le_outl, ?_, fun hsel hcnt => ?_, fun hp hpad => ?_,
    fun t h => ⟨fun k => step_writes_below_outl h, fun hs ht => ?_, fun hs ht => ?_⟩⟩
  · rintro (hp | hp)
    · obtain ⟨-, -, hi, -⟩ := hok.val hp
      exact ⟨hi, hcap (by simp [hp])⟩
    · exact ⟨(hok.dec hp).2, hcap (by simp [hp])⟩
  · rintro (hp | hp)
    · exact (hok.dec hp).1.prepared.outl_le (hcap (by simp [hp]))
    · exact (hok.tail hp).1.prepared.outl_le (hcap (by simp [hp]))
  · obtain ⟨hp, hsym⟩ := phase_class_of_selector_decSym hsel
    obtain ⟨hdec, hi⟩ := hok.dec hp
    exact hdec.group_fits hi (currentClass_eq_inClass hconst.lut ▸ hsym) hcnt
  · obtain ⟨hdec, hend⟩ := hok.tail hp
    have hroom := hdec.outl_eq_of_end hend
    omega
  · obtain ⟨hj, houtl⟩ | ⟨hj, -⟩ := step_ends_run hok h hs ht
    · exact hj.trans houtl.symm
    · exact hj
  · exact (step_ends_run hok h (by simp [hs]) ht).imp_right And.right

end

section
/-!
PROOFS. The encodings of 30_encoding.md: the byte decoder reads every operation back (O1), the operation of each
descriptor (O3, O4, O5) and of each selector (O6, O40), the ROM's contents (O8) and the layout of the accumulator (O9).
-/

namespace Sys2Proof

open Sys2Proof.Machine

/-- The number of two words side by side. -/
theorem toNat_append_eq_add {m n : Nat} (x : BitVec m) (y : BitVec n) :
    (x ++ y).toNat = x.toNat * 2 ^ n + y.toNat := by
  rw [BitVec.toNat_append, ← Nat.shiftLeft_add_eq_or_of_lt y.isLt, Nat.shiftLeft_eq]

/-- The number of a field of a word. -/
theorem toNat_extractLsb'_eq_mod {n : Nat} (s m : Nat) (x : BitVec n) :
    (x.extractLsb' s m).toNat = x.toNat / 2 ^ s % 2 ^ m := by
  rw [BitVec.extractLsb'_toNat, Nat.shiftRight_eq_div_pow]

/-! ### The fields of a descriptor (R118, R119) -/

/-- OFF is made up of the quarter, the word index and the alignment bits. -/
theorem tdOff_toNat (td : TD) :
    (tdOff td).toNat = 0x10000 * (tdQuarter td).toNat + laneBase (tdWord td) + (tdAlign td).toNat := by
  simp only [tdOff, tdQuarter, laneBase, tdWord, tdAlign, toNat_extractLsb'_eq_mod]
  omega

/-- The descriptor of a window word, field after field. -/
theorem windowTD_eq_append (write : Bool) (q : BitVec 2) (w : BitVec 14) :
    windowTD write q w = BitVec.ofBool write ++ 0b10#2 ++ q ++ w ++ 0b00#2 := by
  apply BitVec.eq_of_toNat_eq
  simp only [windowTD, wordTD, szWord, toNat_append_eq_add]
  omega

@[simp] theorem tdW_windowTD (write : Bool) (q : BitVec 2) (w : BitVec 14) : tdW (windowTD write q w) = write := by
  rw [tdW, windowTD, wordTD, BitVec.getLsbD_append, BitVec.getLsbD_append]
  cases write <;> rfl

@[simp] theorem tdSz_windowTD (write : Bool) (q : BitVec 2) (w : BitVec 14) : tdSz (windowTD write q w) = szWord := by
  apply BitVec.eq_of_toNat_eq
  simp only [tdSz, windowTD_eq_append, szWord, toNat_extractLsb'_eq_mod, toNat_append_eq_add, BitVec.toNat_ofNat]
  omega

@[simp] theorem tdAlign_windowTD (write : Bool) (q : BitVec 2) (w : BitVec 14) : tdAlign (windowTD write q w) = 0#2 := by
  apply BitVec.eq_of_toNat_eq
  simp only [tdAlign, windowTD_eq_append, toNat_extractLsb'_eq_mod, toNat_append_eq_add, BitVec.toNat_ofNat]
  omega

@[simp] theorem tdQuarter_windowTD (write : Bool) (q : BitVec 2) (w : BitVec 14) : tdQuarter (windowTD write q w) = q := by
  apply BitVec.eq_of_toNat_eq
  simp only [tdQuarter, windowTD_eq_append, toNat_extractLsb'_eq_mod, toNat_append_eq_add, BitVec.toNat_ofNat]
  omega

@[simp] theorem tdWord_windowTD (write : Bool) (q : BitVec 2) (w : BitVec 14) : tdWord (windowTD write q w) = w := by
  apply BitVec.eq_of_toNat_eq
  simp only [tdWord, windowTD_eq_append, toNat_extractLsb'_eq_mod, toNat_append_eq_add, BitVec.toNat_ofNat]
  omega

/-! ### The operation of a descriptor (R120, R121, R128, R213) -/

/-- A descriptor of quarter 01 selects an IN window operation below IN_CAP, and BAD from there on (R121). -/
theorem decodeTD_windowTD_in (cap : Nat) (write : Bool) (w : BitVec 14) (d : Word32) :
    decodeTD cap (windowTD write 0b01#2 w) d =
      if laneBase w < cap then (if write then .wrIn w d else .rdIn w) else .bad (windowTD write 0b01#2 w) := by
  simp [decodeTD]

/-- A descriptor of quarter 10 selects an OUT window operation below OUT_CAP, and BAD from there on (R121). -/
theorem decodeTD_windowTD_out (cap : Nat) (write : Bool) (w : BitVec 14) (d : Word32) :
    decodeTD cap (windowTD write 0b10#2 w) d =
      if laneBase w < Config.outCapOf cap then (if write then .wrOut w d else .rdOut w)
      else .bad (windowTD write 0b10#2 w) := by
  simp [decodeTD]

/-- Every offset up to 0x20 selects a register operation (R120). -/
theorem decodeRegister_ne_bad {td : TD} (h : (tdOff td).toNat ≤ 0x20) (d : Word32) (td' : TD) :
    decodeRegister td d ≠ .bad td' := by
  unfold decodeRegister
  have hk : (tdOff td).toNat / 4 ≤ 8 := by omega
  generalize (tdOff td).toNat / 4 = k at hk
  interval_cases k <;> cases tdW td <;> exact nofun

/-- The descriptors that select BAD, by the order of DecodeTD's conditions (R213). -/
theorem decodeTD_eq_bad_iff (cap : Nat) (td : TD) (d : Word32) :
    decodeTD cap td d = .bad td ↔
      tdSz td ≠ szWord ∨ tdAlign td ≠ 0#2 ∨ ((tdQuarter td).toNat = 0 ∧ 0x20 < (tdOff td).toNat) ∨
        ((tdQuarter td).toNat = 1 ∧ cap ≤ laneBase (tdWord td)) ∨
        ((tdQuarter td).toNat = 2 ∧ Config.outCapOf cap ≤ laneBase (tdWord td)) ∨ (tdQuarter td).toNat = 3 := by
  unfold decodeTD
  by_cases hsz : tdSz td = szWord
  case neg => simp [hsz]
  by_cases hal : tdAlign td = 0#2
  case neg => simp [hal]
  have hq : (tdQuarter td).toNat = 0 ∨ (tdQuarter td).toNat = 1 ∨ (tdQuarter td).toNat = 2 ∨ (tdQuarter td).toNat = 3 := by
    omega
  obtain hq | hq | hq | hq := hq
  · obtain hoff | hoff := Nat.lt_or_ge 0x20 (tdOff td).toNat
    · simp [hsz, hal, hq, hoff, hoff.not_ge]
    · simp [hsz, hal, hq, hoff.not_gt, hoff, decodeRegister_ne_bad hoff]
  · obtain hlt | hge := Nat.lt_or_ge (laneBase (tdWord td)) cap
    · cases hw : tdW td <;> simp [hsz, hal, hq, hlt]
    · simp [hsz, hal, hq, hge, hge.not_gt]
  · obtain hlt | hge := Nat.lt_or_ge (laneBase (tdWord td)) (Config.outCapOf cap)
    · cases hw : tdW td <;> simp [hsz, hal, hq, hlt]
    · simp [hsz, hal, hq, hge, hge.not_gt]
  · simp [hsz, hal, hq]

/-- The illegal descriptors are exactly those that select BAD (R128). -/
theorem decodeTD_eq_bad_iff_illegal (cap : Nat) (td : TD) (d : Word32) :
    decodeTD cap td d = .bad td ↔ tdIllegal cap td = true := by
  rw [decodeTD_eq_bad_iff]
  by_cases hsz : tdSz td = szWord
  case neg => simp [hsz, tdIllegal]
  have hoff := tdOff_toNat td
  have hlane : laneBase (tdWord td) = 4 * (tdWord td).toNat := rfl
  have hal : tdAlign td = 0#2 ↔ (tdAlign td).toNat = 0 := BitVec.toNat_inj.symm
  simp only [tdIllegal, hsz, hal, ne_eq, bne_self_eq_false, Bool.false_or, Bool.or_eq_true, Bool.and_eq_true, bne_iff_ne,
    decide_eq_true_eq, not_true, false_or]
  omega

/-! ### Every code is read back (R118 to R122, R125) -/

/-- The command word of each command selects it, whatever its ignored bits hold (R122, R190). -/
theorem decodeCtrl_append (r : BitVec 30) :
    decodeCtrl (r ++ 0b00#2) = .nop r ∧ decodeCtrl (r ++ 0b01#2) = .start r ∧ decodeCtrl (r ++ 0b10#2) = .clr r ∧
      decodeCtrl (r ++ 0b11#2) = .clrStart r := by
  have hlow : ∀ c : BitVec 2, (r ++ c).extractLsb' 0 2 = c := fun c => by
    rw [BitVec.extractLsb'_append_eq_of_add_le (by decide), BitVec.extractLsb'_eq_self]
  have hhigh : ∀ c : BitVec 2, ctrlReserved (r ++ c) = r := fun c => by
    rw [ctrlReserved, BitVec.extractLsb'_append_eq_of_le (by decide), BitVec.extractLsb'_eq_self]
  simp [decodeCtrl, hlow, hhigh]

/-- The selectors of the phases whose step takes any CLASS (R125, R129). -/
theorem decodeSel_append (c : BitVec 2) :
    decodeSel (0b000#3 ++ c) = .idle c ∧ decodeSel (0b001#3 ++ c) = .len c ∧ decodeSel (0b011#3 ++ c) = .prep c ∧
      decodeSel (0b101#3 ++ c) = .tail c ∧ decodeSel (0b110#3 ++ c) = .unreachablePhase (0b0#1 ++ c) ∧
      decodeSel (0b111#3 ++ c) = .unreachablePhase (0b1#1 ++ c) := by
  revert c
  decide

/-- The selectors of PHASE 110 and 111 by their low bits (R129). -/
theorem decodeSel_unreachablePhase (l : BitVec 3) : decodeSel (0b11#2 ++ l) = .unreachablePhase l := by
  revert l
  decide

/-- A well-formed operation is the one its code decodes to, as a transaction carries the code. -/
theorem decodeCode_carried_encode {cap : Nat} {i : Instr} (h : i.wf cap = true) :
    decodeCode cap (carried (encode i)) = i := by
  cases i with
  | rdIn w | wrIn w d =>
    have hw : laneBase w < cap := of_decide_eq_true h
    simp [encode, carried, decodeCode, decodeTD_windowTD_in, hw]
  | rdOut w | wrOut w d =>
    have hw : laneBase w < Config.outCapOf cap := of_decide_eq_true h
    simp [encode, carried, decodeCode, decodeTD_windowTD_out, hw]
  | bad td => exact (decodeTD_eq_bad_iff_illegal cap td _).2 h
  | nop r | start r | clr r | clrStart r => simp [encode, carried, decodeCode, decodeCtrl_append]
  | idle c | len c | prep c | tail c => simp [encode, carried, decodeCode, decodeSel_append]
  | unreachablePhase l => exact decodeSel_unreachablePhase l
  | _ => rfl

/-- The code of an operation has the operation's format. -/
theorem codeFormat_encode (i : Instr) : codeFormat (encode i) = i.format := by
  cases i <;> rfl

end Sys2Proof

namespace Sys2Proof.Machine

open Sys2Proof

/-! ### The engine's selector (R125, R129) -/

/-- In VAL and DEC the CLASS of the selector is read from the ROM word of the input byte at I (R125). -/
theorem selector_of_reading {s : State} (hp : s.phase = .val ∨ s.phase = .dec) (hi : s.i.toNat < s.inCap) :
    selector s = some (phaseCode s.phase ++ lutClassBits (lutRead s (inByte s s.i.toNat))) := by
  obtain hp | hp := hp <;> simp [selector, selectorClass, hp, inRead_of_lt hi]

/-- In every other phase the selector is defined whatever the input holds (R125, log entry 9). -/
theorem selector_of_not_reading {s : State} {p : Phase} (hp : s.phase = p) (hv : p ≠ .val) (hd : p ≠ .dec) :
    selector s = some (phaseCode p ++ 0#2) := by
  subst hp
  cases hp : s.phase with
  | val => exact absurd hp hv
  | dec => exact absurd hp hd
  | _ => simp [selector, selectorClass, hp]

/-- During the decode pass the byte at I is a symbol or `=` (R144, R155). -/
theorem Decoding.inClass_cases {s : State} (h : Decoding s) (hi : s.i.toNat < s.n.toNat) :
    inClass s s.i.toNat = .sym ∨ inClass s s.i.toNat = .pad := by
  obtain ⟨hsym, hpad⟩ := h.prepared.suffix _ hi
  exact (Nat.lt_or_ge s.i.toNat (s.n.toNat - s.pad.toNat)).imp hsym hpad

/-- The operations that the engine's selector picks in a state of the invariant: those with a step rule (R129). -/
theorem State.Inv.decodeSel_cases {s : State} {sel : Sel} (h : s.Inv) (hs : selector s = some sel) :
    decodeSel sel ∈ [.idle 0#2, .len 0#2, .valSym, .valPad, .valInv, .prep 0#2, .decSym, .decPad, .tail 0#2] := by
  have hclass := currentClass_eq_inClass h.const.lut
  obtain ⟨-, hi⟩ | ⟨-, hi⟩ | ⟨-, -, hi⟩ | ⟨-, hi⟩ | ⟨hp, -, hi⟩ | ⟨-, hi⟩ | ⟨hp, -⟩ := decodeSel_selector hs
  · simp [hi]
  · simp [hi]
  · obtain hc | hc | hc := classOf_cases (inByte s s.i.toNat) <;> simp [hi, hclass, inClass, hc, valStep]
  · simp [hi]
  · obtain ⟨hdec, hlt⟩ := h.engine.dec hp
    obtain hc | hc := hdec.inClass_cases hlt <;> simp [hi, hclass, hc, decStep]
  · simp [hi]
  · obtain ⟨h110, h111⟩ := h.engine.legal
    exact absurd hp (not_or.2 ⟨h110, h111⟩)

/-! ### The ROM and the alphabet (R110 to R114) -/

/-- The LUT word of the k-th symbol is k (R111, R112). -/
theorem lutWord_alphabet : ∀ k : Nat, ∀ h : k < alphabet.length, lutWord alphabet[k] = BitVec.ofNat 8 k := by
  decide

/-- A byte of the class SYM stands in the alphabet at its value (R111). -/
theorem alphabet_getElem?_valueOf {c : Byte} (h : classOf c = .sym) : alphabet[(valueOf c).toNat]? = some c := by
  revert c
  decide

/-- The LUT word 0x40 is that of `=` alone (R112, R113). -/
theorem lutWord_eq_pad_iff (c : Byte) : lutWord c = 0x40#8 ↔ c = padByte := by
  revert c
  decide

/-- The LUT word of every invalid byte is 0x80 (R112, R114). -/
theorem lutWord_of_inv {c : Byte} (h : classOf c = .inv) : lutWord c = 0x80#8 := by
  revert c
  decide

/-- A byte that is neither in the alphabet nor `=` is invalid (R110). -/
theorem classOf_of_not_mem_alphabet {c : Byte} (hmem : c ∉ alphabet) (hpad : c ≠ padByte) : classOf c = .inv := by
  obtain hc | hc | hc := classOf_cases c
  · exact absurd (List.mem_of_getElem? (alphabet_getElem?_valueOf hc)) hmem
  · exact absurd ((classOf_eq_pad c).1 hc) hpad
  · exact hc

/-- No two symbols share a value (R111). -/
theorem valueOf_injective {c d : Byte} (hc : classOf c = .sym) (hd : classOf d = .sym) (h : valueOf c = valueOf d) :
    c = d := by
  have hcd := alphabet_getElem?_valueOf hd
  rw [← h, alphabet_getElem?_valueOf hc] at hcd
  exact Option.some.inj hcd

/-! ### The accumulator (R115 to R117) -/

/-- Symbol assembly is arithmetic modulo 2^24 (R115). -/
theorem toNat_shiftIn (acc : BitVec 24) (v : BitVec 6) :
    (shiftIn acc v).toNat = (acc.toNat * 64 + v.toNat) % 2 ^ 24 := by
  have hhigh : acc.toNat <<< 6 % 2 ^ 24 = (acc.toNat % 2 ^ 18) <<< 6 := by
    rw [Nat.shiftLeft_eq, Nat.shiftLeft_eq]
    omega
  rw [shiftIn, BitVec.toNat_or, BitVec.toNat_shiftLeft, BitVec.toNat_setWidth_of_le (by decide), hhigh,
    ← Nat.shiftLeft_add_eq_or_of_lt v.isLt, Nat.shiftLeft_eq]
  omega

/-- Four symbols fill ACC whatever it held before (R115). -/
theorem shiftIn_four (acc : BitVec 24) (v0 v1 v2 v3 : BitVec 6) :
    shiftIn (shiftIn (shiftIn (shiftIn acc v0) v1) v2) v3 = v0 ++ v1 ++ v2 ++ v3 := by
  apply BitVec.eq_of_toNat_eq
  simp only [toNat_shiftIn, toNat_append_eq_add]
  omega

/-- The first byte of a group (R116). -/
theorem accHi_append (v0 v1 v2 v3 : BitVec 6) : accHi (v0 ++ v1 ++ v2 ++ v3) = v0 ++ v1.extractLsb' 4 2 := by
  apply BitVec.eq_of_toNat_eq
  simp only [accHi, toNat_extractLsb'_eq_mod, toNat_append_eq_add]
  omega

/-- The second byte of a group (R116). -/
theorem accMid_append (v0 v1 v2 v3 : BitVec 6) :
    accMid (v0 ++ v1 ++ v2 ++ v3) = v1.extractLsb' 0 4 ++ v2.extractLsb' 2 4 := by
  apply BitVec.eq_of_toNat_eq
  simp only [accMid, toNat_extractLsb'_eq_mod, toNat_append_eq_add]
  omega

/-- The third byte of a group (R116). -/
theorem accLo_append (v0 v1 v2 v3 : BitVec 6) : accLo (v0 ++ v1 ++ v2 ++ v3) = v2.extractLsb' 0 2 ++ v3 := by
  apply BitVec.eq_of_toNat_eq
  simp only [accLo, toNat_extractLsb'_eq_mod, toNat_append_eq_add]
  omega

/-- Tail alignment is arithmetic modulo 2^24 (R117). -/
theorem toNat_tailAlign (acc : BitVec 24) (pad : BitVec 2) :
    (tailAlign acc pad).toNat = acc.toNat * 2 ^ (6 * pad.toNat) % 2 ^ 24 := by
  rw [tailAlign, BitVec.toNat_shiftLeft, Nat.shiftLeft_eq]

/-- The alignment for one `=` puts three symbols at the top of ACC (R117). -/
theorem tailAlign_three (acc : BitVec 24) (v0 v1 v2 : BitVec 6) :
    tailAlign (shiftIn (shiftIn (shiftIn acc v0) v1) v2) 1#2 = v0 ++ v1 ++ v2 ++ 0#6 := by
  apply BitVec.eq_of_toNat_eq
  simp only [toNat_tailAlign, toNat_shiftIn, toNat_append_eq_add, BitVec.toNat_ofNat, Nat.reduceMod, Nat.reduceMul,
    Nat.reducePow]
  omega

/-- The alignment for two `=` puts two symbols at the top of ACC (R117). -/
theorem tailAlign_two (acc : BitVec 24) (v0 v1 : BitVec 6) :
    tailAlign (shiftIn (shiftIn acc v0) v1) 2#2 = v0 ++ v1 ++ 0#6 ++ 0#6 := by
  apply BitVec.eq_of_toNat_eq
  simp only [toNat_tailAlign, toNat_shiftIn, toNat_append_eq_add, BitVec.toNat_ofNat, Nat.reduceMod, Nat.reduceMul,
    Nat.reducePow]
  omega

/-- With one `=` the upper two bytes are emitted (R117, R156). -/
theorem tailBytes_one (a : BitVec 24) : tailBytes a 1#2 = [accHi a, accMid a] := rfl

/-- With two `=` the upper byte is emitted (R117, R156). -/
theorem tailBytes_two (a : BitVec 24) : tailBytes a 2#2 = [accHi a] := rfl

end Sys2Proof.Machine

open Sys2Proof Sys2Proof.Machine

/-- Settles O1: the bytes are read back as the code, and the code decodes to the operation. -/
theorem decodeReadsEveryEncodedInstruction : Obligations.DecodeReadsEveryEncodedInstruction := by
  intro cap i rest hwf
  have hread := decode_codeBytes cap (encode i) rest
  rwa [codeFormat_encode, decodeCode_carried_encode hwf] at hread

/-- Settles O3: DecodeTD's own conditions for BAD, with the offset taken apart into quarter, word and alignment. -/
theorem illegalDescriptorsSelectBad : Obligations.IllegalDescriptorsSelectBad := by
  refine ⟨fun cap td d => ?_, fun td s => rfl⟩
  have hoff := tdOff_toNat td
  have hlane : laneBase (tdWord td) = 4 * (tdWord td).toNat := rfl
  have hq : ∀ q : BitVec 2, tdQuarter td = q ↔ (tdQuarter td).toNat = q.toNat := fun q => BitVec.toNat_inj.symm
  change _ ↔ tdSz td ≠ szWord ∨ tdAlign td ≠ 0#2 ∨ (0x24 ≤ (tdOff td).toNat ∧ (tdOff td).toNat ≤ 0x0FFFF) ∨
    (tdQuarter td = 0b01#2 ∧ cap ≤ (tdOff td).toNat - 0x10000) ∨
    (tdQuarter td = 0b10#2 ∧ Config.outCapOf cap ≤ (tdOff td).toNat - 0x20000) ∨ tdQuarter td = 0b11#2
  rw [decodeTD_eq_bad_iff]
  by_cases hal : tdAlign td = 0#2
  case neg => simp [hal]
  simp only [hal, hq, BitVec.toNat_ofNat] at hoff ⊢
  refine or_congr_right (or_congr_right ?_)
  omega

/-- Settles O5: the window descriptors, quarter by quarter. -/
theorem windowOffsetsSelectTheirOperation : Obligations.WindowOffsetsSelectTheirOperation := by
  intro cap w d
  have hread := fun q => windowTD_eq_append false q w
  have hwrite := fun q => windowTD_eq_append true q w
  exact ⟨hread _ ▸ decodeTD_windowTD_in cap false w d, hwrite _ ▸ decodeTD_windowTD_in cap true w d,
    hread _ ▸ decodeTD_windowTD_out cap false w d, hwrite _ ▸ decodeTD_windowTD_out cap true w d⟩

/-- Settles O9: each layout is the equation of its operation. -/
theorem accumulatorLayout : Obligations.AccumulatorLayout := by
  intro acc v0 v1 v2 v3 g
  have hg : g = v0 ++ v1 ++ v2 ++ v3 := shiftIn_four acc v0 v1 v2 v3
  refine ⟨toNat_shiftIn acc v0, hg, ?_, ?_, ?_, tailAlign_three acc v0 v1 v2, tailAlign_two acc v0 v1, ?_, ?_⟩
  · rw [hg, accHi_append]
  · rw [hg, accMid_append]
  · rw [hg, accLo_append]
  · rw [tailBytes_one, accHi_append, accMid_append]
  · rw [tailBytes_two, accHi_append]

/-- Settles O40: the four operations fault by definition, and none of them is a step of a state of the invariant. -/
theorem unreachableSelectorsFault : Obligations.UnreachableSelectorsFault := by
  refine ⟨fun l s => ⟨rfl, rfl, rfl, rfl⟩, fun s sel hinv hs => ?_⟩
  have hmem := hinv.decodeSel_cases hs
  refine ⟨?_, fun l => ?_, ?_, ?_⟩ <;> (intro hi; simp [hi] at hmem)

/-- Settles O4: the eighteen offsets of R120. -/
theorem registerOffsetsSelectTheirOperation : Obligations.RegisterOffsetsSelectTheirOperation := by
  intro cap d
  exact ⟨rfl, rfl, rfl, rfl, rfl, rfl, rfl, rfl, rfl, rfl, rfl, rfl, rfl, rfl, rfl, rfl, rfl, rfl⟩

/-- Settles O6: the table of R125 row by row, and the engine's selector phase by phase. -/
theorem selectorsPickTheirStep : Obligations.SelectorsPickTheirStep := by
  have hother : ∀ (s : State) (p : Phase), p ≠ .val → p ≠ .dec → s.phase = p →
      ∃ c : BitVec 2, selector s = some (phaseCode p ++ c) :=
    fun s p hv hd hp => ⟨0#2, selector_of_not_reading hp hv hd⟩
  refine ⟨decodeSel_append, rfl, rfl, rfl, rfl, rfl, rfl, rfl, rfl, fun s => ⟨hother s .idle nofun nofun,
    hother s .len nofun nofun, hother s .prep nofun nofun, hother s .tail nofun nofun⟩,
    fun s hi => ⟨fun hp => ?_, fun hp => ?_⟩⟩
  · rw [selector_of_reading (.inl hp) hi, hp]
    rfl
  · rw [selector_of_reading (.inr hp) hi, hp]
    rfl

/-- Settles O8: the ROM's entries are the LUT words of R111 and R112. -/
theorem lutHoldsTheAlphabet : Obligations.LutHoldsTheAlphabet := by
  simp only [Obligations.LutHoldsTheAlphabet, lutRom_get]
  exact ⟨rfl, lutWord_alphabet, lutWord_eq_pad_iff,
    fun c hmem hpad => lutWord_of_inv (classOf_of_not_mem_alphabet hmem hpad), fun c d => valueOf_injective⟩

end

section
/-!
PROOFS. One step of the engine, 40_decode_engine.md section 3: what each operation does where its reads, its writes and
its differences are defined (O32 to O39).
-/

namespace Sys2Proof.Machine

open Sys2Proof

/-- Advancing an index of the input does not wrap. -/
theorem toNat_index_succ {i : Index} (h : i.toNat < 65536) : (i + 1#17).toNat = i.toNat + 1 := by bv_omega

/-! ### LEN and VAL (R148 to R151) -/

theorem exec_len_empty (c : BitVec 2) {s : State} (h : s.n.toNat = 0) :
    exec (.len c) s = .next (complete s 0#2 0#17) := by
  simp [exec, execLen, h]

theorem exec_len_badLength (c : BitVec 2) {s : State} (h : s.n.toNat % 4 ≠ 0) :
    exec (.len c) s = .next (raiseDecodeError s .invalidLength 0#17) := by
  have h0 : s.n.toNat ≠ 0 := by omega
  simp only [exec, execLen, if_neg h0, if_pos h]

theorem exec_len_enterVal (c : BitVec 2) {s : State} (h0 : s.n.toNat ≠ 0) (h4 : s.n.toNat % 4 = 0) :
    exec (.len c) s = .next { s with i := 0#17, seenPad := false, phase := .val } := by
  simp only [exec, execLen, if_neg h0, if_neg (not_not.2 h4)]

/-- The accepting steps of VAL advance I, and go on to PREP after the last byte. -/
theorem acceptByte_eq (s : State) :
    acceptByte s = { s with i := s.i + 1#17, phase := if s.i.toNat + 1 = s.n.toNat then .prep else s.phase } := by
  simp only [acceptByte, atLast_iff]

theorem exec_valSym_accept {s : State} (hi : s.i.toNat < s.inCap) (hseen : s.seenPad = false) :
    exec .valSym s = .next (acceptByte s) := by
  simp [exec, execValSym, inRead_of_lt hi, hseen]

theorem exec_valSym_afterPad {s : State} (hi : s.i.toNat < s.inCap) (hseen : s.seenPad = true) (h0 : s.i.toNat ≠ 0) :
    exec .valSym s = .next (raiseDecodeError s .invalidPaddingPosition (s.i - 1#17)) := by
  simp only [exec, execValSym, inRead_of_lt hi, if_pos hseen, if_neg h0]

theorem exec_valPad_early {s : State} (hi : s.i.toNat < s.inCap) (h : s.i.toNat + 2 < s.n.toNat) :
    exec .valPad s = .next (raiseDecodeError s .invalidPaddingPosition s.i) := by
  simp only [exec, execValPad, inRead_of_lt hi, if_pos h]

theorem exec_valPad_accept {s : State} (hi : s.i.toNat < s.inCap) (h : s.n.toNat ≤ s.i.toNat + 2) :
    exec .valPad s = .next (acceptByte { s with seenPad := true }) := by
  simp only [exec, execValPad, inRead_of_lt hi, if_neg h.not_gt]

theorem exec_valInv {s : State} (hi : s.i.toNat < s.inCap) :
    exec .valInv s = .next (raiseDecodeError s .invalidCharacter s.i) := by
  simp only [exec, execValInv, inRead_of_lt hi]

/-- A symbol follows an accepted `=` at I = N - 1 only: the `=` stands in one of the last two positions (R149). -/
theorem EngineOk.atLast_of_seenPad {s : State} (h : EngineOk s) (hp : s.phase = .val) (hseen : s.seenPad = true) :
    4 ≤ s.n.toNat ∧ s.i.toNat + 1 = s.n.toNat := by
  obtain ⟨h4, -, hi, hscan, hpad⟩ := h.val hp
  obtain ⟨k, hk, hclass⟩ := hpad.1 hseen
  obtain ⟨hsym, -⟩ | ⟨-, hlate⟩ := hscan k hk
  · exact absurd (hsym.symm.trans hclass) nofun
  · exact ⟨h4, by omega⟩

/-! ### DEC_SYM and TAIL (R153, R156) -/

/-- The contents `m` of OUT_MEM are those of `s` with the bytes `bs` written at J and the indices after it. -/
structure Emits (s : State) (m : Memory) (bs : List Byte) : Prop where
  bytes : ∀ k, outByte { s with outMem := m } k =
    if s.j.toNat ≤ k ∧ k < s.j.toNat + bs.length then bs.getD (k - s.j.toNat) 0#8 else outByte s k
  wf : Memory.wf (outCap s) s.outMem = true → Memory.wf (outCap s) m = true

/-- Writing no byte leaves OUT_MEM. -/
theorem emits_nil (s : State) : Emits s s.outMem [] :=
  ⟨fun k => by simp, id⟩

/-- ACC after the symbol at I: `((ACC << 6) | v) mod 2^24` (R115). -/
def nextAcc (s : State) : BitVec 24 := shiftIn s.acc (lutValue (lutRead s (inByte s s.i.toNat)))

/-- ACC after the symbol at I as a number (R115). -/
theorem toNat_nextAcc (s : State) :
    (nextAcc s).toNat = (s.acc.toNat * 64 + (lutValue (lutRead s (inByte s s.i.toNat))).toNat) % 2 ^ 24 :=
  toNat_shiftIn _ _

/-- The phase after the symbol at I. -/
theorem phase_after_symbol (s : State) :
    (if atLast s then Phase.tail else s.phase) = if s.i.toNat + 1 = s.n.toNat then .tail else s.phase := by
  simp only [atLast_iff]

/-- The three bytes of a full group (R116). -/
def groupBytes (a : BitVec 24) : List Byte := [accHi a, accMid a, accLo a]

/-- A symbol that does not complete a group (R153). -/
theorem exec_decSym_partial {s : State} (hi : s.i.toNat < s.inCap) (hcnt : s.cnt ≠ 3#2) :
    exec .decSym s = .next
      { s with
        acc := nextAcc s, cnt := s.cnt + 1#2, i := s.i + 1#17
        phase := if s.i.toNat + 1 = s.n.toNat then .tail else s.phase } := by
  simp only [exec, execDecSym, inRead_of_lt hi, if_neg hcnt, phase_after_symbol, nextAcc]

/-- A symbol that completes a group (R153): its three bytes are written and J advances, or nothing is written when
they do not fit below OUTL. -/
theorem exec_decSym_group {s : State} (hi : s.i.toNat < s.inCap) (hcnt : s.cnt = 3#2) (hout : s.outl.toNat ≤ outCap s) :
    ∃ (m : Memory) (j : Index),
      exec .decSym s = .next
        { s with
          acc := nextAcc s, cnt := 0#2, i := s.i + 1#17, j := j, outMem := m
          phase := if s.i.toNat + 1 = s.n.toNat then .tail else s.phase } ∧
      (s.j.toNat + 3 ≤ s.outl.toNat → j.toNat = s.j.toNat + 3 ∧ Emits s m (groupBytes (nextAcc s))) ∧
      (s.outl.toNat < s.j.toNat + 3 → j = s.j ∧ m = s.outMem) := by
  obtain ⟨t, ht⟩ := emitGroup_isSome (nextAcc s) hout
  obtain ⟨hframe, hfits, hskip, hwf⟩ := emitGroup_spec ht
  refine ⟨t.outMem, t.j, ?_, fun hj => ?_, fun hj => ?_⟩
  · simp only [nextAcc] at ht
    simp only [exec, execDecSym, inRead_of_lt hi, if_pos hcnt, ht, phase_after_symbol, nextAcc]
    rw [hframe]
  · obtain ⟨hadv, hbytes⟩ := hfits hj
    exact ⟨by rw [hadv]; bv_omega, hbytes, hwf⟩
  · rw [hskip hj]
    exact ⟨rfl, rfl⟩

/-- TAIL without padding only completes (R156). -/
theorem exec_tail_noPad (c : BitVec 2) {s : State} (hpad : s.pad.toNat = 0) :
    exec (.tail c) s = .next (complete s 0#2 s.outl) := by
  obtain h0 : s.pad = 0#2 := BitVec.eq_of_toNat_eq hpad
  simp [exec, execTail, h0]

@[simp] theorem length_tailBytes (a : BitVec 24) (pad : BitVec 2) : (tailBytes a pad).length = 3 - pad.toNat := by
  simp [tailBytes]

/-- TAIL with padding (R156): the upper bytes of the aligned ACC are written at J as far as they lie below OUTL. -/
theorem exec_tail_pad (c : BitVec 2) {s : State} (hpad : 0 < s.pad.toNat) (hout : s.outl.toNat ≤ outCap s) :
    ∃ (m : Memory) (j : Index),
      exec (.tail c) s = .next
        (complete { s with acc := tailAlign s.acc s.pad, j := j, outMem := m } s.pad s.outl) ∧
      j.toNat = s.j.toNat + min (3 - s.pad.toNat) (s.outl.toNat - s.j.toNat) ∧
      Emits s m ((tailBytes (tailAlign s.acc s.pad) s.pad).take (s.outl.toNat - s.j.toNat)) := by
  obtain ⟨t, w, ht⟩ := emitTail_isSome s.j.toNat (tailBytes (tailAlign s.acc s.pad) s.pad) hout
  obtain ⟨hframe, hw, hbytes, hwf⟩ := emitTail_spec ht
  refine ⟨t.outMem, s.j + BitVec.ofNat 17 w, ?_, ?_, fun k => ?_, hwf⟩
  · simp only [exec, execTail, if_pos hpad, ht]
    rw [hframe]
  · rw [length_tailBytes] at hw
    simp only [BitVec.toNat_add, BitVec.toNat_ofNat]
    omega
  · change outByte t k = _
    rw [hbytes k, List.length_take, min_comm, ← hw]
    split_ifs with hk
    · have hin : k - s.j.toNat < s.outl.toNat - s.j.toNat := by omega
      simp only [List.getD_eq_getElem?_getD, List.getElem?_take_of_lt hin]
    · rfl

/-- The bytes of a full group as numbers (R116). -/
theorem toNat_acc_bytes (a : BitVec 24) :
    (accHi a).toNat = a.toNat / 2 ^ 16 ∧ (accMid a).toNat = a.toNat / 2 ^ 8 % 2 ^ 8 ∧
      (accLo a).toNat = a.toNat % 2 ^ 8 := by
  refine ⟨?_, toNat_extractLsb'_eq_mod 8 8 a, ?_⟩
  · rw [accHi, toNat_extractLsb'_eq_mod]
    omega
  · rw [accLo, toNat_extractLsb'_eq_mod, pow_zero, Nat.div_one]

/-- The t-th byte of TAIL as a number (R156). -/
theorem toNat_tailBytes_getD (a : BitVec 24) (pad : BitVec 2) {t : Nat} (hpad : 0 < pad.toNat)
    (ht : t < 3 - pad.toNat) :
    ((tailBytes a pad).getD t 0#8).toNat = a.toNat / 2 ^ (16 - 8 * t) % 2 ^ 8 := by
  obtain ⟨hhi, hmid, -⟩ := toNat_acc_bytes a
  rw [tailBytes, List.getD_eq_getElem?_getD, List.getElem?_take_of_lt ht]
  obtain rfl | rfl : t = 0 ∨ t = 1 := by omega
  · simp [hhi]; omega
  · simp [hmid]

/-- The selector of DEC_PAD is read in DEC only, at a `=` (R125, R154). -/
theorem phase_class_of_selector_decPad {s : State} (h : selector s = some 0b10001#5) :
    s.phase = .dec ∧ currentClass s = .pad := by
  have hcases := decodeSel_selector h
  have hdecode : decodeSel 0b10001#5 = .decPad := rfl
  cases hc : currentClass s with
  | pad =>
    obtain ⟨hp, -⟩ : s.phase = .dec ∧ s.i.toNat < s.inCap := by simpa [hdecode, hc, valStep, decStep] using hcases
    exact ⟨hp, rfl⟩
  | sym | inv | never => simp [hdecode, hc, valStep, decStep] at hcases

/-- The decode pass meets a symbol before the padding only (R144). -/
theorem Decoding.i_lt_of_sym {s : State} (h : Decoding s) (hlt : s.i.toNat < s.n.toNat)
    (hc : inClass s s.i.toNat = .sym) : s.i.toNat < s.n.toNat - s.pad.toNat := by
  by_contra hge
  have hpad := (h.prepared.suffix _ hlt).2 (Nat.le_of_not_lt hge)
  exact absurd (hpad.symm.trans hc) nofun

/-- The decode pass meets a `=` at the end of the symbols only (R144, R154). -/
theorem Decoding.i_eq_of_pad {s : State} (h : Decoding s) (hlt : s.i.toNat < s.n.toNat)
    (hc : inClass s s.i.toNat = .pad) : s.i.toNat = s.n.toNat - s.pad.toNat := by
  refine h.i.antisymm (Nat.le_of_not_lt fun hbefore => ?_)
  exact absurd (((h.prepared.suffix _ hlt).1 hbefore).symm.trans hc) nofun

end Sys2Proof.Machine

open Sys2Proof Sys2Proof.Machine

/-- Settles O32: LEN's three cases. -/
theorem lenStep : Obligations.LenStep := by
  intro c s
  exact ⟨exec_len_empty c, exec_len_badLength c, exec_len_enterVal c⟩

/-- Settles O33: the two cases of SEENPAD; the invariant puts an accepted `=` at N - 2 or later. -/
theorem valSymStep : Obligations.ValSymStep := by
  refine ⟨fun s hinv hp hseen => ?_, fun s hi hcap => ⟨fun hseen h0 => ?_, fun hseen => ?_⟩⟩
  · obtain ⟨h4, hlast⟩ := hinv.engine.atLast_of_seenPad hp hseen
    exact ⟨hlast, by omega⟩
  · exact ⟨(s.i - 1#17).setWidth 32, by bv_omega, exec_valSym_afterPad hi hseen h0⟩
  · exact ⟨s.i + 1#17, toNat_index_succ (by omega), acceptByte_eq s ▸ exec_valSym_accept hi hseen⟩

/-- Settles O34: the two cases of the index against N - 2. -/
theorem valPadStep : Obligations.ValPadStep := by
  intro s hi hcap h4
  refine ⟨fun hearly => ⟨s.i.setWidth 32, by bv_omega, exec_valPad_early hi (by omega)⟩,
    fun hlate => ⟨s.i + 1#17, toNat_index_succ (by omega), ?_⟩⟩
  have hlast : s.i.toNat = s.n.toNat - 1 ↔ s.i.toNat + 1 = s.n.toNat := by omega
  simp only [exec_valPad_accept hi (by omega : s.n.toNat ≤ s.i.toNat + 2), acceptByte_eq, hlast]

/-- Settles O35: the step raises InvalidCharacter at I whatever SEENPAD is. -/
theorem valInvStep : Obligations.ValInvStep := by
  intro s hi
  exact ⟨s.i.setWidth 32, by bv_omega, exec_valInv hi⟩

/-- Settles O36: PREP counts the padding of the last two bytes, and the difference for OUTL is not negative. -/
theorem prepStep : Obligations.PrepStep := by
  intro c s h4 hn
  have hcount := countPad_ok (by omega) hn
  generalize hp : (if inByte s (s.n.toNat - 1) = padByte then
    (if inByte s (s.n.toNat - 2) = padByte then 2 else 1) else 0) = p at hcount
  have hp2 : p ≤ 2 := by split_ifs at hp <;> omega
  have hpad : (BitVec.ofNat 2 p).toNat = p := by rw [BitVec.toNat_ofNat]; omega
  refine ⟨BitVec.ofNat 2 p, BitVec.ofNat 17 (s.n.toNat * 3 / 4 - p), hpad.trans hp.symm, ?_, ?_⟩
  · rw [hpad, BitVec.toNat_ofNat]
    omega
  · simp only [exec, execPrep, hcount, if_neg (show ¬ s.n.toNat * 3 / 4 < p by omega)]

/-- Settles O37: the two cases of CNT, and for a full group the two cases of the bounds check. -/
theorem decSymStep : Obligations.DecSymStep := by
  refine ⟨fun s hi hcap hcnt => ?_, fun s hi hcap hcnt hout => ?_⟩
  · exact ⟨nextAcc s, s.cnt + 1#2, s.i + 1#17, toNat_nextAcc s, by bv_omega, toNat_index_succ (by omega),
      exec_decSym_partial hi (by rintro h; simp [h] at hcnt)⟩
  · obtain ⟨m, j, hexec, hfits, hskip⟩ := exec_decSym_group hi (BitVec.eq_of_toNat_eq hcnt) hout
    refine ⟨nextAcc s, s.i + 1#17, _, toNat_nextAcc s, toNat_index_succ (by omega), hexec, rfl, fun hj => ?_, hskip⟩
    obtain ⟨hadv, hbytes, -⟩ := hfits hj
    refine ⟨hadv, fun k => ?_⟩
    obtain ⟨hhi, hmid, hlo⟩ := toNat_acc_bytes (nextAcc s)
    refine (congrArg BitVec.toNat (hbytes k)).trans ?_
    by_cases hk : s.j.toNat ≤ k ∧ k < s.j.toNat + 3
    · obtain ⟨d, rfl⟩ := Nat.exists_eq_add_of_le hk.1
      obtain rfl | rfl | rfl : d = 0 ∨ d = 1 ∨ d = 2 := by omega
      · simp [groupBytes, hhi]
      · simp [groupBytes, hmid]
      · simp [groupBytes, hlo]
    · rw [if_neg (by simpa [groupBytes] using hk), if_neg (by omega), if_neg (by omega), if_neg (by omega)]

/-- Settles O38: the two cases of PAD. -/
theorem tailStep : Obligations.TailStep := by
  intro c s hout
  refine ⟨fun hpad => exec_tail_noPad c hpad, fun hpad => ?_⟩
  obtain ⟨m, j, hexec, hj, hbytes, -⟩ := exec_tail_pad c hpad hout
  refine ⟨tailAlign s.acc s.pad, _, toNat_tailAlign _ _, hexec, rfl, hj, fun k => ?_⟩
  refine (congrArg BitVec.toNat (hbytes k)).trans ?_
  rw [List.length_take, length_tailBytes, min_comm, ← hj, complete_j]
  split_ifs with hk
  · rw [← toNat_tailBytes_getD _ _ hpad (by omega), List.getD_eq_getElem?_getD, List.getElem?_take_of_lt (by omega),
      List.getD_eq_getElem?_getD]
  · rfl

/-- Settles O39: DEC_PAD and IDLE by definition; in a state of the invariant the first `=` ends the symbols. -/
theorem decPadAndIdleSteps : Obligations.DecPadAndIdleSteps := by
  refine ⟨fun c s => ⟨rfl, rfl⟩, fun s hinv hsel => ?_⟩
  obtain ⟨hp, hclass⟩ := phase_class_of_selector_decPad hsel
  obtain ⟨hdec, hlt⟩ := hinv.engine.dec hp
  have hend := hdec.i_eq_of_pad hlt (currentClass_eq_inClass hinv.const.lut ▸ hclass)
  obtain ⟨⟨h4, hmod, hpad, -, -⟩, -, hcnt, -⟩ := hdec
  omega

end

section
/-!
PROOFS. The reference function DECODE_REF, 40_decode_engine.md section 2: which inputs it accepts (O57) and how long its
output is (O58).
-/

namespace Sys2Proof.Machine

open Sys2Proof

/-! ### paddingCount and REPACK (R145, R147) -/

theorem refPad_le_two (s : List Byte) : refPad s ≤ 2 := by
  unfold refPad
  split
  · split_ifs <;> omega
  · omega

/-- REPACK makes three bytes of four symbols, two of a rest of three and one of a rest of two. -/
theorem length_repack (vs : List (BitVec 6)) : (repack vs).length = vs.length * 3 / 4 := by
  fun_induction repack vs with
  | case1 v0 v1 v2 v3 vs ih =>
    simp only [List.length_cons, ih]
    omega
  | case2 | case3 | case4 | case5 => simp

/-- REPACK works group by group: no group depends on another. -/
theorem repack_append {vs : List (BitVec 6)} (h : vs.length % 4 = 0) (ws : List (BitVec 6)) :
    repack (vs ++ ws) = repack vs ++ repack ws := by
  fun_induction repack vs with
  | case1 v0 v1 v2 v3 vs ih =>
    simp only [List.length_cons] at h
    simp only [List.cons_append, repack, ih (by omega)]
  | case2 | case3 | case4 => simp at h
  | case5 => rfl

/-! ### The scan, byte by byte (R143, R168) -/

theorem refScan_cons_sym {c : Byte} (h : classOf c = .sym) (n i : Nat) (seen : Bool) (cs : List Byte) :
    refScan n i seen (c :: cs) =
      if seen then some (.invalidPaddingPosition, i - 1) else refScan n (i + 1) seen cs := by
  simp only [refScan, h]

theorem refScan_cons_pad {c : Byte} (h : classOf c = .pad) (n i : Nat) (seen : Bool) (cs : List Byte) :
    refScan n i seen (c :: cs) =
      if i + 2 < n then some (.invalidPaddingPosition, i) else refScan n (i + 1) true cs := by
  simp only [refScan, h]

theorem refScan_cons_inv {c : Byte} (h : classOf c = .inv) (n i : Nat) (seen : Bool) (cs : List Byte) :
    refScan n i seen (c :: cs) = some (.invalidCharacter, i) := by
  simp only [refScan, h]

theorem refDetect_cons_sym {c : Byte} (h : classOf c = .sym) (n i : Nat) (seen : Bool) (cs : List Byte) :
    refDetect n i seen (c :: cs) = if seen then some i else refDetect n (i + 1) seen cs := by
  simp only [refDetect, h]

theorem refDetect_cons_pad {c : Byte} (h : classOf c = .pad) (n i : Nat) (seen : Bool) (cs : List Byte) :
    refDetect n i seen (c :: cs) = if i + 2 < n then some i else refDetect n (i + 1) true cs := by
  simp only [refDetect, h]

theorem refDetect_cons_inv {c : Byte} (h : classOf c = .inv) (n i : Nat) (seen : Bool) (cs : List Byte) :
    refDetect n i seen (c :: cs) = some i := by
  simp only [refDetect, h]

/-- A failure is detected at an index of the bytes scanned. -/
theorem refDetect_bounds {n i : Nat} {seen : Bool} {cs : List Byte} {p : Nat} (h : refDetect n i seen cs = some p) :
    i ≤ p ∧ p < i + cs.length := by
  induction cs generalizing i seen with
  | nil => cases h
  | cons c cs ih =>
    rw [List.length_cons]
    obtain hc | hc | hc := classOf_cases c
    · rw [refDetect_cons_sym hc] at h
      split_ifs at h
      · cases h; omega
      · have := ih h; omega
    · rw [refDetect_cons_pad hc] at h
      split_ifs at h
      · cases h; omega
      · have := ih h; omega
    · rw [refDetect_cons_inv hc] at h
      cases h; omega

/-! ### The closed form of validity (R144) -/

/-- Symbols and then at most two `=`. -/
def SymbolsThenPads (s : List Byte) : Prop :=
  ∃ a b, s = a ++ b ∧ (∀ c ∈ a, classOf c = .sym) ∧ (∀ c ∈ b, classOf c = .pad) ∧ b.length ≤ 2

/-- After an accepted `=` the scan accepts `=` only, and at most two in all reach the end. -/
theorem refScan_seen_eq_none_iff {n i : Nat} {cs : List Byte} (hn : n = i + cs.length) :
    refScan n i true cs = none ↔ (∀ c ∈ cs, classOf c = .pad) ∧ cs.length ≤ 2 := by
  induction cs generalizing i with
  | nil => simp [refScan]
  | cons c cs ih =>
    rw [List.length_cons] at hn
    obtain hc | hc | hc := classOf_cases c
    · simp [refScan_cons_sym hc, hc]
    · rw [refScan_cons_pad hc]
      split_ifs with hearly
      · simp; omega
      · rw [ih (by omega)]
        simp only [List.forall_mem_cons, hc, true_and, List.length_cons]
        exact and_congr_right fun _ => by omega
    · simp [refScan_cons_inv hc, hc]

/-- The scan accepts symbols followed by at most two `=`, and nothing else. -/
theorem refScan_eq_none_iff {n i : Nat} {cs : List Byte} (hn : n = i + cs.length) :
    refScan n i false cs = none ↔ SymbolsThenPads cs := by
  induction cs generalizing i with
  | nil => exact iff_of_true rfl ⟨[], [], by simp⟩
  | cons c cs ih =>
    rw [List.length_cons] at hn
    obtain hc | hc | hc := classOf_cases c
    · rw [refScan_cons_sym hc, if_neg Bool.false_ne_true, ih (by omega)]
      constructor
      · rintro ⟨a, b, rfl, ha, hb, hlen⟩
        exact ⟨c :: a, b, rfl, List.forall_mem_cons.2 ⟨hc, ha⟩, hb, hlen⟩
      · rintro ⟨_ | ⟨d, a⟩, b, heq, ha, hb, hlen⟩
        · obtain rfl : c :: cs = b := heq
          exact absurd (hc.symm.trans (List.forall_mem_cons.1 hb).1) nofun
        · cases heq
          exact ⟨a, b, rfl, (List.forall_mem_cons.1 ha).2, hb, hlen⟩
    · have hseen := refScan_seen_eq_none_iff (n := n) (i := i + 1) (cs := cs) (by omega)
      have hpads : SymbolsThenPads (c :: cs) ↔ (∀ d ∈ cs, classOf d = .pad) ∧ cs.length ≤ 1 := by
        constructor
        · rintro ⟨_ | ⟨d, a⟩, b, heq, ha, hb, hlen⟩
          · obtain rfl : c :: cs = b := heq
            exact ⟨(List.forall_mem_cons.1 hb).2, by simpa using hlen⟩
          · cases heq
            exact absurd (hc.symm.trans (List.forall_mem_cons.1 ha).1) nofun
        · rintro ⟨hb, hlen⟩
          exact ⟨[], c :: cs, rfl, by simp, List.forall_mem_cons.2 ⟨hc, hb⟩, by simpa using hlen⟩
      rw [refScan_cons_pad hc, hpads]
      split_ifs with hearly
      · exact iff_of_false nofun (by omega)
      · rw [hseen]
        exact and_congr_right fun _ => by omega
    · rw [refScan_cons_inv hc]
      refine iff_of_false nofun ?_
      rintro ⟨a, b, heq, ha, hb, -⟩
      have hmem : c ∈ a ++ b := heq ▸ List.mem_cons_self
      obtain hmem | hmem := List.mem_append.1 hmem
      · exact absurd (hc.symm.trans (ha c hmem)) nofun
      · exact absurd (hc.symm.trans (hb c hmem)) nofun

/-- The closed form over indices, as R144 writes it, says the same as the split into symbols and `=`. -/
theorem symbolsThenPads_iff (s : List Byte) :
    SymbolsThenPads s ↔
      ∃ pad ≤ 2, ∀ i < s.length,
        (i < s.length - pad → classOf (s.getD i 0#8) = .sym) ∧
        (s.length - pad ≤ i → classOf (s.getD i 0#8) = .pad) := by
  constructor
  · rintro ⟨a, b, rfl, ha, hb, hlen⟩
    refine ⟨b.length, hlen, fun i hi => ?_⟩
    rw [List.length_append] at hi ⊢
    refine ⟨fun hsym => ?_, fun hpad => ?_⟩
    · rw [List.getD_append _ _ _ _ (by omega), List.getD_eq_getElem _ _ (by omega)]
      exact ha _ (List.getElem_mem _)
    · rw [List.getD_append_right _ _ _ _ (by omega), List.getD_eq_getElem _ _ (by omega)]
      exact hb _ (List.getElem_mem _)
  · rintro ⟨pad, hpad, hall⟩
    refine ⟨s.take (s.length - pad), s.drop (s.length - pad), (List.take_append_drop _ _).symm, fun c hc => ?_,
      fun c hc => ?_, by simp; omega⟩
    · obtain ⟨i, hi, rfl⟩ := List.mem_take_iff_getElem.1 hc
      have hsym := (hall i (by omega)).1 (by omega)
      rwa [List.getD_eq_getElem] at hsym
    · obtain ⟨i, hi, rfl⟩ := List.mem_drop_iff_getElem.1 hc
      have hclass := (hall (s.length - pad + i) (by omega)).2 (by omega)
      rwa [List.getD_eq_getElem] at hclass

/-! ### DECODE_REF (R143) -/

theorem decodeRef_of_empty {s : List Byte} (h : s.length = 0) : decodeRef s = .ok [] 0 := by
  rw [decodeRef, if_pos h]

theorem decodeRef_of_badLength {s : List Byte} (h : s.length % 4 ≠ 0) : decodeRef s = .err .invalidLength 0 := by
  rw [decodeRef, if_neg (by omega), if_pos h]

theorem decodeRef_of_scan_fails {s : List Byte} (h4 : s.length % 4 = 0) {code : ErrCode} {pos : Nat}
    (hscan : refScan s.length 0 false s = some (code, pos)) : decodeRef s = .err code pos := by
  have h0 : s.length ≠ 0 := by
    rintro h0
    rw [List.length_eq_zero_iff.1 h0] at hscan
    cases hscan
  simp only [decodeRef, if_neg h0, if_neg (not_not.2 h4), hscan]

theorem decodeRef_of_scan_passes {s : List Byte} (h0 : s.length ≠ 0) (h4 : s.length % 4 = 0)
    (hscan : refScan s.length 0 false s = none) :
    decodeRef s = .ok (repack ((s.take (s.length - refPad s)).map valueOf)) (refPad s) := by
  simp only [decodeRef, if_neg h0, if_neg (not_not.2 h4), hscan]

/-- The four ways DECODE_REF can go. -/
theorem decodeRef_cases (s : List Byte) :
    (s.length = 0 ∧ decodeRef s = .ok [] 0) ∨
    (s.length % 4 ≠ 0 ∧ decodeRef s = .err .invalidLength 0) ∨
    (s.length % 4 = 0 ∧ ∃ code pos, refScan s.length 0 false s = some (code, pos) ∧ decodeRef s = .err code pos) ∨
    (s.length ≠ 0 ∧ s.length % 4 = 0 ∧ refScan s.length 0 false s = none ∧
      decodeRef s = .ok (repack ((s.take (s.length - refPad s)).map valueOf)) (refPad s)) := by
  by_cases h0 : s.length = 0
  · exact .inl ⟨h0, decodeRef_of_empty h0⟩
  by_cases h4 : s.length % 4 = 0
  · cases hscan : refScan s.length 0 false s with
    | none => exact .inr (.inr (.inr ⟨h0, h4, rfl, decodeRef_of_scan_passes h0 h4 hscan⟩))
    | some r => exact .inr (.inr (.inl ⟨h4, r.1, r.2, rfl, decodeRef_of_scan_fails h4 hscan⟩))
  · exact .inr (.inl ⟨h4, decodeRef_of_badLength h4⟩)

/-! ### The step count (R168) -/

/-- The steps that a run takes over a valid input after its VAL pass: PREP, one for each symbol, one for the first
`=` if there is one, and TAIL. -/
def stepsAfterVal (s : List Byte) : Nat := 2 + (s.length - refPad s) + (if 0 < refPad s then 1 else 0)

/-- The steps that a run takes from index i of its VAL pass on. -/
def stepsFromVal (s : List Byte) (i : Nat) (seen : Bool) : Nat :=
  match refDetect s.length i seen (s.drop i) with
  | some p => p - i + 1
  | none => s.length - i + stepsAfterVal s

theorem refSteps_of_short {s : List Byte} (h : s.length = 0 ∨ s.length % 4 ≠ 0) : refSteps s = 1 := by
  unfold refSteps
  obtain h | h := h
  · rw [if_pos h]
  · rw [if_neg (by omega), if_pos h]

theorem refSteps_of_long {s : List Byte} (h0 : s.length ≠ 0) (h4 : s.length % 4 = 0) :
    refSteps s = 1 + stepsFromVal s 0 false := by
  simp only [refSteps, if_neg h0, if_neg (not_not.2 h4), stepsFromVal, stepsAfterVal, List.drop_zero]
  cases refDetect s.length 0 false s <;> dsimp only <;> omega

/-- Every run takes at least one step and at most 2N + 3 (R168). -/
theorem refSteps_bounds (s : List Byte) : 1 ≤ refSteps s ∧ refSteps s ≤ 2 * s.length + 3 := by
  by_cases hshort : s.length = 0 ∨ s.length % 4 ≠ 0
  · rw [refSteps_of_short hshort]
    omega
  · obtain ⟨h0, h4⟩ := not_or.1 hshort
    rw [refSteps_of_long h0 (not_not.1 h4), stepsFromVal, List.drop_zero]
    cases hdet : refDetect s.length 0 false s with
    | some p =>
      have := refDetect_bounds hdet
      dsimp only
      omega
    | none =>
      dsimp only [stepsAfterVal]
      split_ifs <;> omega

end Sys2Proof.Machine

open Sys2Proof Sys2Proof.Machine

/-- Settles O57: of the four ways DECODE_REF can go, the two successes are the two kinds of the closed form. -/
theorem decodeRefSucceedsExactlyOnValidInput : Obligations.DecodeRefSucceedsExactlyOnValidInput := by
  intro s
  rw [refValid, ← symbolsThenPads_iff, ← refScan_eq_none_iff (Nat.zero_add _).symm]
  obtain ⟨h0, hok⟩ | ⟨h4, herr⟩ | ⟨h4, code, pos, hscan, herr⟩ | ⟨h0, h4, hscan, hok⟩ := decodeRef_cases s
  · exact iff_of_true ⟨_, _, hok⟩ (.inl h0)
  · simp only [herr, reduceCtorEq, exists_false, false_iff]
    omega
  · have h0 : s.length ≠ 0 := by
      rintro h0
      exact absurd ((decodeRef_of_empty h0).symm.trans herr) nofun
    simp [herr, hscan, List.length_eq_zero_iff.not.1 h0]
  · exact iff_of_true ⟨_, _, hok⟩ (.inr ⟨h4, hscan⟩)

/-- Settles O58: REPACK's length on the symbols before the padding. -/
theorem decodeRefOutputLength : Obligations.DecodeRefOutputLength := by
  intro s bytes pad h
  have hlegal : ∀ cap, Config.legalCap cap = true → cap % 4 = 0 ∧ 4 ≤ cap ∧ cap ≤ 65536 := by
    simp [Config.legalCap, and_assoc]
  obtain ⟨h0, hok⟩ | ⟨-, herr⟩ | ⟨-, _, _, -, herr⟩ | ⟨h0, h4, -, hok⟩ := decodeRef_cases s
  · obtain ⟨rfl, rfl⟩ : [] = bytes ∧ 0 = pad := by simpa [hok] using h
    refine ⟨by simp [h0], by omega, by omega, by omega, rfl, fun cap hcap _ => ?_⟩
    have := hlegal cap hcap
    simp only [Config.outCapOf, List.length_nil]
    omega
  · simp [herr] at h
  · simp [herr] at h
  · obtain ⟨rfl, rfl⟩ : repack ((s.take (s.length - refPad s)).map valueOf) = bytes ∧ refPad s = pad := by
      simpa [hok] using h
    have hpad := refPad_le_two s
    have hlen : (repack ((s.take (s.length - refPad s)).map valueOf)).length = s.length * 3 / 4 - refPad s := by
      rw [length_repack, List.length_map, List.length_take]
      omega
    rw [hlen]
    refine ⟨rfl, by omega, hpad, by omega, by omega, fun cap hcap hfit => ?_⟩
    have := hlegal cap hcap
    simp only [Config.outCapOf]
    omega

end

section
/-!
PROOFS. Every step keeps the invariant (O42): what the engine's turn does in a state of the invariant, said once, and
the effects of the transactions.
-/

namespace Sys2Proof.Machine

open Sys2Proof

/-- A legal IN_CAP is at most 65536 (R9). -/
theorem le_of_legalCap {cap : Nat} (h : Config.legalCap cap = true) : cap ≤ 65536 := by
  simp only [Config.legalCap, Bool.and_eq_true, decide_eq_true_eq] at h
  exact h.2

/-! ### The bounds of the invariant (R162) -/

/-- During a run N fits IN_MEM. -/
theorem EngineOk.n_le {s : State} (h : EngineOk s) (hp : s.phase ≠ .idle) : s.n.toNat ≤ s.inCap := (h.latched hp).2

/-- VAL and DEC read below N. -/
theorem EngineOk.i_lt {s : State} (h : EngineOk s) (hp : s.phase = .val ∨ s.phase = .dec) : s.i.toNat < s.n.toNat := by
  obtain hp | hp := hp
  · obtain ⟨-, -, hi, -⟩ := h.val hp
    exact hi
  · exact (h.dec hp).2

/-- VAL and DEC read inside IN_MEM. -/
theorem EngineOk.i_lt_inCap {s : State} (h : EngineOk s) (hp : s.phase = .val ∨ s.phase = .dec) :
    s.i.toNat < s.inCap :=
  (h.i_lt hp).trans_le (h.n_le (by rintro h0; simp [h0] at hp))

/-- In VAL and DEC I advances without wrapping (R164). -/
theorem State.Inv.toNat_i_succ {s : State} (h : s.Inv) (hp : s.phase = .val ∨ s.phase = .dec) :
    (s.i + 1#17).toNat = s.i.toNat + 1 :=
  toNat_index_succ ((h.engine.i_lt_inCap hp).trans_le (le_of_legalCap h.const.cap))

/-! ### The input of a run (R143) -/

@[simp] theorem length_runInput (s : State) : (runInput s).length = s.n.toNat := by simp [runInput]

theorem runInput_congr {s t : State} (hm : t.inMem = s.inMem) (hn : t.n = s.n) : runInput t = runInput s := by
  simp only [runInput, hn, funext (inByte_congr hm)]

/-- The input from index i on starts with the byte at I. -/
theorem drop_runInput {s : State} {i : Nat} (h : i < s.n.toNat) :
    (runInput s).drop i = inByte s i :: (runInput s).drop (i + 1) := by
  rw [List.drop_eq_getElem_cons (by simpa using h)]
  simp [runInput]

/-- paddingCount looks at the last two bytes (R145). -/
theorem refPad_runInput {s : State} (h : 2 ≤ s.n.toNat) :
    refPad (runInput s) = if inByte s (s.n.toNat - 1) = padByte then
      (if inByte s (s.n.toNat - 2) = padByte then 2 else 1) else 0 := by
  obtain ⟨m, hm⟩ := Nat.exists_eq_add_of_le' h
  simp [refPad, runInput, hm, List.range_succ]

/-! ### The engine's turn (R140, R148 to R157) -/

/-- The bytes that TAIL has left to write: none without padding, `3 - PAD` with padding (R156). -/
def finalBytes (s : State) : List Byte :=
  if s.pad.toNat = 0 then [] else tailBytes (tailAlign s.acc s.pad) s.pad

/-- The state after the symbol at I in DEC (R153), with what CNT, J and OUT_MEM then are. -/
def readSymbol (s : State) (cnt : BitVec 2) (j : Index) (m : Memory) : State :=
  { s with
    acc := nextAcc s, cnt := cnt, i := s.i + 1#17, j := j, outMem := m
    phase := if s.i.toNat + 1 = s.n.toNat then .tail else .dec }

/-- What the engine's turn does in a state of the invariant, with the conditions of the step rules. -/
inductive EngineStep (s : State) : State → Prop
  | idle : s.phase = .idle → EngineStep s s
  | empty : s.phase = .len → s.n.toNat = 0 → EngineStep s (complete s 0#2 0#17)
  | badLength : s.phase = .len → s.n.toNat % 4 ≠ 0 → EngineStep s (raiseDecodeError s .invalidLength 0#17)
  | enterVal : s.phase = .len → s.n.toNat ≠ 0 → s.n.toNat % 4 = 0 →
    EngineStep s { s with i := 0#17, seenPad := false, phase := .val }
  | acceptSym : s.phase = .val → inClass s s.i.toNat = .sym → s.seenPad = false → EngineStep s (acceptByte s)
  | symAfterPad : s.phase = .val → inClass s s.i.toNat = .sym → s.seenPad = true → s.i.toNat ≠ 0 →
    EngineStep s (raiseDecodeError s .invalidPaddingPosition (s.i - 1#17))
  | acceptPad : s.phase = .val → inClass s s.i.toNat = .pad → s.n.toNat ≤ s.i.toNat + 2 →
    EngineStep s (acceptByte { s with seenPad := true })
  | earlyPad : s.phase = .val → inClass s s.i.toNat = .pad → s.i.toNat + 2 < s.n.toNat →
    EngineStep s (raiseDecodeError s .invalidPaddingPosition s.i)
  | invalid : s.phase = .val → inClass s s.i.toNat = .inv →
    EngineStep s (raiseDecodeError s .invalidCharacter s.i)
  | prepare (p : BitVec 2) (l : Index) : s.phase = .prep → p.toNat = refPad (runInput s) →
    l.toNat = s.n.toNat * 3 / 4 - p.toNat →
    EngineStep s { s with pad := p, outl := l, acc := 0#24, cnt := 0#2, i := 0#17, j := 0#17, phase := .dec }
  | symbol : s.phase = .dec → inClass s s.i.toNat = .sym → s.cnt ≠ 3#2 →
    EngineStep s (readSymbol s (s.cnt + 1#2) s.j s.outMem)
  | group (m : Memory) (j : Index) : s.phase = .dec → inClass s s.i.toNat = .sym → s.cnt = 3#2 →
    j.toNat = s.j.toNat + 3 → Emits s m (groupBytes (nextAcc s)) →
    EngineStep s (readSymbol s 0#2 j m)
  | stop : s.phase = .dec → inClass s s.i.toNat = .pad → EngineStep s { s with phase := .tail }
  | finish (m : Memory) (a : BitVec 24) : s.phase = .tail → Emits s m (finalBytes s) →
    EngineStep s (complete { s with acc := a, j := s.outl, outMem := m } s.pad s.outl)

theorem engineStep_len {s : State} (hp : s.phase = .len) (c : BitVec 2) :
    ∃ t, exec (.len c) s = .next t ∧ EngineStep s t := by
  by_cases h0 : s.n.toNat = 0
  · exact ⟨_, exec_len_empty c h0, .empty hp h0⟩
  by_cases h4 : s.n.toNat % 4 = 0
  · exact ⟨_, exec_len_enterVal c h0 h4, .enterVal hp h0 h4⟩
  · exact ⟨_, exec_len_badLength c h4, .badLength hp h4⟩

theorem engineStep_val {s : State} (hok : EngineOk s) (hp : s.phase = .val) :
    ∃ t, exec (valStep (inClass s s.i.toNat)) s = .next t ∧ EngineStep s t := by
  have hi := hok.i_lt_inCap (.inl hp)
  obtain hc | hc | hc := classOf_cases (inByte s s.i.toNat) <;> change inClass s s.i.toNat = _ at hc <;> rw [hc]
  · cases hseen : s.seenPad with
    | false => exact ⟨_, exec_valSym_accept hi hseen, .acceptSym hp hc hseen⟩
    | true =>
      have h0 : s.i.toNat ≠ 0 := by have := hok.atLast_of_seenPad hp hseen; omega
      exact ⟨_, exec_valSym_afterPad hi hseen h0, .symAfterPad hp hc hseen h0⟩
  · obtain hearly | hlate := Nat.lt_or_ge (s.i.toNat + 2) s.n.toNat
    · exact ⟨_, exec_valPad_early hi hearly, .earlyPad hp hc hearly⟩
    · exact ⟨_, exec_valPad_accept hi hlate, .acceptPad hp hc hlate⟩
  · exact ⟨_, exec_valInv hi, .invalid hp hc⟩

theorem engineStep_prep {s : State} (hok : EngineOk s) (hp : s.phase = .prep) (c : BitVec 2) :
    ∃ t, exec (.prep c) s = .next t ∧ EngineStep s t := by
  obtain ⟨h4, -, -⟩ := hok.prep hp
  obtain ⟨p, l, hpad, houtl, hexec⟩ := prepStep c s h4 (hok.n_le (by simp [hp]))
  exact ⟨_, hexec, .prepare p l hp (hpad.trans (refPad_runInput (by omega)).symm) houtl⟩

theorem engineStep_dec {s : State} (hok : EngineOk s) (hp : s.phase = .dec) :
    ∃ t, exec (decStep (inClass s s.i.toNat)) s = .next t ∧ EngineStep s t := by
  obtain ⟨hdec, hlt⟩ := hok.dec hp
  have hn := hok.n_le (by simp [hp])
  obtain hc | hc := hdec.inClass_cases hlt <;> rw [hc]
  · by_cases hcnt : s.cnt = 3#2
    · obtain ⟨m, j, hexec, hfits, -⟩ := exec_decSym_group (hlt.trans_le hn) hcnt (hdec.prepared.outl_le hn)
      obtain ⟨hj, hm⟩ := hfits (hdec.group_fits hlt hc hcnt)
      rw [hp] at hexec
      exact ⟨_, hexec, .group m j hp hc hcnt hj hm⟩
    · have hexec := exec_decSym_partial (hlt.trans_le hn) hcnt
      rw [hp] at hexec
      exact ⟨_, hexec, .symbol hp hc hcnt⟩
  · exact ⟨_, rfl, .stop hp hc⟩

theorem engineStep_tail {s : State} (hok : EngineOk s) (hp : s.phase = .tail) (c : BitVec 2) :
    ∃ t, exec (.tail c) s = .next t ∧ EngineStep s t := by
  obtain ⟨hdec, hend⟩ := hok.tail hp
  have hn := hok.n_le (by simp [hp])
  have hroom := hdec.outl_eq_of_end hend
  obtain hpad | hpad := Nat.eq_zero_or_pos s.pad.toNat
  · have hp0 : s.pad = 0#2 := BitVec.eq_of_toNat_eq hpad
    have hj : s.j = s.outl := BitVec.eq_of_toNat_eq (by omega)
    have hself : complete s 0#2 s.outl =
        complete { s with acc := s.acc, j := s.outl, outMem := s.outMem } s.pad s.outl := by
      simp only [complete, hp0, hj]
    exact ⟨_, exec_tail_noPad c hpad, hself ▸ .finish s.outMem s.acc hp
      (by rw [finalBytes, if_pos hpad]; exact emits_nil s)⟩
  · obtain ⟨m, j, hexec, hj, hm⟩ := exec_tail_pad c hpad (hdec.prepared.outl_le hn)
    have hjo : j = s.outl := BitVec.eq_of_toNat_eq (by omega)
    rw [List.take_of_length_le (by rw [length_tailBytes]; omega)] at hm
    exact ⟨_, hexec, hjo ▸ .finish m _ hp (by rwa [finalBytes, if_neg hpad.ne'])⟩

/-- In a state of the invariant the engine has a turn, it does not stop, and it is one of the step rules. -/
theorem State.Inv.engineTurn {s : State} (h : s.Inv) :
    ∃ sel t, selector s = some sel ∧ exec (decodeSel sel) s = .next t ∧ EngineStep s t := by
  have hok := h.engine
  obtain ⟨sel, hsel⟩ := selector_isSome hok.i_lt_inCap
  have hclass := currentClass_eq_inClass h.const.lut
  suffices ∃ t, exec (decodeSel sel) s = .next t ∧ EngineStep s t from
    this.elim fun t ht => ⟨sel, t, hsel, ht⟩
  obtain ⟨hp, hi⟩ | ⟨hp, hi⟩ | ⟨hp, -, hi⟩ | ⟨hp, hi⟩ | ⟨hp, -, hi⟩ | ⟨hp, hi⟩ | ⟨hp, -⟩ := decodeSel_selector hsel
  · exact ⟨s, by rw [hi]; rfl, .idle hp⟩
  · exact hi ▸ engineStep_len hp _
  · exact hi ▸ hclass ▸ engineStep_val hok hp
  · exact hi ▸ engineStep_prep hok hp _
  · exact hi ▸ hclass ▸ engineStep_dec hok hp
  · exact hi ▸ engineStep_tail hok hp _
  · exact absurd hp (not_or.2 hok.legal)

/-! ### What each update needs to keep the invariant -/

/-- The decode pass depends on the input and the datapath only. -/
theorem Decoding.of_sameRun {s t : State} (h : Decoding s) (hr : SameRun s t) : Decoding t := by
  obtain ⟨⟨h4, hmod, hpad, hsuffix, houtl⟩, hi, hcnt, hj⟩ := h
  have hclass : ∀ k, inClass t k = inClass s k := fun k => congrArg classOf (inByte_congr hr.inMem k)
  refine ⟨⟨?_, ?_, ?_, ?_, ?_⟩, ?_, ?_, ?_⟩ <;>
    simpa only [hr.n, hr.pad, hr.outl, hr.i, hr.cnt, hr.j, hclass]

/-- The engine's part of the invariant depends on the input, the datapath and the latch only. -/
theorem EngineOk.of_sameRun {s t : State} (h : EngineOk s) (hr : SameRun s t)
    (hdue : t.engineDue = true → t.phase ≠ .idle) : EngineOk t := by
  have hclass : ∀ k, inClass t k = inClass s k := fun k => congrArg classOf (inByte_congr hr.inMem k)
  have hscan : ∀ m, Scanned s m → Scanned t m := fun m hm k hk => by simpa only [hclass, hr.n] using hm k hk
  refine ⟨?_, hdue, ?_, ?_, ?_, ?_, ?_, ?_⟩
  · rw [hr.phase]
    exact h.legal
  · rw [hr.phase, hr.j, hr.outl]
    exact h.settled
  · rw [hr.phase, hr.n, hr.inLen, hr.inCap]
    exact h.latched
  · simp only [hr.phase, hr.n, hr.i, hr.seenPad, hclass]
    intro hp
    obtain ⟨h4, hmod, hi, hscanned, hpad⟩ := h.val hp
    exact ⟨h4, hmod, hi, hscan _ hscanned, hpad⟩
  · rw [hr.phase, hr.n]
    intro hp
    obtain ⟨h4, hmod, hscanned⟩ := h.prep hp
    exact ⟨h4, hmod, hscan _ hscanned⟩
  · rw [hr.phase, hr.n, hr.i]
    exact fun hp => (h.dec hp).imp_left fun hd => hd.of_sameRun hr
  · rw [hr.phase, hr.n, hr.i, hr.pad]
    exact fun hp => (h.tail hp).imp_left fun hd => hd.of_sameRun hr

/-- The fields at the boundary, and the flags that no invariant names, are free. -/
theorem State.Inv.setBoundary {s : State} (h : s.Inv) {cmdErr busyWr doneIe : Bool} {pending : List CycleInput}
    {due : Bool} {resp : Option Answer} (hdue : due = true → s.phase ≠ .idle) :
    State.Inv { s with cmdErr, busyWr, doneIe, pending, engineDue := due, resp } := by
  obtain ⟨⟨hcap, hlut⟩, ⟨hin, hout⟩, ⟨h1, h2, h3, h4, h5, h6, h7, h8, h9⟩, hok⟩ := h
  exact ⟨⟨hcap, hlut⟩, ⟨hin, hout⟩, ⟨h1, h2, h3, h4, h5, h6, h7, h8, h9⟩,
    hok.of_sameRun (by constructor <;> rfl) hdue⟩

/-- During a run an update of the datapath and OUT_MEM has the engine's part of the invariant to keep only. -/
theorem State.Inv.setDatapath {s : State} (h : s.Inv) (hp : s.phase ≠ .idle) {outMem : Memory} {phase : Phase}
    {i : Index} {seenPad : Bool} {pad : BitVec 2} {outl : Index} {acc : BitVec 24} {cnt : BitVec 2} {j : Index}
    (hm : Memory.wf (outCap s) outMem = true)
    (he : EngineOk { s with outMem, phase, i, seenPad, pad, outl, acc, cnt, j }) :
    State.Inv { s with outMem, phase, i, seenPad, pad, outl, acc, cnt, j } := by
  obtain ⟨⟨hcap, hlut⟩, ⟨hin, -⟩, ⟨hbusy, h2, h3, h4, h5, h6, h7, h8, h9⟩, -⟩ := h
  exact ⟨⟨hcap, hlut⟩, ⟨hin, hm⟩, ⟨fun _ => hbusy hp, h2, h3, h4, h5, h6, h7, h8, h9⟩, he⟩

/-- Between runs the engine's part of the invariant is that nothing is owed and J = OUTL. -/
theorem EngineOk.of_idle {s : State} (hp : s.phase = .idle) (hdue : s.engineDue = false) (hj : s.j = s.outl) :
    EngineOk s where
  legal := by simp [hp]
  due := by simp [hdue]
  settled _ _ := hj
  latched := by simp [hp]
  val := by simp [hp]
  prep := by simp [hp]
  dec := by simp [hp]
  tail := by simp [hp]

section

variable {s : State} (hdue : s.engineDue = false) (hlatched : s.n.toNat = s.inLen.toNat ∧ s.n.toNat ≤ s.inCap)

include hdue hlatched

/-- The engine's part of the invariant in VAL. -/
theorem EngineOk.of_val (hp : s.phase = .val) (hj : s.j = s.outl)
    (h : 4 ≤ s.n.toNat ∧ s.n.toNat % 4 = 0 ∧ s.i.toNat < s.n.toNat ∧ Scanned s s.i.toNat ∧
      (s.seenPad = true ↔ ∃ k < s.i.toNat, inClass s k = .pad)) : EngineOk s where
  legal := by simp [hp]
  due := by simp [hdue]
  settled _ _ := hj
  latched _ := hlatched
  val _ := h
  prep := by simp [hp]
  dec := by simp [hp]
  tail := by simp [hp]

/-- The engine's part of the invariant in PREP. -/
theorem EngineOk.of_prep (hp : s.phase = .prep) (hj : s.j = s.outl)
    (h : 4 ≤ s.n.toNat ∧ s.n.toNat % 4 = 0 ∧ Scanned s s.n.toNat) : EngineOk s where
  legal := by simp [hp]
  due := by simp [hdue]
  settled _ _ := hj
  latched _ := hlatched
  val := by simp [hp]
  prep _ := h
  dec := by simp [hp]
  tail := by simp [hp]

/-- The engine's part of the invariant in DEC. -/
theorem EngineOk.of_dec (hp : s.phase = .dec) (h : Decoding s) (hi : s.i.toNat < s.n.toNat) : EngineOk s where
  legal := by simp [hp]
  due := by simp [hdue]
  settled hd _ := absurd hp hd
  latched _ := hlatched
  val := by simp [hp]
  prep := by simp [hp]
  dec _ := ⟨h, hi⟩
  tail := by simp [hp]

/-- The engine's part of the invariant in TAIL. -/
theorem EngineOk.of_tail (hp : s.phase = .tail) (h : Decoding s) (hi : s.i.toNat = s.n.toNat - s.pad.toNat) :
    EngineOk s where
  legal := by simp [hp]
  due := by simp [hdue]
  settled _ ht := absurd hp ht
  latched _ := hlatched
  val := by simp [hp]
  prep := by simp [hp]
  dec := by simp [hp]
  tail _ := ⟨h, hi⟩

end

/-- A completion with an output of whole groups, padding counted, that fits OUT_MEM (R141, R146). -/
theorem inv_complete {s : State} (hconst : ConstOk s) (hbuf : BuffersOk s) (hdue : s.engineDue = false)
    (hj : s.j = s.outl) {p : BitVec 2} {l : Index} (hl : l.toNat ≤ outCap s) (hgroups : (l.toNat + p.toNat) % 3 = 0)
    (hp : p.toNat ≤ 2) : (complete s p l).Inv := by
  have hlen : (l.setWidth 32).toNat = l.toNat := by bv_omega
  have hpad : (p.setWidth 32).toNat = p.toNat := by bv_omega
  refine ⟨⟨hconst.cap, hconst.lut⟩, ⟨hbuf.inMem, hbuf.outMem⟩, ?_, .of_idle rfl hdue hj⟩
  constructor
  case outLen => exact hlen.trans_le hl
  case groups => simpa [hlen, hpad] using hgroups
  case padCnt => exact hpad.trans_le hp
  all_goals simp

/-- A decode error at a position of the input (R142). -/
theorem inv_raiseDecodeError {s : State} (h : s.Inv) (hdue : s.engineDue = false) (hj : s.j = s.outl) {code : ErrCode}
    {pos : Index} (hcode : code ≠ .none)
    (hpos : pos ≠ 0#17 → code = .invalidPaddingPosition ∨ code = .invalidCharacter) (hlt : pos.toNat < 65536) :
    (raiseDecodeError s code pos).Inv := by
  have hwidth : (pos.setWidth 32).toNat = pos.toNat := by bv_omega
  refine ⟨⟨h.const.cap, h.const.lut⟩, ⟨h.buffers.inMem, h.buffers.outMem⟩, ?_, .of_idle rfl hdue hj⟩
  constructor
  case errPos => exact hwidth.trans_lt hlt
  case posCode =>
    refine fun hne => hpos ?_
    rintro rfl
    exact hne rfl
  all_goals simp [hcode]

/-! ### The engine's steps keep the invariant -/

/-- One more byte of the VAL pass: a symbol after symbols, or a `=` in one of the last two positions. -/
theorem Scanned.succ {s : State} {m : Nat} (h : Scanned s m)
    (hm : (inClass s m = .sym ∧ ∀ l < m, inClass s l = .sym) ∨ (inClass s m = .pad ∧ s.n.toNat ≤ m + 2)) :
    Scanned s (m + 1) := by
  intro k hk
  obtain hk | rfl := Nat.lt_succ_iff_lt_or_eq.1 hk
  · exact h k hk
  · exact hm

/-- Before the first `=` every byte scanned is a symbol. -/
theorem Scanned.all_sym {s : State} {m : Nat} (h : Scanned s m) (hpad : ¬ ∃ k < m, inClass s k = .pad) :
    ∀ l < m, inClass s l = .sym := by
  intro l hl
  obtain ⟨hsym, -⟩ | ⟨hp, -⟩ := h l hl
  · exact hsym
  · exact absurd ⟨l, hl, hp⟩ hpad

/-- Accepting a byte in VAL, SEENPAD becoming `b`. -/
theorem State.Inv.engineOk_acceptByte {s : State} (h : s.Inv) (hp : s.phase = .val)
    (hdue : s.engineDue = false) {b : Bool} (hscan : Scanned s (s.i.toNat + 1))
    (hseen : b = true ↔ ∃ k < s.i.toNat + 1, inClass s k = .pad) : EngineOk (acceptByte { s with seenPad := b }) := by
  obtain ⟨h4, hmod, hi, -, -⟩ := h.engine.val hp
  have hlatched := h.engine.latched (by simp [hp])
  have hsucc := h.toNat_i_succ (.inl hp)
  have hj := h.engine.settled (by simp [hp]) (by simp [hp])
  rw [acceptByte_eq]
  by_cases hlast : s.i.toNat + 1 = s.n.toNat
  · simp only [if_pos hlast]
    exact .of_prep hdue hlatched rfl hj ⟨h4, hmod, hlast ▸ hscan⟩
  · simp only [if_neg hlast, hp]
    refine .of_val hdue hlatched rfl hj ⟨h4, hmod, hsucc.trans_lt (by dsimp only; omega), ?_, ?_⟩
    · rw [hsucc]; exact hscan
    · rw [hsucc]; exact hseen

/-- A scanned input ends in its padding: symbols, and then as many `=` as the last two bytes show (R144, R145). -/
theorem Scanned.suffix {s : State} (h : Scanned s s.n.toNat) (h4 : 4 ≤ s.n.toNat) {k : Nat} (hk : k < s.n.toNat) :
    (k < s.n.toNat - refPad (runInput s) → inClass s k = .sym) ∧
      (s.n.toNat - refPad (runInput s) ≤ k → inClass s k = .pad) := by
  have hpadIff : ∀ l, inByte s l = padByte ↔ inClass s l = .pad := fun l => (classOf_eq_pad _).symm
  have hbefore : ∀ l < s.n.toNat, inClass s l ≠ .pad → ∀ m ≤ l, inClass s m = .sym := by
    intro l hl hne m hm
    obtain ⟨hsym, hall⟩ | ⟨hp, -⟩ := h l hl
    · obtain hm | rfl := Nat.lt_or_eq_of_le hm
      · exact hall m hm
      · exact hsym
    · exact absurd hp hne
  simp only [refPad_runInput (show 2 ≤ s.n.toNat by omega), hpadIff]
  split_ifs with h1 h2
  · have hthird : inClass s (s.n.toNat - 3) ≠ .pad := by
      obtain ⟨hsym, -⟩ | ⟨-, hlate⟩ := h (s.n.toNat - 3) (by omega)
      · simp [hsym]
      · omega
    refine ⟨fun hlt => hbefore _ (by omega) hthird k (by omega), fun hge => ?_⟩
    obtain rfl | rfl : k = s.n.toNat - 1 ∨ k = s.n.toNat - 2 := by omega
    · exact h1
    · exact h2
  · refine ⟨fun hlt => hbefore _ (by omega) h2 k (by omega), fun hge => ?_⟩
    obtain rfl : k = s.n.toNat - 1 := by omega
    exact h1
  · exact ⟨fun hlt => hbefore _ (by omega) h1 k (by omega), fun hge => by omega⟩

/-- The decode pass after one more symbol, CNT and J counting it (R153). -/
theorem State.Inv.engineOk_readSymbol {s : State} (h : s.Inv) (hp : s.phase = .dec) (hdue : s.engineDue = false)
    (hc : inClass s s.i.toNat = .sym) {cnt : BitVec 2} {j : Index} {m : Memory}
    (hcnt : cnt.toNat = (s.i.toNat + 1) % 4) (hj : j.toNat = 3 * ((s.i.toNat + 1) / 4)) :
    EngineOk (readSymbol s cnt j m) := by
  obtain ⟨hnow, hlt⟩ := h.engine.dec hp
  have hlatched := h.engine.latched (by simp [hp])
  have hsucc := h.toNat_i_succ (.inr hp)
  have hbefore := hnow.i_lt_of_sym hlt hc
  obtain ⟨⟨h4, hmod, hpad, hsuffix, houtl⟩, -, -, -⟩ := hnow
  have hdec : Decoding (readSymbol s cnt j m) :=
    ⟨⟨h4, hmod, hpad, hsuffix, houtl⟩, hsucc.trans_le hbefore, hcnt.trans (hsucc ▸ rfl), hj.trans (hsucc ▸ rfl)⟩
  by_cases hlast : s.i.toNat + 1 = s.n.toNat
  · exact .of_tail hdue hlatched (if_pos hlast) hdec (hsucc.trans (show _ = s.n.toNat - s.pad.toNat by omega))
  · exact .of_dec hdue hlatched (if_neg hlast) hdec (hsucc.trans_lt (show _ < s.n.toNat by omega))

/-- Every engine step keeps the invariant. -/
theorem EngineStep.keeps_inv {s t : State} (hstep : EngineStep s t) (h : s.Inv) (hdue : s.engineDue = false) :
    t.Inv := by
  have hok := h.engine
  have hcap := le_of_legalCap h.const.cap
  have hout := h.buffers.outMem
  have hbusy : ∀ p, s.phase = p → p ≠ .idle → s.phase ≠ .idle := fun p hp hne => hp ▸ hne
  have hsettled : ∀ p, s.phase = p → p ≠ .dec → p ≠ .tail → s.j = s.outl :=
    fun p hp hd ht => hok.settled (hp ▸ hd) (hp ▸ ht)
  cases hstep with
  | idle => exact h
  | empty hp => exact inv_complete h.const h.buffers hdue (hsettled _ hp nofun nofun) (Nat.zero_le _) rfl (by decide)
  | badLength hp =>
    exact inv_raiseDecodeError h hdue (hsettled _ hp nofun nofun) nofun (fun h0 => absurd rfl h0) (by decide)
  | enterVal hp h0 h4 =>
    exact h.setDatapath (hbusy _ hp nofun) hout
      (.of_val hdue (hok.latched (hbusy _ hp nofun)) rfl (hsettled _ hp nofun nofun)
        ⟨by dsimp only; omega, h4, Nat.pos_of_ne_zero h0, fun k hk => absurd hk (Nat.not_lt_zero k), by simp⟩)
  | acceptSym hp hc hseen =>
    obtain ⟨-, -, -, hscan, hpad⟩ := hok.val hp
    have hno : ¬ ∃ k < s.i.toNat, inClass s k = .pad := fun hex => by simpa [hseen] using hpad.2 hex
    have hall := hscan.all_sym hno
    have hno' : ¬ ∃ k < s.i.toNat + 1, inClass s k = .pad := by
      rintro ⟨k, hk, hkp⟩
      obtain hk | rfl := Nat.lt_succ_iff_lt_or_eq.1 hk
      · exact hno ⟨k, hk, hkp⟩
      · exact absurd (hc.symm.trans hkp) nofun
    exact h.setDatapath (hbusy _ hp nofun) hout
      (h.engineOk_acceptByte hp hdue (b := s.seenPad) (hscan.succ (.inl ⟨hc, hall⟩))
        (iff_of_false (by simp [hseen]) hno'))
  | acceptPad hp hc hlate =>
    obtain ⟨-, -, -, hscan, -⟩ := hok.val hp
    exact h.setDatapath (hbusy _ hp nofun) hout
      (h.engineOk_acceptByte hp hdue (hscan.succ (.inr ⟨hc, hlate⟩))
        (iff_of_true rfl ⟨s.i.toNat, Nat.lt_succ_self _, hc⟩))
  | symAfterPad hp | earlyPad hp | invalid hp =>
    have hi := hok.i_lt_inCap (.inl hp)
    exact inv_raiseDecodeError h hdue (hsettled _ hp nofun nofun) nofun (fun _ => by simp) (by bv_omega)
  | prepare p l hp hpad houtl =>
    obtain ⟨h4, hmod, hscan⟩ := hok.prep hp
    exact h.setDatapath (hbusy _ hp nofun) hout
      (.of_dec hdue (hok.latched (hbusy _ hp nofun)) rfl
        ⟨⟨h4, hmod, hpad ▸ refPad_le_two _, fun k hk => hpad ▸ hscan.suffix h4 hk, houtl⟩,
          Nat.zero_le _, by simp, by simp⟩
        (Nat.zero_lt_of_lt h4))
  | symbol hp hc hcnt =>
    obtain ⟨⟨-, -, hcount, hj⟩, -⟩ := hok.dec hp
    have hlt3 : s.cnt.toNat ≠ 3 := fun h3 => hcnt (BitVec.eq_of_toNat_eq h3)
    have hsucc : (s.cnt + 1#2).toNat = s.cnt.toNat + 1 := by bv_omega
    exact h.setDatapath (hbusy _ hp nofun) hout (h.engineOk_readSymbol hp hdue hc (by omega) (by omega))
  | group m j hp hc hcnt hj hm =>
    obtain ⟨⟨-, -, hcount, hcursor⟩, -⟩ := hok.dec hp
    have h3 : s.cnt.toNat = 3 := by rw [hcnt]; rfl
    exact h.setDatapath (hbusy _ hp nofun) (hm.wf hout)
      (h.engineOk_readSymbol hp hdue hc (by rw [BitVec.toNat_ofNat]; omega) (by omega))
  | stop hp hc =>
    obtain ⟨hdec, hlt⟩ := hok.dec hp
    have hend := hdec.i_eq_of_pad hlt hc
    obtain ⟨⟨h4, hmod, hpad, hsuffix, houtl⟩, hi, hcnt, hj⟩ := hdec
    exact h.setDatapath (hbusy _ hp nofun) hout
      (.of_tail hdue (hok.latched (hbusy _ hp nofun)) rfl ⟨⟨h4, hmod, hpad, hsuffix, houtl⟩, hi, hcnt, hj⟩ hend)
  | finish m a hp hm =>
    obtain ⟨hdec, hend⟩ := hok.tail hp
    have hfit := hdec.prepared.outl_le (hok.n_le (hbusy _ hp nofun))
    obtain ⟨⟨h4, hmod, hpad, -, houtl⟩, -, -, -⟩ := hdec
    exact inv_complete (s := { s with acc := a, j := s.outl, outMem := m }) ⟨h.const.cap, h.const.lut⟩
      ⟨h.buffers.inMem, hm.wf hout⟩ hdue rfl hfit (by omega) hpad

/-! ### The transactions and the reset edge keep the invariant -/

/-- Between runs the input side may change: IN_LEN to any value, IN_MEM in canonical form (R227, R228). -/
theorem State.Inv.setInput {s : State} (h : s.Inv) (hp : s.phase = .idle) (inLen : Word32) {inMem : Memory}
    (hm : Memory.wf s.inCap inMem = true) : State.Inv { s with inLen, inMem } := by
  obtain ⟨⟨hcap, hlut⟩, ⟨-, hout⟩, ⟨h1, h2, h3, h4, h5, h6, h7, h8, h9⟩, hok⟩ := h
  have hdue : s.engineDue = false := by simpa [hp] using hok.due
  exact ⟨⟨hcap, hlut⟩, ⟨hm, hout⟩, ⟨h1, h2, h3, h4, h5, h6, h7, h8, h9⟩,
    .of_idle hp hdue (hok.settled (by simp [hp]) (by simp [hp]))⟩

/-- CLR clears the sticky status; OUT_LEN and PAD_CNT stay, and so does the engine (R194). -/
theorem State.Inv.clearStatus {s : State} (h : s.Inv) : (clearStatus s).Inv := by
  obtain ⟨⟨hcap, hlut⟩, ⟨hin, hout⟩, hregs, hok⟩ := h
  refine ⟨⟨hcap, hlut⟩, ⟨hin, hout⟩, ?_, hok.of_sameRun (by constructor <;> rfl) hok.due⟩
  constructor
  case busyClear =>
    intro hp
    obtain ⟨-, -, -, -, hlen, hpad⟩ := hregs.busyClear hp
    exact ⟨rfl, rfl, rfl, rfl, hlen, hpad⟩
  case outLen => exact hregs.outLen
  case groups => exact hregs.groups
  case padCnt => exact hregs.padCnt
  all_goals simp

/-- START, accepted or refused (R192, R193). -/
theorem State.Inv.startRun {s : State} (h : s.Inv) : (startRun s).Inv := by
  obtain ⟨hp, hlen, hs⟩ | ⟨-, hs⟩ := startRun_cases s <;> rw [hs]
  · obtain ⟨⟨hcap, hlut⟩, ⟨hin, hout⟩, hregs, hok⟩ := h
    have hlegal := le_of_legalCap hcap
    have hn : (s.inLen.setWidth 17).toNat = s.inLen.toNat := by bv_omega
    refine ⟨⟨hcap, hlut⟩, ⟨hin, hout⟩, ?_, ?_⟩
    · constructor <;> simp
    · constructor
      case settled => exact fun _ _ => hok.settled (by simp [hp]) (by simp [hp])
      case latched => exact fun _ => ⟨hn, hn.trans_le hlen⟩
      all_goals simp
  · exact h.setBoundary h.engine.due

/-- A window word below IN_CAP lies below it with all four bytes: IN_CAP is a multiple of 4 (R9). -/
theorem laneBase_add_three_lt {cap : Nat} (hcap : Config.legalCap cap = true) {w : BitVec 14} (h : laneBase w < cap) :
    laneBase w + 3 < cap := by
  simp only [Config.legalCap, Bool.and_eq_true, beq_iff_eq] at hcap
  simp only [laneBase] at h ⊢
  omega

/-- The effect of every transaction keeps the invariant. -/
theorem TxnEffect.keeps_inv {s u : State} (hu : TxnEffect s u) (h : s.Inv) : u.Inv := by
  cases hu with
  | none => exact h
  | irqEn b => exact h.setBoundary h.engine.due
  | drop => exact h.setBoundary h.engine.due
  | inLen d hp => exact h.setInput hp d h.buffers.inMem
  | store w d hp hw =>
    exact h.setInput hp s.inLen (storeInWord_wf d h.buffers.inMem (laneBase_add_three_lt h.const.cap hw))
  | start => exact h.startRun
  | clr => exact h.clearStatus
  | clrStart => exact h.clearStatus.startRun

/-- Every transaction and every command keeps the invariant. -/
theorem exec_txn_keeps_inv {i : Instr} {s t : State} (hi : i.format ≠ .sel) (h : s.Inv) (he : exec i s = .next t) :
    t.Inv := by
  obtain ⟨u, r, d, hu, hexec⟩ := exec_txn_cases i s hi
  cases hexec.symm.trans he
  have hinv := hu.keeps_inv h
  exact hinv.setBoundary hinv.engine.due

/-- A reset edge leaves a state of the invariant (R281). -/
theorem State.Inv.resetEdge {s : State} (h : s.Inv) : (resetEdge s).Inv := by
  refine ⟨⟨h.const.cap, h.const.lut⟩, ⟨h.buffers.inMem, h.buffers.outMem⟩, ?_, .of_idle rfl rfl rfl⟩
  constructor <;> simp

/-! ### The step -/

/-- The selector depends on PHASE, I and the input only. -/
theorem selector_engineFrom (s : State) : selector (engineFrom s) = selector s := by
  unfold engineFrom
  split <;> rfl

@[simp] theorem engineFrom_engineDue (s : State) : (engineFrom s).engineDue = false := by
  unfold engineFrom
  split_ifs with hdue
  · rfl
  · simpa using hdue

theorem inv_engineFrom {s : State} (h : s.Inv) : (engineFrom s).Inv := by
  unfold engineFrom
  split
  · exact h.setBoundary nofun
  · exact h.setBoundary h.engine.due

/-- The engine's turn in a state of the invariant is an engine step. -/
theorem State.Inv.engineStep_of_exec {s t : State} {sel : Sel} (h : s.Inv) (hs : selector s = some sel)
    (he : exec (decodeSel sel) (engineFrom s) = .next t) : EngineStep (engineFrom s) t := by
  obtain ⟨sel', t', hs', he', hstep⟩ := (inv_engineFrom h).engineTurn
  rw [selector_engineFrom, hs] at hs'
  cases hs'
  cases he'.symm.trans he
  exact hstep

end Sys2Proof.Machine

open Sys2Proof Sys2Proof.Machine

/-- Settles O42, by the four kinds of step: a transaction, an engine step, a held cycle and a reset edge. -/
theorem stepKeepsTheInvariant : Obligations.StepKeepsTheInvariant := by
  intro s t h hstep
  obtain ⟨txn, held, rest, -, -, he⟩ | ⟨sel, hsel, he, -⟩ | ⟨rest, -, -, rfl⟩ | ⟨rest, -, -, rfl⟩ := step_cases hstep
  · refine exec_txn_keeps_inv (decodeTD_format _ _ _) ?_ he
    exact h.setBoundary fun hdue => (busy_iff s).1 (Bool.and_elim_left hdue)
  · exact (h.engineStep_of_exec hsel he).keeps_inv (inv_engineFrom h) (engineFrom_engineDue s)
  · exact h.setBoundary h.engine.due
  · exact (h.setBoundary h.engine.due).resetEdge

end

section
/-!
PROOFS. The meaning of a run, 40_decode_engine.md section 4: a run computes DECODE_REF in the number of steps the spec
counts (O54, O56), whatever the host sends meanwhile (O55). A run is followed by a relation between its first state and
each later one, which every step keeps until the step that ends the run.
-/

namespace Sys2Proof.Machine

open Sys2Proof

/-! ### The decode pass against REPACK (R147, R163) -/

/-- The values of the symbols before the padding, in order: what REPACK takes. -/
def symbolValues (bs : List Byte) : List (BitVec 6) := (bs.take (bs.length - refPad bs)).map valueOf

@[simp] theorem length_symbolValues (s : State) :
    (symbolValues (runInput s)).length = s.n.toNat - refPad (runInput s) := by
  simp [symbolValues]

/-- One more symbol read: the values taken grow by that of the byte at i. -/
theorem take_symbolValues_succ {s : State} {i : Nat} (h : i < s.n.toNat - refPad (runInput s)) :
    (symbolValues (runInput s)).take (i + 1) = (symbolValues (runInput s)).take i ++ [valueOf (inByte s i)] := by
  rw [List.take_succ_eq_append_getElem (by simpa using h)]
  simp [symbolValues, runInput]

/-- What is taken beyond the first k follows them. -/
theorem take_eq_take_append_drop {α : Type} (l : List α) {k m : Nat} (h : k ≤ m) :
    l.take m = l.take k ++ (l.take m).drop k := by
  conv_lhs => rw [← List.take_append_drop k (l.take m), List.take_take, min_eq_left h]

/-- Four symbols shifted in last fill ACC, and its bytes are their group's, whatever was shifted in before (R163). -/
theorem groupBytes_foldl (acc : BitVec 24) (vs : List (BitVec 6)) {ws : List (BitVec 6)} (h : ws.length = 4) :
    groupBytes ((vs ++ ws).foldl shiftIn acc) = repack ws := by
  match ws, h with
  | [v0, v1, v2, v3], _ =>
    rw [List.foldl_append]
    simp only [List.foldl_cons, List.foldl_nil, shiftIn_four, groupBytes, accHi_append, accMid_append,
      accLo_append, repack]
    rfl

/-- The symbols of a last partial group, aligned, give their bytes, whatever was shifted in before (R163). -/
theorem tailBytes_foldl (acc : BitVec 24) (vs : List (BitVec 6)) {ws : List (BitVec 6)} {pad : BitVec 2}
    (hpad : pad.toNat = 1 ∨ pad.toNat = 2) (h : ws.length = 4 - pad.toNat) :
    tailBytes (tailAlign ((vs ++ ws).foldl shiftIn acc) pad) pad = repack ws := by
  rw [List.foldl_append]
  obtain hpad | hpad := hpad
  · obtain rfl : pad = 1#2 := BitVec.eq_of_toNat_eq hpad
    match ws, h with
    | [v0, v1, v2], _ =>
      simp only [List.foldl_cons, List.foldl_nil, tailAlign_three, tailBytes_one, accHi_append, accMid_append, repack]
      rfl
  · obtain rfl : pad = 2#2 := BitVec.eq_of_toNat_eq hpad
    match ws, h with
    | [v0, v1], _ =>
      simp only [List.foldl_cons, List.foldl_nil, tailAlign_two, tailBytes_two, accHi_append, repack]
      rfl

/-- OUT_MEM of `t` is that of `s` with the bytes `bs` from index 0 on. -/
def OutputIs (s t : State) (bs : List Byte) : Prop := ∀ k, outByte t k = bs.getD k (outByte s k)

theorem outputIs_nil {s t : State} (h : t.outMem = s.outMem) : OutputIs s t [] := fun k => outByte_congr h k

/-- Bytes written at J extend an output of length J. -/
theorem OutputIs.append {s v : State} {m : Memory} {bs cs : List Byte} (h : OutputIs s v bs)
    (hj : v.j.toNat = bs.length) (hm : Emits v m cs) : OutputIs s { v with outMem := m } (bs ++ cs) := by
  intro k
  rw [hm.bytes k, hj]
  split_ifs with hk
  · rw [List.getD_append_right _ _ _ _ hk.1, List.getD_eq_getElem _ _ (by omega), List.getD_eq_getElem _ _ (by omega)]
  · rw [h k]
    obtain hlt | hge := Nat.lt_or_ge k bs.length
    · rw [List.getD_append _ _ _ _ hlt]
    · rw [List.getD_eq_default _ _ hge, List.getD_eq_default _ _ (by rw [List.length_append]; omega)]

/-! ### A run in progress and a run's end -/

/-- How the decode pass of `v` stands to the input of the run from `s`: ACC holds the symbols read, and the output so
far is that of the full groups read. -/
structure DecodedSoFar (s v : State) : Prop where
  passed : refScan (runInput s).length 0 false (runInput s) = none
  pad : v.pad.toNat = refPad (runInput s)
  acc : v.acc = ((symbolValues (runInput s)).take v.i.toNat).foldl shiftIn 0#24
  output : OutputIs s v (repack ((symbolValues (runInput s)).take (4 * (v.i.toNat / 4))))

/-- The state `v` is reached in the run that `s` begins in LEN: the input is as it was; in VAL the scan from I on
decides the result, in PREP it has passed, and in DEC and TAIL the output so far is known. -/
structure RunFrom (s v : State) : Prop where
  inv : v.Inv
  busy : v.phase ≠ .idle
  inMem : v.inMem = s.inMem
  n : v.n = s.n
  untouched : v.phase ≠ .dec → v.phase ≠ .tail → v.outMem = s.outMem
  val : v.phase = .val → refScan (runInput s).length 0 false (runInput s) =
    refScan (runInput s).length v.i.toNat v.seenPad ((runInput s).drop v.i.toNat)
  prep : v.phase = .prep → refScan (runInput s).length 0 false (runInput s) = none
  decode : v.phase = .dec ∨ v.phase = .tail → DecodedSoFar s v

/-- The host's view of `t` is the completion state of a result of DECODE_REF, over the OUT_MEM of `s` (R141, R142). -/
def HasResult (s t : State) : RefResult → Prop
  | .ok bytes p =>
    t.outLen.toNat = bytes.length ∧ t.padCnt.toNat = p ∧ t.err = false ∧ t.errCode = .none ∧ t.errPos = 0#32 ∧
      OutputIs s t bytes
  | .err code pos =>
    t.err = true ∧ t.errCode = code ∧ t.errPos.toNat = pos ∧ t.outLen = 0#32 ∧ t.padCnt = 0#32 ∧ t.outMem = s.outMem

/-- The run that `s` begins in LEN ends in `t` with the result of DECODE_REF. -/
structure RunEnds (s t : State) : Prop where
  idle : t.phase = .idle
  done : t.done = true
  result : HasResult s t (decodeRef (runInput s))

theorem runFrom_self {s : State} (h : s.Inv) (hp : s.phase = .len) : RunFrom s s where
  inv := h
  busy := by simp [hp]
  inMem := rfl
  n := rfl
  untouched _ _ := rfl
  val := by simp [hp]
  prep := by simp [hp]
  decode := by simp [hp]

section

variable {s v : State} (h : RunFrom s v)

include h

theorem RunFrom.input : runInput v = runInput s := runInput_congr h.inMem h.n

theorem RunFrom.inByte (k : Nat) : inByte v k = inByte s k := inByte_congr h.inMem k

theorem RunFrom.length_input : (runInput s).length = v.n.toNat := by rw [length_runInput, h.n]

/-- The input from I on starts with the byte that the engine reads. -/
theorem RunFrom.drop_input (hi : v.i.toNat < v.n.toNat) :
    (runInput s).drop v.i.toNat = Machine.inByte v v.i.toNat :: (runInput s).drop (v.i.toNat + 1) := by
  rw [← h.input, drop_runInput hi]

/-- Only the fields that a run depends on or writes matter. -/
theorem RunFrom.congr {t : State} (hr : SameRun v t) (hinv : t.Inv) : RunFrom s t := by
  refine ⟨hinv, hr.phase ▸ h.busy, hr.inMem.trans h.inMem, hr.n.trans h.n, ?_, ?_, ?_, ?_⟩
  · rw [hr.phase, hr.outMem]
    exact h.untouched
  · rw [hr.phase, hr.i, hr.seenPad]
    exact h.val
  · rw [hr.phase]
    exact h.prep
  · rw [hr.phase]
    intro hp
    obtain ⟨hpassed, hpad, hacc, hout⟩ := h.decode hp
    refine ⟨hpassed, hr.pad ▸ hpad, ?_, ?_⟩
    · rw [hr.acc, hr.i, hacc]
    · rw [hr.i]
      exact fun k => (outByte_congr hr.outMem k).trans (hout k)

/-! ### The engine's steps in a run (R148 to R156) -/

/-- A run that ends in a decode error before the decode pass (R142, R166). -/
theorem RunFrom.fails (hd : v.phase ≠ .dec) (ht : v.phase ≠ .tail) {code : ErrCode} {pos : Index}
    (href : decodeRef (runInput s) = .err code pos.toNat) : RunEnds s (raiseDecodeError v code pos) := by
  refine ⟨rfl, rfl, ?_⟩
  rw [href]
  exact ⟨rfl, rfl, by rw [raiseDecodeError_errPos]; bv_omega, rfl, rfl, h.untouched hd ht⟩

/-- The step that detects a failure in VAL ends the run with DECODE_REF's error (R149 to R151). -/
theorem RunFrom.fails_in_val (hp : v.phase = .val) {code : ErrCode} {pos : Index}
    (hscan : refScan (runInput s).length v.i.toNat v.seenPad ((runInput s).drop v.i.toNat) = some (code, pos.toNat)) :
    RunEnds s (raiseDecodeError v code pos) := by
  obtain ⟨-, h4, -⟩ := h.inv.engine.val hp
  exact h.fails (by simp [hp]) (by simp [hp]) (decodeRef_of_scan_fails (h.length_input ▸ h4) ((h.val hp).trans hscan))

/-- A byte accepted in VAL leaves the rest of the scan to decide. -/
theorem RunFrom.acceptByte (hp : v.phase = .val) {b : Bool} (hinv : (acceptByte { v with seenPad := b }).Inv)
    (hscan : refScan (runInput s).length v.i.toNat v.seenPad ((runInput s).drop v.i.toNat) =
      refScan (runInput s).length (v.i.toNat + 1) b ((runInput s).drop (v.i.toNat + 1))) :
    RunFrom s (acceptByte { v with seenPad := b }) := by
  have hsucc := h.inv.toNat_i_succ (.inl hp)
  have hrest := (h.val hp).trans hscan
  have hout := h.untouched (by simp [hp]) (by simp [hp])
  rw [acceptByte_eq] at hinv ⊢
  by_cases hlast : v.i.toNat + 1 = v.n.toNat
  · simp only [if_pos hlast] at hinv ⊢
    rw [List.drop_eq_nil_of_le (h.length_input.trans hlast.symm).le] at hrest
    exact ⟨hinv, nofun, h.inMem, h.n, fun _ _ => hout, nofun, fun _ => hrest, nofun⟩
  · simp only [if_neg hlast, hp] at hinv ⊢
    exact ⟨hinv, nofun, h.inMem, h.n, fun _ _ => hout, fun _ => by rw [hsucc]; exact hrest, nofun, nofun⟩

/-- PREP begins the decode pass with nothing read and nothing written (R152). -/
theorem RunFrom.prepare (hp : v.phase = .prep) {p : BitVec 2} {l : Index} (hpad : p.toNat = refPad (runInput v)) :
    DecodedSoFar s { v with pad := p, outl := l, acc := 0#24, cnt := 0#2, i := 0#17, j := 0#17, phase := .dec } where
  passed := h.prep hp
  pad := hpad.trans (by rw [h.input])
  acc := by simp
  output := by
    have hout : v.outMem = s.outMem := h.untouched (by simp [hp]) (by simp [hp])
    simp only [BitVec.toNat_ofNat, Nat.zero_mod, Nat.zero_div, Nat.mul_zero, List.take_zero, repack]
    exact outputIs_nil hout

/-- In the decode pass the symbols read are those before the padding. -/
theorem RunFrom.i_le (hd : DecodedSoFar s v) (hdec : Decoding v) : v.i.toNat ≤ (symbolValues (runInput s)).length := by
  rw [length_symbolValues, ← h.n, ← hd.pad]
  exact hdec.i

/-- A symbol at I is one of those before the padding. -/
theorem RunFrom.i_lt (hd : DecodedSoFar s v) (hdec : Decoding v) (hlt : v.i.toNat < v.n.toNat)
    (hc : inClass v v.i.toNat = .sym) : v.i.toNat < (symbolValues (runInput s)).length := by
  rw [length_symbolValues, ← h.n, ← hd.pad]
  exact hdec.i_lt_of_sym hlt hc

/-- ACC after one more symbol holds the symbols read, that one included (R153). -/
theorem RunFrom.nextAcc_eq (hd : DecodedSoFar s v) (hdec : Decoding v) (hlt : v.i.toNat < v.n.toNat)
    (hc : inClass v v.i.toNat = .sym) :
    nextAcc v = ((symbolValues (runInput s)).take (v.i.toNat + 1)).foldl shiftIn 0#24 := by
  rw [take_symbolValues_succ (by simpa using h.i_lt hd hdec hlt hc), List.foldl_append, ← hd.acc, nextAcc,
    lutRead_rom h.inv.const.lut, h.inByte]
  rfl

/-- The bytes that follow the output of the full groups read extend it to the first k symbols. -/
theorem RunFrom.emit (hd : DecodedSoFar s v) (hdec : Decoding v) {k : Nat} (hk : 4 * (v.i.toNat / 4) ≤ k) {m : Memory}
    (hm : Emits v m (repack (((symbolValues (runInput s)).take k).drop (4 * (v.i.toNat / 4))))) :
    OutputIs s { v with outMem := m } (repack ((symbolValues (runInput s)).take k)) := by
  have hlen : ((symbolValues (runInput s)).take (4 * (v.i.toNat / 4))).length = 4 * (v.i.toNat / 4) := by
    have := h.i_le hd hdec
    rw [List.length_take]
    omega
  rw [take_eq_take_append_drop _ hk, repack_append (by rw [hlen]; omega)]
  refine hd.output.append ?_ hm
  rw [length_repack, hlen, hdec.j]
  omega

/-- The run after one more symbol, when the output is that of the full groups read, this symbol included (R153). -/
theorem RunFrom.readSymbol (hd : DecodedSoFar s v) (hp : v.phase = .dec) (hc : inClass v v.i.toNat = .sym)
    {cnt : BitVec 2} {j : Index} {m : Memory}
    (hinv : (readSymbol v cnt j m).Inv)
    (hout : OutputIs s { v with outMem := m } (repack ((symbolValues (runInput s)).take (4 * ((v.i.toNat + 1) / 4))))) :
    RunFrom s (readSymbol v cnt j m) := by
  obtain ⟨hdec, hlt⟩ := h.inv.engine.dec hp
  have hsucc := h.inv.toNat_i_succ (.inr hp)
  have hacc := h.nextAcc_eq hd hdec hlt hc
  rw [← hsucc] at hacc hout
  have hphase : ∀ p, p ≠ .dec → p ≠ .tail → (Machine.readSymbol v cnt j m).phase ≠ p := by
    intro p hd ht
    dsimp only [Machine.readSymbol]
    split
    · exact ht.symm
    · exact hd.symm
  exact ⟨hinv, hphase _ nofun nofun, h.inMem, h.n, fun hd ht => absurd rfl (hphase _ hd ht),
    fun hv => absurd hv (hphase _ nofun nofun), fun hv => absurd hv (hphase _ nofun nofun),
    fun _ => ⟨hd.passed, hd.pad, hacc, hout⟩⟩

/-- The group that the symbol at I completes has the bytes of its four symbols (R163). -/
theorem RunFrom.groupBytes_eq (hd : DecodedSoFar s v) (hdec : Decoding v) (hlt : v.i.toNat < v.n.toNat)
    (hc : inClass v v.i.toNat = .sym) (hcnt : v.cnt = 3#2) :
    groupBytes (nextAcc v) =
      repack (((symbolValues (runInput s)).take (v.i.toNat + 1)).drop (4 * (v.i.toNat / 4))) := by
  have h3 : v.i.toNat % 4 = 3 := by rw [← hdec.cnt, hcnt]; rfl
  have hi := h.i_lt hd hdec hlt hc
  rw [h.nextAcc_eq hd hdec hlt hc,
    take_eq_take_append_drop _ (show 4 * (v.i.toNat / 4) ≤ v.i.toNat + 1 by omega), groupBytes_foldl]
  · rw [← take_eq_take_append_drop _ (by omega)]
  · rw [List.length_drop, List.length_take]
    omega

/-- At the end of the symbols TAIL has the bytes of the partial group left to write (R163). -/
theorem RunFrom.finalBytes_eq (hd : DecodedSoFar s v) (hdec : Decoding v)
    (hend : v.i.toNat = (symbolValues (runInput s)).length) :
    finalBytes v = repack (((symbolValues (runInput s)).take v.i.toNat).drop (4 * (v.i.toNat / 4))) := by
  have hlen : (((symbolValues (runInput s)).take v.i.toNat).drop (4 * (v.i.toNat / 4))).length = v.i.toNat % 4 := by
    rw [List.length_drop, List.length_take]
    omega
  have hrest : v.i.toNat % 4 = (4 - v.pad.toNat) % 4 := by
    obtain ⟨⟨h4, hmod, hpad, -, -⟩, -, -, -⟩ := hdec
    rw [hend, length_symbolValues, ← hd.pad, ← h.n]
    omega
  have hpad := hdec.prepared.pad
  rw [finalBytes]
  split_ifs with h0
  · rw [List.eq_nil_of_length_eq_zero (hlen.trans (by omega)), repack]
  · rw [hd.acc, take_eq_take_append_drop _ (show 4 * (v.i.toNat / 4) ≤ v.i.toNat by omega), tailBytes_foldl]
    · rw [← take_eq_take_append_drop _ (by omega)]
    · omega
    · omega

/-- TAIL ends the run with the output of DECODE_REF (R156). -/
theorem RunFrom.finishes (hp : v.phase = .tail) {m : Memory} {a : BitVec 24} (hm : Emits v m (finalBytes v)) :
    RunEnds s (complete { v with acc := a, j := v.outl, outMem := m } v.pad v.outl) := by
  have hd := h.decode (.inr hp)
  obtain ⟨hdec, hi⟩ := h.inv.engine.tail hp
  have hend : v.i.toNat = (symbolValues (runInput s)).length := by rw [hi, length_symbolValues, hd.pad, h.n]
  rw [h.finalBytes_eq hd hdec hend] at hm
  have hout := h.emit hd hdec (by omega) hm
  rw [List.take_of_length_le hend.ge] at hout
  obtain ⟨⟨h4, hmod, hpad, -, houtl⟩, -, -, -⟩ := hdec
  refine ⟨rfl, rfl, ?_⟩
  rw [decodeRef_of_scan_passes (by rw [h.length_input]; omega) (h.length_input ▸ hmod) hd.passed]
  refine ⟨?_, ?_, rfl, rfl, rfl, hout⟩
  · change (v.outl.setWidth 32).toNat = (repack (symbolValues (runInput s))).length
    rw [length_repack, ← hend, show (v.outl.setWidth 32).toNat = v.outl.toNat by bv_omega]
    omega
  · rw [complete_padCnt, ← hd.pad]
    bv_omega

end

/-- In a run every engine step goes on with the run or ends it with the result of DECODE_REF. -/
theorem EngineStep.follows_run {s v t : State} (hstep : EngineStep v t) (h : RunFrom s v) (hdue : v.engineDue = false) :
    RunFrom s t ∨ RunEnds s t := by
  have hinv := hstep.keeps_inv h.inv hdue
  have hok := h.inv.engine
  have hlen := h.length_input
  cases hstep with
  | idle hp => exact absurd hp h.busy
  | empty hp h0 =>
    refine .inr ⟨rfl, rfl, ?_⟩
    rw [decodeRef_of_empty (hlen.trans h0)]
    exact ⟨rfl, rfl, rfl, rfl, rfl, outputIs_nil (h.untouched (by simp [hp]) (by simp [hp]))⟩
  | badLength hp h4 =>
    exact .inr (h.fails (by simp [hp]) (by simp [hp]) (decodeRef_of_badLength (hlen ▸ h4)))
  | enterVal hp =>
    exact .inl ⟨hinv, nofun, h.inMem, h.n, fun _ _ => h.untouched (by simp [hp]) (by simp [hp]), fun _ => rfl, nofun,
      nofun⟩
  | acceptSym hp hc hseen =>
    refine .inl (h.acceptByte hp (b := v.seenPad) hinv ?_)
    rw [h.drop_input (hok.i_lt (.inl hp)), refScan_cons_sym hc, hseen, if_neg Bool.false_ne_true]
  | acceptPad hp hc hlate =>
    refine .inl (h.acceptByte hp hinv ?_)
    rw [h.drop_input (hok.i_lt (.inl hp)), refScan_cons_pad hc, if_neg (by omega)]
  | symAfterPad hp hc hseen h0 =>
    refine .inr (h.fails_in_val hp ?_)
    have hpos : (v.i - 1#17).toNat = v.i.toNat - 1 := by bv_omega
    rw [h.drop_input (hok.i_lt (.inl hp)), refScan_cons_sym hc, if_pos hseen, hpos]
  | earlyPad hp hc hearly =>
    refine .inr (h.fails_in_val hp ?_)
    rw [h.drop_input (hok.i_lt (.inl hp)), refScan_cons_pad hc, if_pos (by omega)]
  | invalid hp hc =>
    refine .inr (h.fails_in_val hp ?_)
    rw [h.drop_input (hok.i_lt (.inl hp)), refScan_cons_inv hc]
  | prepare p l hp hpad =>
    exact .inl ⟨hinv, nofun, h.inMem, h.n, fun hd => absurd rfl hd, nofun, nofun, fun _ => h.prepare hp hpad⟩
  | symbol hp hc hcnt =>
    have hd := h.decode (.inl hp)
    have h3 : v.i.toNat % 4 ≠ 3 := fun h3 => hcnt (BitVec.eq_of_toNat_eq ((hok.dec hp).1.cnt.trans h3))
    have hgroups : 4 * ((v.i.toNat + 1) / 4) = 4 * (v.i.toNat / 4) := by omega
    exact .inl (h.readSymbol hd hp hc hinv (hgroups ▸ hd.output))
  | group m j hp hc hcnt hj hm =>
    have hd := h.decode (.inl hp)
    obtain ⟨hdec, hlt⟩ := hok.dec hp
    have h3 : v.i.toNat % 4 = 3 := by rw [← hdec.cnt, hcnt]; rfl
    have hgroups : 4 * ((v.i.toNat + 1) / 4) = v.i.toNat + 1 := by omega
    rw [h.groupBytes_eq hd hdec hlt hc hcnt] at hm
    have hout := h.emit hd hdec (by omega) hm
    exact .inl (h.readSymbol hd hp hc hinv (by rwa [hgroups]))
  | stop hp =>
    obtain ⟨hpassed, hpad, hacc, hout⟩ := h.decode (.inl hp)
    exact .inl ⟨hinv, nofun, h.inMem, h.n, fun _ ht => absurd rfl ht, nofun, nofun,
      fun _ => ⟨hpassed, hpad, hacc, hout⟩⟩
  | finish m a hp hm => exact .inr (h.finishes hp hm)

/-! ### A run under traffic (R294, R286) -/

theorem SameRun.trans {s u t : State} (h : SameRun s u) (h' : SameRun u t) : SameRun s t :=
  ⟨h'.inCap.trans h.inCap, h'.lut.trans h.lut, h'.inMem.trans h.inMem, h'.outMem.trans h.outMem,
    h'.inLen.trans h.inLen, h'.phase.trans h.phase, h'.n.trans h.n, h'.i.trans h.i, h'.seenPad.trans h.seenPad,
    h'.pad.trans h.pad, h'.outl.trans h.outl, h'.acc.trans h.acc, h'.cnt.trans h.cnt, h'.j.trans h.j⟩

/-- While a run is in progress no transaction disturbs it (R294). -/
theorem TxnEffect.sameRun {s u : State} (hu : TxnEffect s u) (hp : s.phase ≠ .idle) : SameRun s u := by
  have hstart : ∀ v : State, v.phase ≠ .idle → SameRun v (startRun v) := by
    intro v hv
    obtain ⟨hidle, -⟩ | ⟨-, hs⟩ := startRun_cases v
    · exact absurd hidle hv
    · rw [hs]
      constructor <;> rfl
  cases hu with
  | inLen _ hidle | store _ _ hidle => exact absurd hidle hp
  | start => exact hstart s hp
  | clrStart =>
    have hclr : SameRun s (clearStatus s) := by constructor <;> rfl
    exact hclr.trans (hstart (clearStatus s) hp)
  | none | irqEn | drop | clr => constructor <;> rfl

/-- No transaction touches the cycle inputs to come. -/
theorem TxnEffect.pending {s u : State} (hu : TxnEffect s u) : u.pending = s.pending := by
  have hstart : ∀ v : State, (startRun v).pending = v.pending := fun v => by
    obtain ⟨-, -, hv⟩ | ⟨-, hv⟩ := startRun_cases v <;> simp [hv]
  cases hu with
  | start => exact hstart s
  | clrStart => exact hstart (clearStatus s)
  | none | irqEn | drop | inLen | store | clr => rfl

/-- A transaction during a run: the run goes on. -/
theorem RunFrom.transaction {s v t : State} {i : Instr} (h : RunFrom s v) (hi : i.format ≠ .sel)
    (he : exec i v = .next t) : RunFrom s t ∧ t.pending = v.pending := by
  obtain ⟨u, r, d, hu, hexec⟩ := exec_txn_cases i v hi
  have hinv := exec_txn_keeps_inv hi h.inv he
  cases hexec.symm.trans he
  have hanswer : SameRun u (answer u r d) := by constructor <;> rfl
  exact ⟨h.congr ((hu.sameRun h.busy).trans hanswer) hinv, hu.pending⟩

/-- The cycle inputs and the latch are free in a run. -/
theorem RunFrom.setBoundary {s v : State} (h : RunFrom s v) (pending : List CycleInput) (due : Bool) :
    RunFrom s { v with pending, engineDue := due } :=
  h.congr (by constructor <;> rfl) (h.inv.setBoundary fun _ => h.busy)

theorem RunFrom.engineFrom {s v : State} (h : RunFrom s v) : RunFrom s (engineFrom v) := by
  unfold Machine.engineFrom
  split
  · exact h.setBoundary v.pending false
  · exact h.setBoundary v.pending.tail v.engineDue

/-- What an engine step leaves: the host's side of the registers, IN_MEM and the boundary (R51, R159). -/
structure SameHost (s t : State) : Prop where
  cmdErr : t.cmdErr = s.cmdErr
  busyWr : t.busyWr = s.busyWr
  doneIe : t.doneIe = s.doneIe
  inLen : t.inLen = s.inLen
  inMem : t.inMem = s.inMem
  pending : t.pending = s.pending
  engineDue : t.engineDue = s.engineDue

theorem SameHost.trans {s u t : State} (h : SameHost s u) (h' : SameHost u t) : SameHost s t :=
  ⟨h'.cmdErr.trans h.cmdErr, h'.busyWr.trans h.busyWr, h'.doneIe.trans h.doneIe, h'.inLen.trans h.inLen,
    h'.inMem.trans h.inMem, h'.pending.trans h.pending, h'.engineDue.trans h.engineDue⟩

theorem EngineStep.sameHost {s t : State} (h : EngineStep s t) : SameHost s t := by
  cases h <;> constructor <;> rfl

/-- The engine's turn uses up at most the next cycle input. -/
theorem engineFrom_pending_subset (s : State) : (engineFrom s).pending ⊆ s.pending := by
  unfold engineFrom
  split
  · exact List.Subset.refl _
  · exact List.tail_subset _

/-- In a run every step of the machine that is no reset edge goes on with the run or ends it with the result of
DECODE_REF. -/
theorem RunFrom.step {s v t : State} (h : RunFrom s v) (hrst : .rst ∉ v.pending) (hstep : step v = .next t) :
    .rst ∉ t.pending ∧ (RunFrom s t ∨ RunEnds s t) := by
  obtain ⟨txn, held, rest, -, hpend, he⟩ | ⟨sel, hsel, he, -⟩ | ⟨rest, -, hpend, rfl⟩ | ⟨rest, -, hpend, rfl⟩ :=
    step_cases hstep
  · obtain ⟨hrun, ht⟩ := (h.setBoundary rest _).transaction (decodeTD_format _ _ _) he
    rw [hpend, List.mem_cons, not_or] at hrst
    exact ⟨ht ▸ hrst.2, .inl hrun⟩
  · have hturn := h.inv.engineStep_of_exec hsel he
    refine ⟨fun hmem => hrst (engineFrom_pending_subset v (hturn.sameHost.pending ▸ hmem)), ?_⟩
    exact hturn.follows_run h.engineFrom (engineFrom_engineDue v)
  · rw [hpend, List.mem_cons, not_or] at hrst
    exact ⟨hrst.2, .inl (h.setBoundary rest v.engineDue)⟩
  · exact absurd (hpend ▸ List.mem_cons_self) hrst

/-- Several steps from `s`, the first of them given. -/
theorem run_succ {s t : State} (h : step s = .next t) (k : Nat) :
    Host.Core.run Sys2Proof.core (k + 1) s = Host.Core.run Sys2Proof.core k t := by
  have hcore : Sys2Proof.core.step s = .next t := h
  simp only [Host.Core.run, hcore]

/-- As long as the engine does not reach IDLE and no reset edge comes, the run goes on. -/
theorem RunFrom.run {s u : State} (k : Nat) {v : State} (h : RunFrom s v) (hrst : .rst ∉ v.pending)
    (hrun : Host.Core.run Sys2Proof.core k v = .next u)
    (hbusy : ∀ l ≤ k, ∃ w : State, Host.Core.run Sys2Proof.core l v = .next w ∧ w.phase ≠ .idle) :
    RunFrom s u ∧ .rst ∉ u.pending := by
  induction k generalizing v with
  | zero =>
    cases hrun
    exact ⟨h, hrst⟩
  | succ k ih =>
    obtain ⟨w, hw, hwp⟩ := hbusy 1 (by omega)
    have hstep : Machine.step v = .next w := by
      cases hs : Machine.step v with
      | next x => exact (run_succ hs 0).symm.trans hw
      | fault f | refused f =>
        have hcore : Sys2Proof.core.step v = _ := hs
        simp [Host.Core.run, hcore] at hw
    obtain ⟨hrst', hgoes | hends⟩ := h.step hrst hstep
    · refine ih hgoes hrst' (run_succ hstep k ▸ hrun) fun l hl => ?_
      exact run_succ hstep l ▸ hbusy (l + 1) (by omega)
    · exact absurd hends.idle hwp

/-! ### The number of steps (R168) -/

/-- The engine steps that a run has still to take, by the phase it is in (R168). -/
def stepsLeft (v : State) : Nat :=
  match v.phase with
  | .len => refSteps (runInput v)
  | .val => stepsFromVal (runInput v) v.i.toNat v.seenPad
  | .prep => stepsAfterVal (runInput v)
  | .dec => 1 + (v.n.toNat - v.pad.toNat - v.i.toNat) + (if 0 < v.pad.toNat then 1 else 0)
  | .tail => 1
  | .idle | .unused110 | .unused111 => 0

theorem stepsLeft_of_idle {v : State} (h : v.phase = .idle) : stepsLeft v = 0 := by simp [stepsLeft, h]

/-- A step that ends the run is its last one. -/
theorem stepsLeft_of_end {v t : State} (ht : t.phase = .idle) (h : stepsLeft v = 1) :
    stepsLeft v = stepsLeft t + 1 := by
  rw [h, stepsLeft_of_idle ht]

theorem stepsFromVal_of_fails {bs : List Byte} {i : Nat} {seen : Bool}
    (h : refDetect bs.length i seen (bs.drop i) = some i) : stepsFromVal bs i seen = 1 := by
  simp [stepsFromVal, h]

/-- A byte accepted takes one step. -/
theorem stepsFromVal_of_accept {bs : List Byte} {i : Nat} {seen b : Bool} (hi : i < bs.length)
    (h : refDetect bs.length i seen (bs.drop i) = refDetect bs.length (i + 1) b (bs.drop (i + 1))) :
    stepsFromVal bs i seen = stepsFromVal bs (i + 1) b + 1 := by
  rw [stepsFromVal, stepsFromVal, h]
  cases hd : refDetect bs.length (i + 1) b (bs.drop (i + 1)) with
  | none => dsimp only; omega
  | some p =>
    have := refDetect_bounds hd
    dsimp only
    omega

/-- After the last byte of VAL the run goes on with PREP. -/
theorem stepsFromVal_end (bs : List Byte) (b : Bool) : stepsFromVal bs bs.length b = stepsAfterVal bs := by
  simp [stepsFromVal, refDetect]

/-- Accepting a byte takes one step of those left. -/
theorem stepsLeft_acceptByte {v : State} (h : v.Inv) (hp : v.phase = .val) {b : Bool}
    (hdet : refDetect v.n.toNat v.i.toNat v.seenPad ((runInput v).drop v.i.toNat) =
      refDetect v.n.toNat (v.i.toNat + 1) b ((runInput v).drop (v.i.toNat + 1))) :
    stepsLeft v = stepsLeft (acceptByte { v with seenPad := b }) + 1 := by
  have hi := h.engine.i_lt (.inl hp)
  have hsucc := h.toNat_i_succ (.inl hp)
  have hlen := length_runInput v
  rw [← hlen] at hi hdet
  have hcount : stepsLeft v = stepsFromVal (runInput v) (v.i.toNat + 1) b + 1 := by
    rw [← stepsFromVal_of_accept hi hdet, stepsLeft, hp]
  rw [hcount, acceptByte_eq]
  by_cases hlast : v.i.toNat + 1 = v.n.toNat
  · simp only [if_pos hlast, stepsLeft]
    rw [hlast, ← hlen, stepsFromVal_end]
    rfl
  · simp only [if_neg hlast, hp, stepsLeft, hsucc]
    rfl

/-- A symbol of the decode pass takes one step of those left. -/
theorem stepsLeft_readSymbol {v : State} (h : v.Inv) (hp : v.phase = .dec) (hc : inClass v v.i.toNat = .sym)
    (cnt : BitVec 2) (j : Index) (m : Memory) : stepsLeft v = stepsLeft (readSymbol v cnt j m) + 1 := by
  obtain ⟨hdec, hlt⟩ := h.engine.dec hp
  have hsucc := h.toNat_i_succ (.inr hp)
  have hi := hdec.i_lt_of_sym hlt hc
  by_cases hlast : v.i.toNat + 1 = v.n.toNat
  · simp only [readSymbol, if_pos hlast, stepsLeft, hp]
    rw [if_neg (by omega)]
    omega
  · simp only [readSymbol, if_neg hlast, stepsLeft, hp, hsucc]
    omega

/-- Every engine step of a run is one of the steps left. -/
theorem EngineStep.stepsLeft_eq {v t : State} (hstep : EngineStep v t) (h : v.Inv) (hp : v.phase ≠ .idle) :
    stepsLeft v = stepsLeft t + 1 := by
  have hok := h.engine
  have hlen := length_runInput v
  have hfail : v.phase = .val → refDetect v.n.toNat v.i.toNat v.seenPad ((runInput v).drop v.i.toNat) =
      some v.i.toNat → ∀ code pos, stepsLeft v = stepsLeft (raiseDecodeError v code pos) + 1 := by
    intro hval hdet code pos
    refine stepsLeft_of_end rfl ?_
    rw [stepsLeft, hval]
    exact stepsFromVal_of_fails (hlen.symm ▸ hdet)
  cases hstep with
  | idle hidle => exact absurd hidle hp
  | empty hlenPhase h0 =>
    refine stepsLeft_of_end rfl ?_
    rw [stepsLeft, hlenPhase]
    exact refSteps_of_short (.inl (hlen.trans h0))
  | badLength hlenPhase h4 =>
    refine stepsLeft_of_end rfl ?_
    rw [stepsLeft, hlenPhase]
    exact refSteps_of_short (.inr (hlen ▸ h4))
  | enterVal hlenPhase h0 h4 =>
    rw [stepsLeft, hlenPhase]
    exact (refSteps_of_long (hlen ▸ h0) (hlen ▸ h4)).trans (Nat.add_comm _ _)
  | acceptSym hval hc hseen =>
    refine stepsLeft_acceptByte h hval (b := v.seenPad) ?_
    rw [drop_runInput (hok.i_lt (.inl hval))]
    exact (refDetect_cons_sym hc ..).trans (by rw [hseen, if_neg Bool.false_ne_true])
  | acceptPad hval hc hlate =>
    refine stepsLeft_acceptByte h hval ?_
    rw [drop_runInput (hok.i_lt (.inl hval))]
    exact (refDetect_cons_pad hc ..).trans (if_neg (by omega))
  | symAfterPad hval hc hseen =>
    refine hfail hval ?_ _ _
    rw [drop_runInput (hok.i_lt (.inl hval))]
    exact (refDetect_cons_sym hc ..).trans (if_pos hseen)
  | earlyPad hval hc hearly =>
    refine hfail hval ?_ _ _
    rw [drop_runInput (hok.i_lt (.inl hval))]
    exact (refDetect_cons_pad hc ..).trans (if_pos hearly)
  | invalid hval hc =>
    refine hfail hval ?_ _ _
    rw [drop_runInput (hok.i_lt (.inl hval))]
    exact refDetect_cons_inv hc ..
  | prepare p l hprep hpad =>
    simp only [stepsLeft, hprep, stepsAfterVal, hlen, ← hpad, BitVec.toNat_ofNat, Nat.zero_mod, Nat.sub_zero]
    omega
  | symbol hdec hc => exact stepsLeft_readSymbol h hdec hc ..
  | group m j hdec hc => exact stepsLeft_readSymbol h hdec hc ..
  | stop hdecPhase hc =>
    obtain ⟨hdec, hlt⟩ := hok.dec hdecPhase
    have hend := hdec.i_eq_of_pad hlt hc
    simp only [stepsLeft, hdecPhase]
    rw [if_pos (by omega)]
    omega
  | finish m a htail =>
    refine stepsLeft_of_end rfl ?_
    rw [stepsLeft, htail]

/-! ### A run with the outside world quiet (R159) -/

/-- With nothing owed and no cycle input left, a step of the machine is an engine step. -/
theorem State.Inv.step_quiet {v : State} (h : v.Inv) (hdue : v.engineDue = false) (hpend : v.pending = []) :
    ∃ t, step v = .next t ∧ EngineStep v t := by
  obtain ⟨sel, t, hsel, hexec, hstep⟩ := h.engineTurn
  exact ⟨t, by simpa [step, fetch, hdue, hpend, fetchCycle, fetchEngine, hsel] using hexec, hstep⟩

/-- A quiet run takes exactly the steps left and ends with the result of DECODE_REF, the host's side as it was. -/
theorem RunFrom.run_quiet {s : State} (hdue : s.engineDue = false) (hpend : s.pending = []) (k : Nat) {v : State}
    (h : RunFrom s v) (hhost : SameHost s v) (hk : stepsLeft v = k) :
    (∀ l < k, ∃ u : State, Host.Core.run Sys2Proof.core l v = .next u ∧ u.phase ≠ .idle) ∧
      ∃ t : State, Host.Core.run Sys2Proof.core k v = .next t ∧ SameHost s t ∧ RunEnds s t := by
  induction k generalizing v with
  | zero =>
    obtain ⟨t, -, hturn⟩ := h.inv.step_quiet (hhost.engineDue.trans hdue) (hhost.pending.trans hpend)
    exact absurd ((hturn.stepsLeft_eq h.inv h.busy).symm.trans hk) (Nat.succ_ne_zero _)
  | succ k ih =>
    obtain ⟨t, hstep, hturn⟩ := h.inv.step_quiet (hhost.engineDue.trans hdue) (hhost.pending.trans hpend)
    have hleft : stepsLeft t = k := Nat.succ.inj ((hturn.stepsLeft_eq h.inv h.busy).symm.trans hk)
    have hhost' := hhost.trans hturn.sameHost
    suffices hlater : (∀ l < k, ∃ u : State, Host.Core.run Sys2Proof.core l t = .next u ∧ u.phase ≠ .idle) ∧
        ∃ u : State, Host.Core.run Sys2Proof.core k t = .next u ∧ SameHost s u ∧ RunEnds s u by
      rw [run_succ hstep]
      refine ⟨fun l hl => ?_, hlater.2⟩
      cases l with
      | zero => exact ⟨v, rfl, h.busy⟩
      | succ l => exact run_succ hstep l ▸ hlater.1 l (by omega)
    obtain hgoes | hends := hturn.follows_run h (hhost.engineDue.trans hdue)
    · exact ih hgoes hhost' hleft
    · obtain rfl : 0 = k := (stepsLeft_of_idle hends.idle).symm.trans hleft
      exact ⟨nofun, t, rfl, hhost', hends⟩

/-- A run from LEN with the outside world quiet. -/
theorem run_quiet_from_len {s : State} (h : s.Inv) (hp : s.phase = .len) (hdue : s.engineDue = false)
    (hpend : s.pending = []) :
    (∀ l < refSteps (runInput s), ∃ u : State, Host.Core.run Sys2Proof.core l s = .next u ∧ u.phase ≠ .idle) ∧
      ∃ t : State, Host.Core.run Sys2Proof.core (refSteps (runInput s)) s = .next t ∧ SameHost s t ∧ RunEnds s t :=
  (runFrom_self h hp).run_quiet hdue hpend _ (by constructor <;> rfl) (by rw [stepsLeft, hp])

end Sys2Proof.Machine

open Sys2Proof Sys2Proof.Machine

/-- Settles O54, by induction on the steps left: each engine step goes on with the run or ends it with the result. -/
theorem runComputesDecodeRef : Obligations.RunComputesDecodeRef := by
  intro s h hp hdue hpend
  obtain ⟨hbefore, t, hrun, hhost, hends⟩ := run_quiet_from_len h hp hdue hpend
  exact ⟨hbefore, t, hrun, hends.idle, hends.done, hhost.cmdErr, hhost.busyWr, hhost.doneIe, hhost.inLen, hhost.inMem,
    hends.result⟩

/-- Settles O55, by induction on the steps before the last: a transaction and a held cycle leave the run as it was. -/
theorem trafficDoesNotChangeTheResult : Obligations.TrafficDoesNotChangeTheResult := by
  intro s u t k h hp hrst hrun hbusy hstep ht
  obtain ⟨hu, hrst'⟩ := (runFrom_self h hp).run k hrst hrun hbusy
  obtain ⟨-, hgoes | hends⟩ := hu.step hrst' hstep
  · exact absurd ht hgoes.busy
  · exact ⟨hends.done, hends.result⟩

/-- Settles O56: the step count of the reference function, which is that of the quiet run, and its bounds. -/
theorem runLengthIsLinear : Obligations.RunLengthIsLinear := by
  refine ⟨fun s h hp hdue hpend => ?_, refSteps_bounds⟩
  obtain ⟨hbefore, t, hrun, -, hends⟩ := run_quiet_from_len h hp hdue hpend
  obtain ⟨hpos, hle⟩ := refSteps_bounds (runInput s)
  exact ⟨_, hpos, length_runInput s ▸ hle, hbefore, t, hrun, hends.idle⟩

end

section
/-!
PROOFS. The commands of 41_commands.md (O26 to O31): a command does the same as the CTRL write that carries it, and
START and the START of a CLR_START are accepted or refused on the state they see.
-/

namespace Sys2Proof.Machine

open Sys2Proof

/-- WR_CTRL runs the command that its data decodes to (R190, R225). -/
theorem exec_wrCtrl (d : Word32) (s : State) : exec (.wrCtrl d) s = exec (decodeCtrl d) s := by
  change execWrCtrl d s = exec (decodeCtrl d) s
  unfold execWrCtrl decodeCtrl
  generalize (d.extractLsb' 0 2).toNat = command
  match command with
  | 0 => rfl
  | 1 => rfl
  | 2 => rfl
  | _ + 3 => rfl

/-- A command as such, or the CTRL write that carries it: both run the command (R190, R196). -/
theorem exec_of_carries {c i : Instr} {d : Word32} (hd : decodeCtrl d = c) (hi : i = c ∨ i = .wrCtrl d) (s : State) :
    exec i s = exec c s := by
  obtain rfl | rfl := hi
  · rfl
  · rw [exec_wrCtrl, hd]

/-- Every CTRL write answers OKAY with read data 0, a refused START too (R190). -/
theorem exec_wrCtrl_okay (d : Word32) (s : State) :
    ∃ t, exec (.wrCtrl d) s = .next t ∧ t.resp = some ⟨.okay, 0#32⟩ := by
  obtain ⟨-, he⟩ | ⟨-, he⟩ | ⟨-, he⟩ | ⟨-, he⟩ := exec_wrCtrl_cases d s <;> exact ⟨_, he, rfl⟩

/-- START in IDLE with IN_LEN ≤ IN_CAP is accepted (R192). -/
theorem startRun_of_accepted {s : State} (hp : s.phase = .idle) (hlen : s.inLen.toNat ≤ s.inCap) :
    startRun s = acceptStart s := if_pos ⟨hp, hlen⟩

/-- START in a run, or with IN_LEN > IN_CAP, only sets CMDERR (R193). -/
theorem startRun_of_refused {s : State} (h : s.phase ≠ .idle ∨ s.inCap < s.inLen.toNat) :
    startRun s = { s with cmdErr := true } :=
  if_neg fun ⟨hp, hlen⟩ => h.elim (· hp) (Nat.not_lt.2 hlen)

/-- The width of N holds every IN_LEN that START accepts (R54, R192). -/
theorem toNat_setWidth_inLen {s : State} (hcap : Config.legalCap s.inCap = true) (hlen : s.inLen.toNat ≤ s.inCap) :
    (s.inLen.setWidth 17).toNat = s.inLen.toNat := by
  have hlegal := le_of_legalCap hcap
  rw [BitVec.toNat_setWidth, Nat.mod_eq_of_lt (by omega)]

end Sys2Proof.Machine

open Sys2Proof Sys2Proof.Machine

/-- Settles O26: the data of the CTRL write decodes to the command, and no command looks at its reserved bits. -/
theorem wrCtrlRunsTheCommand : Obligations.WrCtrlRunsTheCommand := by
  intro r s
  obtain ⟨hnop, hstart, hclr, hclrStart⟩ := decodeCtrl_append r
  exact ⟨exec_of_carries hnop (.inr rfl) s, exec_of_carries hstart (.inr rfl) s, exec_of_carries hclr (.inr rfl) s,
    exec_of_carries hclrStart (.inr rfl) s, rfl, rfl, rfl, rfl, fun d => exec_wrCtrl_okay d s, rfl⟩

/-- Settles O27: NOP only answers. -/
theorem nopCommand : Obligations.NopCommand := by
  intro r i s hi
  obtain ⟨hnop, -, -, -⟩ := decodeCtrl_append r
  exact exec_of_carries hnop hi s

/-- Settles O28: START is accepted, and N holds IN_LEN because IN_CAP is at most 65536. -/
theorem startAccepted : Obligations.StartAccepted := by
  intro r i s hi hcap hp hlen
  obtain ⟨-, hstart, -, -⟩ := decodeCtrl_append r
  refine ⟨s.inLen.setWidth 17, toNat_setWidth_inLen hcap hlen, ?_⟩
  calc exec i s = answerWrite (startRun s) := exec_of_carries hstart hi s
    _ = answerWrite (acceptStart s) := by rw [startRun_of_accepted hp hlen]

/-- Settles O29: either cause of the refusal fails START's condition, and then only CMDERR is set. -/
theorem startRefused : Obligations.StartRefused := by
  intro r i s hi hrefused
  obtain ⟨-, hstart, -, -⟩ := decodeCtrl_append r
  calc exec i s = answerWrite (startRun s) := exec_of_carries hstart hi s
    _ = answerWrite { s with cmdErr := true } := by rw [startRun_of_refused hrefused]

/-- Settles O30: CLR clears the sticky status and answers, whatever the engine does. -/
theorem clrCommand : Obligations.ClrCommand := by
  intro r i s hi
  obtain ⟨-, -, hclr, -⟩ := decodeCtrl_append r
  exact exec_of_carries hclr hi s

/-- Settles O31: CLR leaves PHASE, IN_LEN and IN_CAP, so the START after it is accepted or refused as on the state
before it. -/
theorem clrStartCommand : Obligations.ClrStartCommand := by
  intro r i s hi
  obtain ⟨-, -, -, hclrStart⟩ := decodeCtrl_append r
  have hexec : exec i s = answerWrite (startRun (clearStatus s)) := exec_of_carries hclrStart hi s
  refine ⟨fun hp hlen => ?_, fun hrefused => ?_⟩
  · have haccept : startRun (clearStatus s) = acceptStart (clearStatus s) := startRun_of_accepted hp hlen
    rw [hexec, haccept]
    rfl
  · have hrefuse : startRun (clearStatus s) = { clearStatus s with cmdErr := true } := startRun_of_refused hrefused
    rw [hexec, hrefuse]
    rfl

end

section
/-!
PROOFS. The transactions of 42_bus_access.md (O2, O7, O15, O17 to O25): every descriptor is the code of its operation,
every transaction answers, and what the register and window accesses return and change.
-/

namespace Sys2Proof

open Sys2Proof.Machine

/-! ### A descriptor as the code of its operation (R118 to R121, R213) -/

/-- An aligned word descriptor is made up of its direction, quarter and word index. -/
theorem eq_windowTD {td : TD} (hsz : tdSz td = szWord) (hal : tdAlign td = 0#2) :
    td = windowTD (tdW td) (tdQuarter td) (tdWord td) := by
  have hw : (BitVec.ofBool (tdW td)).toNat = td.toNat / 2 ^ 20 % 2 := by
    rw [BitVec.toNat_ofBool, tdW, BitVec.getLsbD, Nat.toNat_testBit]
  have hsz' : td.toNat / 2 ^ 18 % 2 ^ 2 = 2 :=
    (toNat_extractLsb'_eq_mod 18 2 td).symm.trans (congrArg BitVec.toNat hsz)
  have hal' : td.toNat / 2 ^ 0 % 2 ^ 2 = 0 :=
    (toNat_extractLsb'_eq_mod 0 2 td).symm.trans (congrArg BitVec.toNat hal)
  have hlt := td.isLt
  apply BitVec.eq_of_toNat_eq
  simp only [windowTD_eq_append, toNat_append_eq_add, hw, tdQuarter, tdWord, toNat_extractLsb'_eq_mod,
    BitVec.toNat_ofNat]
  omega

/-- A descriptor of quarter 00 selects a register operation up to the offset 0x20, and BAD from there on (R120). -/
theorem decodeTD_windowTD_register (cap : Nat) (write : Bool) (w : BitVec 14) (d : Word32) :
    decodeTD cap (windowTD write 0b00#2 w) d =
      if w.toNat ≤ 8 then decodeRegister (windowTD write 0b00#2 w) d else .bad (windowTD write 0b00#2 w) := by
  have hoff : (tdOff (windowTD write 0b00#2 w)).toNat ≤ 0x20 ↔ w.toNat ≤ 8 := by
    simp only [tdOff_toNat, tdQuarter_windowTD, tdWord_windowTD, tdAlign_windowTD, laneBase, BitVec.toNat_ofNat]
    omega
  simp [decodeTD, hoff]

/-- The operation is well-formed and its code has this descriptor. -/
def HasDescriptor (cap : Nat) (td : TD) (i : Instr) : Prop := i.wf cap = true ∧ ∃ d, encode i = .td td d

/-- The eighteen register operations have the descriptors of R120. -/
theorem hasDescriptor_decodeRegister (cap : Nat) (write : Bool) {w : BitVec 14} (hw : w.toNat ≤ 8) (d : Word32) :
    HasDescriptor cap (windowTD write 0b00#2 w) (decodeRegister (windowTD write 0b00#2 w) d) := by
  obtain ⟨k, hk⟩ : ∃ k, w.toNat = k := ⟨_, rfl⟩
  obtain rfl : w = BitVec.ofNat 14 k := by rw [← hk, BitVec.ofNat_toNat, BitVec.setWidth_eq]
  rw [hk] at hw
  clear hk
  interval_cases k <;> cases write <;> exact ⟨rfl, _, rfl⟩

/-- The window operations below their capacity have the descriptors of R121. -/
theorem hasDescriptor_window {cap : Nat} (write : Bool) {w : BitVec 14} (d : Word32) :
    (laneBase w < cap → HasDescriptor cap (windowTD write 0b01#2 w) (if write then .wrIn w d else .rdIn w)) ∧
    (laneBase w < Config.outCapOf cap →
      HasDescriptor cap (windowTD write 0b10#2 w) (if write then .wrOut w d else .rdOut w)) := by
  cases write <;> exact ⟨fun hw => ⟨decide_eq_true hw, _, rfl⟩, fun hw => ⟨decide_eq_true hw, _, rfl⟩⟩

/-- The operation of every descriptor has that descriptor (R213). -/
theorem hasDescriptor_decodeTD (cap : Nat) (td : TD) (d : Word32) : HasDescriptor cap td (decodeTD cap td d) := by
  by_cases hbad : decodeTD cap td d = .bad td
  · rw [hbad]
    exact ⟨(decodeTD_eq_bad_iff_illegal cap td d).1 hbad, _, rfl⟩
  · have hlegal := mt (decodeTD_eq_bad_iff cap td d).2 hbad
    simp only [not_or, ne_eq, not_not] at hlegal
    obtain ⟨hsz, hal, -, -, -, hreserved⟩ := hlegal
    have htd := eq_windowTD hsz hal
    have hquarter : ∀ q : BitVec 2, q.toNat ≠ 3 → q = 0b00#2 ∨ q = 0b01#2 ∨ q = 0b10#2 := by decide
    have hq := hquarter _ hreserved
    generalize tdW td = write, tdQuarter td = q, tdWord td = w at htd hq
    subst htd
    obtain rfl | rfl | rfl := hq
    · rw [decodeTD_windowTD_register] at hbad ⊢
      obtain ⟨hw, -⟩ := ite_ne_right_iff.1 hbad
      rw [if_pos hw]
      exact hasDescriptor_decodeRegister cap write hw d
    · rw [decodeTD_windowTD_in] at hbad ⊢
      obtain ⟨hw, -⟩ := ite_ne_right_iff.1 hbad
      rw [if_pos hw]
      exact (hasDescriptor_window write d).1 hw
    · rw [decodeTD_windowTD_out] at hbad ⊢
      obtain ⟨hw, -⟩ := ite_ne_right_iff.1 hbad
      rw [if_pos hw]
      exact (hasDescriptor_window write d).2 hw

end Sys2Proof

namespace Sys2Proof.Machine

open Sys2Proof

/-! ### The window accesses, by capacity and phase (R223, R224, R228, R235) -/

section

variable {w : BitVec 14} {s : State}

/-- RD_IN below IN_CAP returns the IN window word (R223). -/
theorem exec_rdIn (hw : laneBase w < s.inCap) : exec (.rdIn w) s = answerRead s (inWord s (laneBase w)) := if_pos hw

/-- RD_OUT below OUT_CAP returns the OUT window word (R224). -/
theorem exec_rdOut (hw : laneBase w < outCap s) : exec (.rdOut w) s = answerRead s (outWord s (laneBase w)) := if_pos hw

/-- WR_OUT below OUT_CAP is ignored with OKAY (R235). -/
theorem exec_wrOut (hw : laneBase w < outCap s) (d : Word32) : exec (.wrOut w d) s = answerWrite s := if_pos hw

/-- WR_IN below IN_CAP between runs stores its four lanes (R228). -/
theorem exec_wrIn_idle (hw : laneBase w < s.inCap) (hp : s.phase = .idle) (d : Word32) :
    exec (.wrIn w d) s = answerWrite (storeInWord s (laneBase w) d) := by
  simp [exec, execWrIn, hw, (not_busy_iff s).2 hp]

/-- WR_IN below IN_CAP in a run is dropped with BUSYWR (R228). -/
theorem exec_wrIn_busy (hw : laneBase w < s.inCap) (hp : s.phase ≠ .idle) (d : Word32) :
    exec (.wrIn w d) s = answerWrite (dropWrite s) := by
  simp [exec, execWrIn, hw, (busy_iff s).2 hp]

/-- The IN window accesses at or beyond IN_CAP answer as BAD (log entry 13). -/
theorem exec_inWindow_beyond (hw : s.inCap ≤ laneBase w) (d : Word32) :
    exec (.rdIn w) s = answerBad s ∧ exec (.wrIn w d) s = answerBad s := ⟨if_neg hw.not_gt, if_neg hw.not_gt⟩

/-- The OUT window accesses at or beyond OUT_CAP answer as BAD (log entry 13). -/
theorem exec_outWindow_beyond (hw : outCap s ≤ laneBase w) (d : Word32) :
    exec (.rdOut w) s = answerBad s ∧ exec (.wrOut w d) s = answerBad s := ⟨if_neg hw.not_gt, if_neg hw.not_gt⟩

/-- In a run the OUT window word is 0 (R224). -/
theorem outWord_busy (hp : s.phase ≠ .idle) (k : Nat) : outWord s k = 0#32 := if_pos ((busy_iff s).2 hp)

/-- Between runs lane l of the OUT window word is the byte of OUT_MEM, or 0 at or above OUT_CAP (R83, R224). -/
theorem lane_outWord_idle (hp : s.phase = .idle) (k : Nat) {l : Nat} (hl : l < 4) :
    lane (outWord s k) l = outLane s (k + l) := by
  rw [outWord, (not_busy_iff s).2 hp, if_neg Bool.false_ne_true]
  obtain ⟨h0, h1, h2, h3⟩ := lane_wordOfLanes (outLane s k) (outLane s (k + 1)) (outLane s (k + 2)) (outLane s (k + 3))
  interval_cases l
  · exact h0
  · exact h1
  · exact h2
  · exact h3

end

/-! ### The register accesses (R215, R218, R227) -/

/-- IRQ_EN reads DONE_IE in bit 0 and 0 in the reserved bits (R43). -/
theorem irqEnWord_eq_ite (s : State) : irqEnWord s = if s.doneIe then 1#32 else 0#32 := by
  rw [irqEnWord]
  cases s.doneIe <;> rfl

/-- WR_IN_LEN between runs stores its data (R227). -/
theorem exec_wrInLen_idle {s : State} (hp : s.phase = .idle) (d : Word32) :
    exec (.wrInLen d) s = answerWrite { s with inLen := d } := by
  simp [exec, execWrInLen, (not_busy_iff s).2 hp]

/-- WR_IN_LEN in a run is dropped with BUSYWR (R227). -/
theorem exec_wrInLen_busy {s : State} (hp : s.phase ≠ .idle) (d : Word32) :
    exec (.wrInLen d) s = answerWrite (dropWrite s) := by
  simp [exec, execWrInLen, (busy_iff s).2 hp]

/-! ### The answer of a transaction (R211) -/

/-- Every well-formed transaction or command but BAD answers OKAY (R211). -/
theorem exec_answers_okay {i : Instr} {s : State} (hi : i.format ≠ .sel) (hwf : i.wf s.inCap = true)
    (hbad : ∀ td, i ≠ .bad td) : ∃ t v, exec i s = .next t ∧ t.resp = some ⟨.okay, v⟩ := by
  cases i with
  | bad td => exact absurd rfl (hbad td)
  | rdIn w => exact ⟨_, _, exec_rdIn (of_decide_eq_true hwf), rfl⟩
  | rdOut w => exact ⟨_, _, exec_rdOut (of_decide_eq_true hwf), rfl⟩
  | wrOut w d => exact ⟨_, _, exec_wrOut (of_decide_eq_true hwf) d, rfl⟩
  | wrIn w d =>
    by_cases hp : s.phase = .idle
    · exact ⟨_, _, exec_wrIn_idle (of_decide_eq_true hwf) hp d, rfl⟩
    · exact ⟨_, _, exec_wrIn_busy (of_decide_eq_true hwf) hp d, rfl⟩
  | wrInLen d =>
    by_cases hp : s.phase = .idle
    · exact ⟨_, _, exec_wrInLen_idle hp d, rfl⟩
    · exact ⟨_, _, exec_wrInLen_busy hp d, rfl⟩
  | wrCtrl d =>
    obtain ⟨t, hexec, hresp⟩ := exec_wrCtrl_okay d s
    exact ⟨t, _, hexec, hresp⟩
  | idle | len | valSym | valPad | valInv | prep | decSym | decPad | decInv | tail => exact absurd rfl hi
  | unreachablePhase | unreachableValClass3 | unreachableDecClass3 => exact absurd rfl hi
  | _ => exact ⟨_, _, rfl, rfl⟩

end Sys2Proof.Machine

open Sys2Proof Sys2Proof.Machine

/-- Settles O2: the operation has the descriptor, and no descriptor selects a command or an engine step. -/
theorem everyDescriptorIsTheCodeOfItsOperation : Obligations.EveryDescriptorIsTheCodeOfItsOperation := by
  intro cap td d
  obtain ⟨hwf, hcode⟩ := hasDescriptor_decodeTD cap td d
  exact ⟨hwf, decodeTD_format_td cap td d, hcode⟩

/-- Settles O23: between runs the write is the store of its four lanes, in a run it is dropped. -/
theorem inWindowWrite : Obligations.InWindowWrite := by
  intro w d s hw
  refine ⟨fun hp => ⟨_, exec_wrIn_idle hw hp d, rfl, fun a => ?_⟩, fun hp => exec_wrIn_busy hw hp d⟩
  calc inByte (answer (storeInWord s (laneBase w) d) .okay 0#32) a
      = inByte (storeInWord s (laneBase w) d) a := inByte_congr (answer_inMem _ _ _) a
    _ = _ := inByte_storeInWord s (laneBase w) a d

/-- Settles O25: BAD answers SLVERR and does nothing else, every other transaction answers OKAY. -/
theorem everyTransactionAnswers : Obligations.EveryTransactionAnswers := by
  intro i s hi hwf
  by_cases hbad : ∃ td, i = .bad td
  · obtain ⟨td, rfl⟩ := hbad
    exact ⟨_, .slverr, 0#32, rfl, rfl, ⟨fun _ => ⟨td, rfl⟩, fun _ => rfl⟩, fun _ => rfl⟩
  · obtain ⟨t, v, hexec, hresp⟩ := exec_answers_okay hi hwf (not_exists.1 hbad)
    exact ⟨t, .okay, v, hexec, hresp, ⟨nofun, fun h => absurd h hbad⟩, nofun⟩

/-- Settles O7: each word decodes by computation. -/
theorem sampleWordsDecode : Obligations.SampleWordsDecode :=
  ⟨rfl, rfl, rfl, rfl, rfl, rfl, rfl, rfl, rfl, rfl, rfl, rfl⟩

/-- Settles O15: 32 bits hold every legal IN_CAP. -/
theorem constantReads : Obligations.ConstantReads := by
  intro s
  refine ⟨rfl, rfl, fun hcap => ⟨BitVec.ofNat 32 s.inCap, ?_, rfl⟩⟩
  rw [BitVec.toNat_ofNat, Nat.mod_eq_of_lt (by omega)]

/-- Settles O17: the reads return the registers, and R48 with the latched N says what those hold. -/
theorem registerReads : Obligations.RegisterReads := by
  refine ⟨fun s => ⟨?_, rfl, rfl, rfl, rfl⟩, fun s hinv => ⟨fun hp => ?_, hinv.regs.errNoOutput⟩⟩
  · rw [← irqEnWord_eq_ite]
    rfl
  · obtain ⟨hlen, -⟩ := hinv.engine.latched hp
    obtain ⟨-, -, -, -, hout, hpad⟩ := hinv.regs.busyClear hp
    exact ⟨hlen.symm, hout, hpad⟩

/-- Settles O18: the IN window word is its four bytes side by side. -/
theorem inWindowRead : Obligations.InWindowRead := fun _ _ hw => exec_rdIn hw

/-- Settles O19: the OUT window word in a run, and lane by lane between runs. -/
theorem outWindowRead : Obligations.OutWindowRead := by
  intro w s hw
  refine ⟨fun hp => ?_, fun hp => ⟨_, exec_rdOut hw, fun k hk => lane_outWord_idle hp (laneBase w) hk⟩⟩
  rw [exec_rdOut hw, outWord_busy hp]
  rfl

/-- Settles O20: the six ignored registers answer by definition, and so does WR_OUT below OUT_CAP. -/
theorem ignoredWrites : Obligations.IgnoredWrites :=
  fun d _ _ => ⟨rfl, rfl, rfl, rfl, rfl, rfl, fun hw => exec_wrOut hw d⟩

/-- Settles O21: `irq` is DONE AND DONE_IE of the state after the write. -/
theorem irqEnableWrite : Obligations.IrqEnableWrite := by
  refine fun d s => ⟨rfl, fun t hexec => ?_⟩
  cases hexec
  exact ⟨fun hd => (congrArg (s.done && ·) hd).trans (Bool.and_true _),
    fun hd => ⟨(congrArg (s.done && ·) hd).trans (Bool.and_false _), rfl⟩⟩

/-- Settles O22: BUSY decides between the store and the drop. -/
theorem inLenWrite : Obligations.InLenWrite :=
  fun d _ => ⟨fun hp => exec_wrInLen_idle hp d, fun hp => exec_wrInLen_busy hp d⟩

/-- Settles O24: BAD by definition, and the window accesses by the failed comparison with their capacity. -/
theorem badTransactionsHaveNoEffect : Obligations.BadTransactionsHaveNoEffect :=
  fun _ _ d _ => ⟨rfl, fun hw => exec_inWindow_beyond hw d, fun hw => exec_outWindow_beyond hw d⟩

end

section
/-!
PROOFS. The interrupt and the errors of 60_exceptions.md: what raises `irq` (O50), and the byte that a decode error
names (O59).
-/

namespace Sys2Proof.Machine

open Sys2Proof

/-! ### What can change DONE_IE and `irq` (R43, R226, R257) -/

/-- `irq` is DONE AND DONE_IE (R257). -/
theorem irq_iff (s : State) : s.irq = true ↔ s.done = true ∧ s.doneIe = true := Bool.and_eq_true_iff

theorem irq_congr {s t : State} (hdone : t.done = s.done) (hie : t.doneIe = s.doneIe) : t.irq = s.irq :=
  congrArg₂ and hdone hie

/-- START leaves DONE_IE, accepted or refused (R192, R193). -/
theorem startRun_doneIe (s : State) : (startRun s).doneIe = s.doneIe := by
  obtain ⟨-, -, h⟩ | ⟨-, h⟩ := startRun_cases s <;> simp [h]

/-- A transaction leaves DONE_IE, unless it is the write of IRQ_EN (R226). -/
theorem exec_td_doneIe {i : Instr} {s t : State} (hi : i.format = .td) (h : exec i s = .next t) :
    t.doneIe = s.doneIe ∨ ∃ d, i = .wrIrqEn d := by
  cases i with
  | wrIrqEn d => exact .inr ⟨d, rfl⟩
  | wrCtrl d =>
    left
    obtain ⟨-, he⟩ | ⟨-, he⟩ | ⟨-, he⟩ | ⟨-, he⟩ := exec_wrCtrl_cases d s <;> cases he.symm.trans h
    · rfl
    · exact startRun_doneIe s
    · rfl
    · exact startRun_doneIe (clearStatus s)
  | rdIn | rdOut | wrInLen | wrIn | wrOut =>
    simp only [exec, execRdIn, execRdOut, execWrInLen, execWrIn, execWrOut] at h
    split_ifs at h <;> (cases h; exact .inl rfl)
  | nop | start | clr | clrStart => cases hi
  | idle | len | valSym | valPad | valInv | prep | decSym | decPad | decInv | tail => cases hi
  | unreachablePhase | unreachableValClass3 | unreachableDecClass3 => cases hi
  | _ => cases h; exact .inl rfl

/-- An engine step leaves DONE_IE. -/
theorem EngineEffect.doneIe {s t : State} (h : EngineEffect s t) : t.doneIe = s.doneIe := by
  cases h <;> rfl

@[simp] theorem engineFrom_doneIe (s : State) : (engineFrom s).doneIe = s.doneIe := by unfold engineFrom; split <;> rfl

/-- The engine's turn leaves DONE_IE. -/
theorem engineTurn_doneIe {s t : State} {sel : Sel} (h : exec (decodeSel sel) (engineFrom s) = .next t) :
    t.doneIe = s.doneIe :=
  (exec_sel_cases (decodeSel_format sel) h).doneIe.trans (engineFrom_doneIe s)

/-- A transaction raises `irq` only as a write of IRQ_EN while DONE = 1: none sets DONE (R38, R226). -/
theorem exec_td_raises_irq {i : Instr} {s t : State} (hi : i.format = .td) (h : exec i s = .next t)
    (hs : s.irq = false) (ht : t.irq = true) : s.done = true ∧ t.done = true ∧ ∃ d, i = .wrIrqEn d := by
  obtain ⟨htdone, -⟩ := (irq_iff t).1 ht
  have hdone : t.done = s.done := by
    obtain ⟨-, hkept | ⟨hclear, -⟩⟩ := exec_td_done_phase hi h
    · exact hkept
    · exact absurd hclear (by simp [htdone])
  obtain hkept | hwrite := exec_td_doneIe hi h
  · exact absurd ((irq_congr hdone hkept).trans hs) (by simp [ht])
  · exact ⟨hdone ▸ htdone, htdone, hwrite⟩

/-! ### The byte that an error names (R242 to R244) -/

/-- The byte at index k is there and has this class. -/
def HasClassAt (s : List Byte) (k : Nat) (c : SymClass) : Prop := ∃ b, s[k]? = some b ∧ classOf b = c

theorem HasClassAt.lt_length {s : List Byte} {k : Nat} {c : SymClass} (h : HasClassAt s k c) : k < s.length := by
  obtain ⟨b, hb, -⟩ := h
  exact (List.getElem?_eq_some_iff.1 hb).1

theorem HasClassAt.classOf_getD {s : List Byte} {k : Nat} {c : SymClass} (h : HasClassAt s k c) :
    classOf (s.getD k 0#8) = c := by
  obtain ⟨b, hb, hc⟩ := h
  rw [List.getD_eq_getElem?_getD, hb]
  exact hc

/-- The scan from index i on fails at a byte of the kind it reports: at an accepted `=` that a symbol follows, at a
`=` that comes too early, or at an invalid byte. Once a `=` is accepted, the byte before i is one. -/
theorem refScan_names_offender {s cs : List Byte} {n i : Nat} {seen : Bool} (hcs : s.drop i = cs)
    (hseen : seen = true → HasClassAt s (i - 1) .pad) {code : ErrCode} {pos : Nat}
    (h : refScan n i seen cs = some (code, pos)) :
    code = .invalidPaddingPosition ∧ HasClassAt s pos .pad ∨ code = .invalidCharacter ∧ HasClassAt s pos .inv := by
  induction cs generalizing i seen with
  | nil => cases h
  | cons c cs ih =>
    have hc : s[i]? = some c := by rw [← List.head?_drop, hcs, List.head?_cons]
    have hrest : s.drop (i + 1) = cs := by rw [← List.tail_drop, hcs, List.tail_cons]
    obtain hclass | hclass | hclass := classOf_cases c
    · rw [refScan_cons_sym hclass] at h
      cases seen with
      | true => cases h; exact .inl ⟨rfl, hseen rfl⟩
      | false => exact ih (seen := false) hrest nofun h
    · rw [refScan_cons_pad hclass] at h
      split_ifs at h
      · cases h; exact .inl ⟨rfl, c, hc, hclass⟩
      · exact ih hrest (fun _ => ⟨c, hc, hclass⟩) h
    · rw [refScan_cons_inv hclass] at h
      cases h; exact .inr ⟨rfl, c, hc, hclass⟩

end Sys2Proof.Machine

open Sys2Proof Sys2Proof.Machine

/-- Settles O50, by the four kinds of step: a transaction raises `irq` through WR_IRQ_EN alone, the engine's turn by
ending a run, and a held cycle or a reset edge not at all. -/
theorem interruptIsRaisedByCompletionOnly : Obligations.InterruptIsRaisedByCompletionOnly := by
  refine ⟨irq_iff, fun s t h hs ht => ?_⟩
  obtain ⟨txn, held, rest, -, hpend, he⟩ | ⟨sel, hsel, he, -⟩ | ⟨rest, -, -, rfl⟩ | ⟨rest, -, -, rfl⟩ := step_cases h
  · obtain ⟨hdone, htdone, d, hd⟩ := exec_td_raises_irq (decodeTD_format_td _ _ _) he hs ht
    exact .inr ⟨hdone, htdone, txn, held, d, rest, hpend, hd⟩
  · have hie := engineTurn_doneIe he
    obtain ⟨hkept, -⟩ | ⟨-, hbusy, hidle⟩ := engineTurn_done_phase hsel he
    · exact absurd ((irq_congr hkept hie).trans hs) (by simp [ht])
    · exact .inl ⟨hbusy, hidle, hie⟩
  · exact absurd (ht.symm.trans hs) nofun
  · exact absurd ht nofun

/-- Settles O59: a failure is the length check's, or the scan's at a byte of the kind it reports; the only byte of the
padding class is `=`. -/
theorem decodeRefErrorsNameTheOffendingByte : Obligations.DecodeRefErrorsNameTheOffendingByte := by
  intro s code pos h
  obtain ⟨-, hs⟩ | ⟨h4, hs⟩ | ⟨-, code', pos', hscan, hs⟩ | ⟨-, -, -, hs⟩ := decodeRef_cases s <;>
    cases hs.symm.trans h
  · exact .inl ⟨rfl, rfl, h4⟩
  · obtain ⟨hcode, hpad⟩ | ⟨hcode, hinv⟩ := refScan_names_offender (seen := false) List.drop_zero nofun hscan
    · exact .inr (.inl ⟨hcode, hpad.lt_length, (classOf_eq_pad _).1 hpad.classOf_getD⟩)
    · exact .inr (.inr ⟨hcode, hinv.lt_length, hinv.classOf_getD⟩)

end

section
/-!
PROOFS. The step of the machine, 70_reset_and_hazards.md and 40_decode_engine.md section 1: which operation it runs (O10,
O11), the reset edge (O12, O13) and the order inside a cycle (O14). A machine at power-on holds the invariant (O41), and
no state of the invariant stops (O43, O44).
-/

namespace Sys2Proof.Machine

open Sys2Proof

/-! ### What a step runs (R95, R140, R294) -/

/-- A transaction is the step when no engine step is owed and the next cycle input carries it. -/
theorem step_of_txn {s : State} {txn : Txn} {held : Bool} {rest : List CycleInput} (hdue : s.engineDue = false)
    (hpend : s.pending = .cycle (some txn) held :: rest) :
    step s = exec (decodeTD s.inCap txn.td txn.wdata)
      { s with pending := rest, engineDue := s.busy && !held } := by
  simp only [step, fetch, hdue, Bool.false_eq_true, if_false, hpend, fetchCycle, State.busy]

/-- A cycle that holds the engine back only uses up its input (R296). -/
theorem step_of_held {s : State} {rest : List CycleInput} (hdue : s.engineDue = false)
    (hpend : s.pending = .cycle none true :: rest) : step s = .next { s with pending := rest } := by
  simp only [step, fetch, hdue, Bool.false_eq_true, if_false, hpend, fetchCycle, if_true]

/-- A clock edge with `rst` = 1 is the reset edge (R281). -/
theorem step_of_reset {s : State} {rest : List CycleInput} (hdue : s.engineDue = false)
    (hpend : s.pending = .rst :: rest) :
    step s = .next (resetEdge { s with pending := rest }) := by
  simp only [step, fetch, hdue, Bool.false_eq_true, if_false, hpend]

theorem engineFrom_of_due {s : State} (hdue : s.engineDue = true) : engineFrom s = { s with engineDue := false } :=
  if_pos hdue

theorem engineFrom_of_quiet {s : State} (hdue : s.engineDue = false) (hpend : s.pending = []) : engineFrom s = s := by
  rw [engineFrom, if_neg (by simp [hdue]), hpend, List.tail_nil, ← hpend]

theorem engineFrom_of_free {s : State} {rest : List CycleInput} (hdue : s.engineDue = false)
    (hpend : s.pending = .cycle none false :: rest) : engineFrom s = { s with pending := rest } := by
  rw [engineFrom, if_neg (by simp [hdue]), hpend, List.tail_cons]

/-- It is the engine's turn: its step is owed, no cycle input is left, or the next one carries no transaction and does
not hold the engine back. -/
def EngineTurn (s : State) : Prop :=
  s.engineDue = true ∨ s.engineDue = false ∧ (s.pending = [] ∨ ∃ rest, s.pending = .cycle none false :: rest)

/-- On the engine's turn the machine takes its operation from the engine (R140). -/
theorem fetch_of_engineTurn {s : State} (h : EngineTurn s) : fetch s = fetchEngine (engineFrom s) := by
  obtain hdue | ⟨hdue, hpend | ⟨rest, hpend⟩⟩ := h
  · rw [engineFrom_of_due hdue, fetch, if_pos hdue]
  · rw [engineFrom_of_quiet hdue hpend]
    simp only [fetch, hdue, Bool.false_eq_true, if_false, hpend, fetchCycle]
  · rw [engineFrom_of_free hdue hpend]
    simp only [fetch, hdue, Bool.false_eq_true, if_false, hpend, fetchCycle]

/-- On the engine's turn the step is that of the engine's selector (R140). -/
theorem step_of_engineTurn {s : State} {sel : Sel} (h : EngineTurn s) (hsel : selector s = some sel) :
    step s = exec (decodeSel sel) (engineFrom s) := by
  simp only [step, fetch_of_engineTurn h, fetchEngine, selector_engineFrom, hsel]

/-! ### What a transaction leaves (R294) -/

/-- A transaction or a command is one of the effects and then its answer. -/
theorem txnEffect_of_exec {i : Instr} {s t : State} (hi : i.format ≠ .sel) (h : exec i s = .next t) :
    ∃ u r d, TxnEffect s u ∧ t = answer u r d := by
  obtain ⟨u, r, d, hu, hexec⟩ := exec_txn_cases i s hi
  cases hexec.symm.trans h
  exact ⟨u, r, d, hu, rfl⟩

/-- What no transaction touches: the constants and the engine step owed. -/
structure TxnFrame (s t : State) : Prop where
  inCap : t.inCap = s.inCap
  lut : t.lut = s.lut
  engineDue : t.engineDue = s.engineDue

theorem startRun_frame (s : State) : TxnFrame s (startRun s) := by
  obtain ⟨-, -, h⟩ | ⟨-, h⟩ := startRun_cases s <;> (rw [h]; constructor <;> rfl)

theorem TxnEffect.frame {s u : State} (h : TxnEffect s u) : TxnFrame s u := by
  cases h with
  | start => exact startRun_frame s
  | clrStart =>
    obtain ⟨hcap, hlut, hdue⟩ := startRun_frame (clearStatus s)
    exact ⟨hcap, hlut, hdue⟩
  | none | irqEn | drop | inLen | store | clr => constructor <;> rfl

/-- No transaction moves PHASE, but for an accepted START, which moves it to LEN (R192). -/
theorem TxnEffect.phase_cases {s u : State} (h : TxnEffect s u) : u.phase = s.phase ∨ u.phase = .len := by
  cases h with
  | start => exact (startRun_done_phase s).imp And.right And.right
  | clrStart => exact (startRun_done_phase (clearStatus s)).imp And.right And.right
  | none | irqEn | drop | inLen | store | clr => exact .inl rfl

/-! ### The invariant from power-on (R63, R129, R161, R162) -/

theorem inv_powerOn {cap : Nat} (hcap : Config.legalCap cap = true) (inputs : List CycleInput) :
    (powerOn cap inputs).Inv := by
  refine ⟨⟨hcap, rfl⟩, ⟨rfl, rfl⟩, ?_, .of_idle rfl rfl rfl⟩
  constructor <;> simp [powerOn, State.reset]

/-- On the engine's turn a state of the invariant goes on: its selector has a step rule, whose reads, writes and
differences are defined. -/
theorem State.Inv.goes_of_engineTurn {s : State} (h : s.Inv) (hturn : EngineTurn s) : s.Goes := by
  obtain ⟨sel, t, hsel, hexec, -⟩ := (inv_engineFrom h).engineTurn
  exact ⟨t, (step_of_engineTurn hturn (selector_engineFrom s ▸ hsel)).trans hexec⟩

/-- No state of the invariant stops: a transaction, a held cycle and a reset edge never do. -/
theorem State.Inv.goes {s : State} (h : s.Inv) : s.Goes := by
  cases hdue : s.engineDue with
  | true => exact h.goes_of_engineTurn (.inl hdue)
  | false =>
    match hpend : s.pending with
    | [] => exact h.goes_of_engineTurn (.inr ⟨hdue, .inl hpend⟩)
    | .cycle none false :: rest => exact h.goes_of_engineTurn (.inr ⟨hdue, .inr ⟨rest, hpend⟩⟩)
    | .cycle none true :: rest => exact ⟨_, step_of_held hdue hpend⟩
    | .rst :: rest => exact ⟨_, step_of_reset hdue hpend⟩
    | .cycle (some txn) held :: rest =>
      obtain ⟨u, r, d, -, hexec⟩ := exec_txn_cases (decodeTD s.inCap txn.td txn.wdata)
        { s with pending := rest, engineDue := s.busy && !held } (decodeTD_format _ _ _)
      exact ⟨_, (step_of_txn hdue hpend).trans hexec⟩

/-- Any number of steps from a state of the invariant ends in a state of the invariant. -/
theorem State.Inv.run {s : State} (h : s.Inv) (k : Nat) :
    ∃ t : State, Host.Core.run Sys2Proof.core k s = .next t ∧ t.Inv := by
  induction k generalizing s with
  | zero => exact ⟨s, rfl, h⟩
  | succ k ih =>
    obtain ⟨u, hstep⟩ := h.goes
    obtain ⟨t, hrun, ht⟩ := ih (stepKeepsTheInvariant s u h hstep)
    exact ⟨t, (run_succ hstep k).trans hrun, ht⟩

end Sys2Proof.Machine

open Sys2Proof Sys2Proof.Machine

/-- Settles O43: the engine's turn has a step rule that is defined, and nothing else can stop the machine. -/
theorem invariantStatesNeverStop : Obligations.InvariantStatesNeverStop := fun _ h => h.goes

/-- Settles O41: every register at its reset value, and no byte written. -/
theorem powerOnHoldsTheInvariant : Obligations.PowerOnHoldsTheInvariant := fun _ inputs hcap => inv_powerOn hcap inputs

/-- Settles O44, by induction on the number of steps: the invariant holds at power-on, no state of it stops, and every
step keeps it. -/
theorem noHostBehaviourStopsTheMachine : Obligations.NoHostBehaviourStopsTheMachine :=
  fun _ inputs k hcap => (inv_powerOn hcap inputs).run k

/-- Settles O10: BUSY is PHASE ≠ IDLE. -/
theorem stepRunsTheTransaction : Obligations.StepRunsTheTransaction := by
  intro s td d held rest hdue hpend
  rw [step_of_txn hdue hpend, busy_eq_decide]

/-- Settles O11: the three ways to the engine's turn, and the held cycle. -/
theorem stepRunsTheEngine : Obligations.StepRunsTheEngine := by
  intro s sel rest hsel
  refine ⟨fun hdue => ?_, fun hdue hpend => ?_, fun hdue hpend => ?_, step_of_held⟩
  · rw [step_of_engineTurn (.inl hdue) hsel, engineFrom_of_due hdue]
  · rw [step_of_engineTurn (.inr ⟨hdue, .inl hpend⟩) hsel, engineFrom_of_quiet hdue hpend]
  · rw [step_of_engineTurn (.inr ⟨hdue, .inr ⟨rest, hpend⟩⟩) hsel, engineFrom_of_free hdue hpend]

/-- Settles O12: the reset edge is the state of R63 around the constants and the buffers; at power-on no byte is
written. -/
theorem resetEdgeRestoresTheRegisters : Obligations.ResetEdgeRestoresTheRegisters :=
  ⟨fun _ _ hdue hpend => step_of_reset hdue hpend, fun _ => ⟨rfl, rfl⟩⟩

/-- Settles O13: the reset state register by register. -/
theorem resetState : Obligations.ResetState :=
  ⟨rfl, rfl, rfl, rfl, rfl, rfl, rfl, rfl, rfl, rfl, rfl, rfl, rfl, rfl, rfl, rfl, rfl, rfl, rfl, rfl, rfl, rfl, rfl⟩

/-- Settles O14: the transaction leaves the latch and the inputs as the cycle's start set them, and only an accepted
START leaves IDLE. -/
theorem transactionComesBeforeTheEngineStep : Obligations.TransactionComesBeforeTheEngineStep := by
  intro s t txn rest hdue hpend hstep
  rw [step_of_txn hdue hpend] at hstep
  obtain ⟨u, r, d, hu, rfl⟩ := txnEffect_of_exec (decodeTD_format _ _ _) hstep
  have hlatch : u.engineDue = s.busy := hu.frame.engineDue.trans (Bool.and_true _)
  exact ⟨hu.pending, by rw [answer_engineDue, hlatch, busy_iff],
    fun hp => hu.phase_cases.imp_left fun hkept => hkept.trans hp⟩

end

section
/-!
PROOFS. What the steps leave as it was: the constants (O45), the canonical form of the buffers (O46), each side's
registers (O47, O48), OUT_MEM in a failing run (O51) and the result between runs (O53).
-/

namespace Sys2Proof.Machine

open Sys2Proof

/-! ### The constants and the buffers (R34, R50 to R52) -/

/-- No engine step writes the constants. -/
theorem EngineEffect.constants {s t : State} (h : EngineEffect s t) : t.inCap = s.inCap ∧ t.lut = s.lut := by
  cases h <;> exact ⟨rfl, rfl⟩

@[simp] theorem engineFrom_inCap (s : State) : (engineFrom s).inCap = s.inCap := by unfold engineFrom; split <;> rfl

@[simp] theorem engineFrom_lut (s : State) : (engineFrom s).lut = s.lut := by unfold engineFrom; split <;> rfl

@[simp] theorem engineFrom_inMem (s : State) : (engineFrom s).inMem = s.inMem := by unfold engineFrom; split <;> rfl

theorem BuffersOk.congr {s t : State} (h : BuffersOk s) (hcap : t.inCap = s.inCap) (hin : t.inMem = s.inMem)
    (hout : t.outMem = s.outMem) : BuffersOk t :=
  ⟨by rw [hcap, hin]; exact h.inMem, by rw [outCap, hcap, hout]; exact h.outMem⟩

/-- START writes no buffer (R192, R193). -/
theorem startRun_inMem (s : State) : (startRun s).inMem = s.inMem := by
  obtain ⟨-, -, h⟩ | ⟨-, h⟩ := startRun_cases s <;> simp [h]

/-- A transaction keeps the buffers canonical: it writes OUT_MEM never, and IN_MEM below IN_CAP (R228). -/
theorem TxnEffect.keeps_buffers {s u : State} (hu : TxnEffect s u) (hcap : Config.legalCap s.inCap = true)
    (h : BuffersOk s) : BuffersOk u := by
  have hframe := hu.frame
  have hout := hu.outMem
  cases hu with
  | store w d _ hw => exact ⟨storeInWord_wf d h.inMem (laneBase_add_three_lt hcap hw), h.outMem⟩
  | start => exact h.congr hframe.inCap (startRun_inMem s) hout
  | clrStart => exact h.congr hframe.inCap (startRun_inMem (clearStatus s)) hout
  | none | irqEn | drop | inLen | clr => exact h.congr rfl rfl rfl

/-- An engine step keeps the buffers canonical: it writes OUT_MEM below OUT_CAP (R161). -/
theorem EngineEffect.keeps_buffers {s t : State} (ht : EngineEffect s t) (h : BuffersOk s) : BuffersOk t := by
  cases ht with
  | symbol _ _ _ _ hm | finish _ _ _ hm => exact ⟨h.inMem, hm.wf h.outMem⟩
  | none | empty | fail | enterVal | accept | enterDec | enterTail => exact h.congr rfl rfl rfl

/-! ### Which side owns which register (R51, R52, R294) -/

/-- A transaction or a command during a run leaves all that the run depends on or writes (R294). -/
theorem exec_txn_sameRun {i : Instr} {s t : State} (hi : i.format ≠ .sel) (hp : s.phase ≠ .idle)
    (h : exec i s = .next t) : SameRun s t := by
  obtain ⟨u, r, d, hu, rfl⟩ := txnEffect_of_exec hi h
  have hanswer : SameRun u (answer u r d) := by constructor <;> rfl
  exact (hu.sameRun hp).trans hanswer

/-- An engine step that sets ERR leaves OUT_MEM: the steps that write it leave ERR or end the run in success (R166). -/
theorem EngineEffect.outMem_of_err {s t : State} (h : EngineEffect s t) (hs : s.err = false) (ht : t.err = true) :
    t.outMem = s.outMem := by
  cases h with
  | symbol => exact absurd (ht.symm.trans hs) nofun
  | finish => cases ht
  | none | empty | fail | enterVal | accept | enterDec | enterTail => rfl

@[simp] theorem engineFrom_err (s : State) : (engineFrom s).err = s.err := by unfold engineFrom; split <;> rfl

/-! ### The result between runs (R62, R96, R194) -/

/-- With DONE = 0 there is no error to clear (R48). -/
theorem RegsOk.noError_of_not_done {s : State} (h : RegsOk s) (hd : s.done = false) :
    s.err = false ∧ s.errCode = .none ∧ s.errPos = 0#32 := by
  have herr : s.err = false := by
    by_contra he
    exact Bool.false_ne_true (hd.symm.trans (h.errDone (Bool.eq_true_of_not_eq_false he)))
  have hcode : s.errCode = .none := by
    by_contra hne
    exact Bool.false_ne_true (herr.symm.trans (h.errCode.2 hne))
  have hpos : s.errPos = 0#32 := by
    by_contra hne
    simpa [hcode] using h.posCode hne
  exact ⟨herr, hcode, hpos⟩

/-- What stays of the last run's result when `t` follows `s` between runs: the output always, and its status too if
DONE stays. -/
structure KeepsResult (s t : State) : Prop where
  outLen : t.outLen = s.outLen
  padCnt : t.padCnt = s.padCnt
  outMem : t.outMem = s.outMem
  status : t.done = s.done → t.err = s.err ∧ t.errCode = s.errCode ∧ t.errPos = s.errPos

theorem KeepsResult.sameResult {s t : State} (h : KeepsResult s t) (hd : t.done = s.done) : SameResult s t := by
  obtain ⟨herr, hcode, hpos⟩ := h.status hd
  exact ⟨hd, herr, hcode, hpos, h.outLen, h.padCnt, outByte_congr h.outMem⟩

/-- CLR keeps the output, and clears the status only where it clears DONE (R194). -/
theorem RegsOk.keepsResult_clearStatus {s : State} (h : RegsOk s) : KeepsResult s (clearStatus s) := by
  refine ⟨rfl, rfl, rfl, fun hd => ?_⟩
  obtain ⟨herr, hcode, hpos⟩ := h.noError_of_not_done hd.symm
  exact ⟨herr.symm, hcode.symm, hpos.symm⟩

/-- A START that starts no run only sets CMDERR (R193). -/
theorem startRun_eq_of_idle {s : State} (h : (startRun s).phase = .idle) : startRun s = { s with cmdErr := true } := by
  obtain ⟨-, -, hs⟩ | ⟨-, hs⟩ := startRun_cases s
  · exact absurd (hs ▸ h) nofun
  · exact hs

/-- A transaction that starts no run keeps the result. -/
theorem TxnEffect.keepsResult {s u : State} (hu : TxnEffect s u) (h : RegsOk s) (hidle : u.phase = .idle) :
    KeepsResult s u := by
  cases hu with
  | start =>
    rw [startRun_eq_of_idle hidle]
    exact ⟨rfl, rfl, rfl, fun _ => ⟨rfl, rfl, rfl⟩⟩
  | clr => exact h.keepsResult_clearStatus
  | clrStart =>
    rw [startRun_eq_of_idle hidle]
    obtain ⟨hlen, hpad, hmem, hstatus⟩ := h.keepsResult_clearStatus
    exact ⟨hlen, hpad, hmem, hstatus⟩
  | none | irqEn | drop | inLen | store => exact ⟨rfl, rfl, rfl, fun _ => ⟨rfl, rfl, rfl⟩⟩

theorem keepsResult_engineFrom (s : State) : KeepsResult s (engineFrom s) := by
  unfold engineFrom
  split <;> exact ⟨rfl, rfl, rfl, fun _ => ⟨rfl, rfl, rfl⟩⟩

/-- From an idle state a step that is no reset edge and starts no run keeps the result. -/
theorem step_keepsResult {s t : State} (h : RegsOk s) (hp : s.phase = .idle) (hrst : ∀ rest, s.pending ≠ .rst :: rest)
    (hstep : step s = .next t) (ht : t.phase = .idle) : KeepsResult s t := by
  obtain ⟨txn, held, rest, -, -, he⟩ | ⟨sel, hsel, he, -⟩ | ⟨rest, -, -, rfl⟩ | ⟨rest, -, hpend, -⟩ := step_cases hstep
  · obtain ⟨u, r, d, hu, rfl⟩ := txnEffect_of_exec (decodeTD_format _ _ _) he
    obtain ⟨h1, h2, h3, h4, h5, h6, h7, h8, h9⟩ := h
    obtain ⟨hlen, hpad, hmem, hstatus⟩ := hu.keepsResult ⟨h1, h2, h3, h4, h5, h6, h7, h8, h9⟩ ht
    exact ⟨hlen, hpad, hmem, hstatus⟩
  · obtain rfl := exec_selector_idle hsel hp he
    exact keepsResult_engineFrom s
  · exact ⟨rfl, rfl, rfl, fun _ => ⟨rfl, rfl, rfl⟩⟩
  · exact absurd hpend (hrst rest)

end Sys2Proof.Machine

open Sys2Proof Sys2Proof.Machine

/-- Settles O45, by the four kinds of step. -/
theorem noStepWritesTheConstants : Obligations.NoStepWritesTheConstants := by
  intro s t hstep
  obtain ⟨txn, held, rest, -, -, he⟩ | ⟨sel, -, he, -⟩ | ⟨rest, -, -, rfl⟩ | ⟨rest, -, -, rfl⟩ := step_cases hstep
  · obtain ⟨u, r, d, hu, rfl⟩ := txnEffect_of_exec (decodeTD_format _ _ _) he
    exact ⟨hu.frame.inCap, hu.frame.lut⟩
  · simpa using (exec_sel_cases (decodeSel_format sel) he).constants
  · exact ⟨rfl, rfl⟩
  · exact ⟨rfl, rfl⟩

/-- Settles O46, by the four kinds of step. -/
theorem buffersStayCanonical : Obligations.BuffersStayCanonical := by
  intro s t hcap h hstep
  obtain ⟨txn, held, rest, -, -, he⟩ | ⟨sel, -, he, -⟩ | ⟨rest, -, -, rfl⟩ | ⟨rest, -, -, rfl⟩ := step_cases hstep
  · obtain ⟨u, r, d, hu, rfl⟩ := txnEffect_of_exec (decodeTD_format _ _ _) he
    exact (hu.keeps_buffers hcap (h.congr rfl rfl rfl)).congr rfl rfl rfl
  · exact (exec_sel_cases (decodeSel_format sel) he).keeps_buffers (h.congr (by simp) (by simp) (by simp))
  · exact h.congr rfl rfl rfl
  · exact h.congr rfl rfl rfl

/-- Settles O47: no effect of a transaction is on OUT_MEM, and none of an engine step is on the host's side. -/
theorem eachBufferHasOneWriter : Obligations.EachBufferHasOneWriter := by
  refine fun i s t h => ⟨fun hi => exec_txn_outMem hi h, fun hi => ?_⟩
  cases exec_sel_cases hi h <;> exact ⟨rfl, rfl, rfl, rfl, rfl, rfl⟩

/-- Settles O48: the effects of a transaction that remain during a run are on the flags and DONE_IE. -/
theorem transactionsDoNotDisturbARun : Obligations.TransactionsDoNotDisturbARun :=
  fun _ _ _ hi hp h => exec_txn_sameRun hi hp h

/-- Settles O51: a transaction never writes OUT_MEM, and the engine does in DEC and TAIL only, where it sets no ERR. -/
theorem failingRunWritesNothing : Obligations.FailingRunWritesNothing := by
  intro s t hstep
  obtain ⟨txn, held, rest, -, -, he⟩ | ⟨sel, hsel, he, -⟩ | ⟨rest, -, -, rfl⟩ | ⟨rest, -, -, rfl⟩ := step_cases hstep
  · have hkept := exec_txn_outMem (decodeTD_format _ _ _) he
    exact ⟨fun _ _ => hkept, fun _ => hkept⟩
  · refine ⟨fun hs ht => ?_, fun hp => ?_⟩
    · simpa using (exec_sel_cases (decodeSel_format sel) he).outMem_of_err (by simpa using hs) ht
    · obtain ⟨hdec, htail⟩ : s.phase ≠ .dec ∧ s.phase ≠ .tail := by obtain hp | hp | hp := hp <;> simp [hp]
      simpa using (engineTurn_keepsOutput hsel hdec htail he).outMem
  · exact ⟨fun _ _ => rfl, fun _ => rfl⟩
  · exact ⟨fun _ _ => rfl, fun _ => rfl⟩

/-- Settles O53: from an idle state the engine does nothing, and a transaction touches the result through CLR or an
accepted START only. -/
theorem resultStaysUntilTheNextStart : Obligations.ResultStaysUntilTheNextStart := by
  intro s t h hp hrst hstep ht
  have hkept := step_keepsResult h.regs hp hrst hstep ht
  exact ⟨⟨hkept.outLen, hkept.padCnt, outByte_congr hkept.outMem⟩, hkept.sameResult⟩

end

section
/-!
PROOFS. Over-long input, 70_reset_and_hazards.md: the pieces of a split input decode to the concatenation (O60).
-/

namespace Sys2Proof.Machine

open Sys2Proof

/-! ### DECODE_REF on a concatenation (R143, R145, R147) -/

/-- DECODE_REF answers bytes exactly on whole groups of symbols that end in at most two `=`, the empty input included:
REPACK of the symbols, with the paddingCount. -/
theorem decodeRef_eq_ok_iff {s bytes : List Byte} {p : Nat} :
    decodeRef s = .ok bytes p ↔
      s.length % 4 = 0 ∧ SymbolsThenPads s ∧ repack (symbolValues s) = bytes ∧ refPad s = p := by
  rw [← refScan_eq_none_iff (n := s.length) (Nat.zero_add _).symm]
  obtain ⟨h0, hok⟩ | ⟨h4, herr⟩ | ⟨h4, code, pos, hscan, herr⟩ | ⟨h0, h4, hscan, hok⟩ := decodeRef_cases s
  · rw [hok]
    obtain rfl := List.length_eq_zero_iff.1 h0
    simp [refScan, symbolValues, repack, refPad]
  · simp [herr, h4]
  · simp [herr, hscan]
  · simp [hok, h4, hscan, symbolValues]

/-- The paddingCount is that of the last two bytes. -/
theorem refPad_append (a : List Byte) {b : List Byte} (hb : 2 ≤ b.length) : refPad (a ++ b) = refPad b := by
  obtain ⟨c1, c2, r, hr⟩ : ∃ c1 c2 r, b.reverse = c1 :: c2 :: r := by
    rw [← List.length_reverse] at hb
    match h : b.reverse, hb with
    | c1 :: c2 :: r, _ => exact ⟨c1, c2, r, rfl⟩
  simp only [refPad, List.reverse_append, hr, List.cons_append]

/-- A last `=` counts as padding. -/
theorem refPad_pos_of_last_pad {a : List Byte} {c : Byte} (ha : a ≠ []) (hc : classOf c = .pad) :
    0 < refPad (a ++ [c]) := by
  obtain ⟨a', d, rfl⟩ := List.eq_nil_or_concat' a |>.resolve_left ha
  simp only [refPad, List.reverse_append, List.reverse_singleton, List.singleton_append, (classOf_eq_pad c).1 hc,
    if_true]
  split <;> decide

/-- Whole groups that end in no padding are symbols throughout. -/
theorem SymbolsThenPads.all_sym {s : List Byte} (h : SymbolsThenPads s) (h4 : s.length % 4 = 0) (hpad : refPad s = 0) :
    ∀ c ∈ s, classOf c = .sym := by
  obtain ⟨a, b, rfl, ha, hb, hlen⟩ := h
  obtain rfl | ⟨b', c, rfl⟩ := List.eq_nil_or_concat' b
  · simpa using ha
  · have hne : a ++ b' ≠ [] := by
      intro hnil
      rw [← List.append_assoc, hnil] at h4
      simp at h4
    have hpos := refPad_pos_of_last_pad hne (hb c (by simp))
    rw [List.append_assoc] at hpos
    omega

/-- Symbols in front keep the closed form. -/
theorem SymbolsThenPads.append {a b : List Byte} (ha : ∀ c ∈ a, classOf c = .sym) (hb : SymbolsThenPads b) :
    SymbolsThenPads (a ++ b) := by
  obtain ⟨x, y, rfl, hx, hy, hlen⟩ := hb
  exact ⟨a ++ x, y, (List.append_assoc ..).symm, List.forall_mem_append.2 ⟨ha, hx⟩, hy, hlen⟩

/-- The symbols of a concatenation whose padding is that of the second piece. -/
theorem symbolValues_append (a : List Byte) {b : List Byte} (hb : 2 ≤ b.length) :
    symbolValues (a ++ b) = a.map valueOf ++ symbolValues b := by
  have hpad := refPad_le_two b
  rw [symbolValues, refPad_append a hb, List.length_append, Nat.add_sub_assoc (by omega), List.take_length_add_append,
    List.map_append, symbolValues]

/-- Without padding every byte is a symbol that REPACK takes. -/
theorem symbolValues_of_refPad_eq_zero {s : List Byte} (h : refPad s = 0) : symbolValues s = s.map valueOf := by
  rw [symbolValues, h, Nat.sub_zero, List.take_length]

end Sys2Proof.Machine

open Sys2Proof Sys2Proof.Machine

/-- Settles O60: the first piece is whole groups of symbols, so REPACK splits behind it, and the padding is that of the
second piece. -/
theorem splitInputsConcatenate : Obligations.SplitInputsConcatenate := by
  intro a b ba bb p ha hb
  obtain ⟨ha4, haform, rfl, hapad⟩ := decodeRef_eq_ok_iff.1 ha
  obtain ⟨hb4, hbform, rfl, rfl⟩ := decodeRef_eq_ok_iff.1 hb
  obtain hb0 | hb0 := Nat.eq_zero_or_pos b.length
  · obtain rfl := List.length_eq_zero_iff.1 hb0
    simpa [symbolValues, repack, refPad] using ha
  · have hb2 : 2 ≤ b.length := by omega
    refine decodeRef_eq_ok_iff.2 ⟨by rw [List.length_append]; omega, hbform.append (haform.all_sym ha4 hapad), ?_,
      refPad_append a hb2⟩
    rw [symbolValues_append a hb2, symbolValues_of_refPad_eq_zero hapad, repack_append (by rwa [List.length_map])]

end
